-- ==== Sys2Proof/Word.lean ====
section
/-! DEFINITION. The widths the spec fixes (spec/00_scope.md R10, R12): bytes on the wire, 16-bit pixels, 32-bit words. -/

namespace Sys2Proof

/-- A byte on the wire or on the parallel data lines. -/
abbrev Byte := BitVec 8

/-- A 16-bit RGB565 value, one cell of `PMEM` (40_pixel_packer.md R121, 20_memory.md R60). -/
abbrev Pixel := BitVec 16

/-- A 32-bit word of the command port or a FIFO data register (30_encoding.md R90, 10_state.md R20). -/
abbrev Word := BitVec 32

end Sys2Proof
end

