-- ==== Sys2Proof/Config.lean ====
section
/-! DEFINITION. What a PTE instance fixes before reset is released (spec/00_scope.md R8, R9), and
the free values of the model (10_state.md R44). -/

namespace Sys2Proof

/-- `BUS_MODE` (R9). -/
inductive BusMode where
  | serial | parallel
  deriving DecidableEq, Repr

/-- `COLOR_FMT` (R9): the set is closed at two (90_conflicts.md C8). -/
inductive ColorFmt where
  | rgb565 | rgb666
  deriving DecidableEq, Repr

/-- `NATIVE_FIRST` (R9): which byte of an unswapped RGB565 pixel goes first. -/
inductive NativeFirst where
  | hi | lo
  deriving DecidableEq, Repr

/-- A run of valid pixel addresses: `size` cells from `base`. -/
structure Region where
  base : Nat
  size : Nat
  deriving DecidableEq, Repr

/-- The configuration of an instance (R9). `DISP_W` and `DISP_H` lie in 1 to 65536, so the last
column and the last row are exactly the 16-bit values; `QUEUE_DEPTH` is at least 6 and fits its
4-bit status field, so its excess over 6 is below 10 (log entry 2: DEDUCED from R9 and R34). -/
structure Params where
  busMode     : BusMode
  colorFmt    : ColorFmt
  nativeFirst : NativeFirst
  lastCol     : BitVec 16
  lastRow     : BitVec 16
  queueExcess : Fin 10
  /-- `PMEM_VALID` (20_memory.md R61, R65) as a list of regions (log entry 3). -/
  regions     : List Region
  deriving DecidableEq, Repr

/-- `DISP_W`. -/
def Params.dispW (p : Params) : Nat := p.lastCol.toNat + 1

/-- `DISP_H`. -/
def Params.dispH (p : Params) : Nat := p.lastRow.toNat + 1

/-- `QUEUE_DEPTH`. -/
def Params.queueDepth (p : Params) : Nat := 6 + p.queueExcess.val

/-- `BPP`: bits per pixel on the wire (R9). -/
def ColorFmt.bpp : ColorFmt → Nat
  | .rgb565 => 16
  | .rgb666 => 24

/-- `BATCH`: pixels of one full FIFO load (R9). -/
def ColorFmt.batch : ColorFmt → Nat
  | .rgb565 => 32
  | .rgb666 => 20

/-- A pixel address exists: it is below `2^32` and `PMEM_VALID` holds of it (20_memory.md R61). -/
def Params.pmemValid (p : Params) (a : Nat) : Bool :=
  decide (a < 2 ^ 32) && p.regions.any fun r => decide (r.base ≤ a) && decide (a < r.base + r.size)

/-- The configuration `State.reset` is built with (log entry 1: DESIGN CHOICE): the values the
spec's examples use, 16 x 16, and every pixel address valid. -/
def Params.examples : Params where
  busMode     := .serial
  colorFmt    := .rgb565
  nativeFirst := .hi
  lastCol     := 15
  lastRow     := 15
  queueExcess := 0
  regions     := [⟨0, 2 ^ 32⟩]

/-- FREE VALUE: the `n`-th answer of `acquireBus` beyond those listed in `State.acqIn`
(10_state.md R44: "a free Boolean the model draws"; log entry 9). -/
opaque Config.acqOk : Nat → Bool

/-- FREE VALUE: the `n`-th answer of `queueTransaction` beyond those listed in `State.qIn`
(10_state.md R44; log entry 9). -/
opaque Config.qOk : Nat → Bool

end Sys2Proof
end

