-- ==== Sys2Proof/Syntax.lean ====
section
/-! DEFINITION. The ten operations, their formats and the fields of a header word (spec/30_encoding.md R94 to R96). -/

namespace Sys2Proof

/-- One constructor per row of the opcode table; every operand is one field taken whole (R96). -/
inductive Instr where
  | pushBlock (color : Pixel) (count : Word)
  | pushPixels (src len : Word)
  | pushSwapPixels (src len : Word)
  | setSwap (flag : Bool)
  | initDma
  | deinitDma
  | dmaBusy
  | dmaWait
  | pushPixelsDma (src len : Word)
  /-- `hasStg` is the header's `F`: a staging buffer is supplied in `stg`; with `F = 0` the word
  `stg` is taken from the port and ignored (R99). -/
  | pushImageDma (hasStg : Bool) (x y w h img stg : Word)
  deriving DecidableEq, Repr

/-- The five command formats (R95): none, flag, block, sequence, window. -/
inductive Format where
  | N | F | B | S | W
  deriving DecidableEq, Repr

/-- How many operand words follow the header (R95, R97). -/
def Format.operandWords : Format → Nat
  | .N => 0
  | .F => 0
  | .B => 1
  | .S => 2
  | .W => 6

/-- Whether the format gives the header bit `F` a meaning (R95). -/
def Format.usesFlag : Format → Bool
  | .F => true
  | .W => true
  | .N => false
  | .B => false
  | .S => false

/-- Whether the format gives the header field `IMM16` a meaning (R95). -/
def Format.usesImm : Format → Bool
  | .B => true
  | .N => false
  | .F => false
  | .S => false
  | .W => false

/-- The ten opcodes (R94). -/
inductive Opcode where
  | pushBlock | pushPixels | pushSwapPixels | setSwap
  | initDma | deinitDma | dmaBusy | dmaWait | pushPixelsDma | pushImageDma
  deriving DecidableEq, Repr

/-- Bits 7:0 of the header word (R94). -/
def Opcode.code : Opcode → Byte
  | .pushBlock => 0x01
  | .pushPixels => 0x02
  | .pushSwapPixels => 0x03
  | .setSwap => 0x04
  | .initDma => 0x10
  | .deinitDma => 0x11
  | .dmaBusy => 0x12
  | .dmaWait => 0x13
  | .pushPixelsDma => 0x14
  | .pushImageDma => 0x15

/-- The format of each opcode (R94). -/
def Opcode.format : Opcode → Format
  | .pushBlock => .B
  | .pushPixels => .S
  | .pushSwapPixels => .S
  | .setSwap => .F
  | .initDma => .N
  | .deinitDma => .N
  | .dmaBusy => .N
  | .dmaWait => .N
  | .pushPixelsDma => .S
  | .pushImageDma => .W

/-- Every opcode, in the table's order. -/
def Opcode.all : List Opcode :=
  [.pushBlock, .pushPixels, .pushSwapPixels, .setSwap,
   .initDma, .deinitDma, .dmaBusy, .dmaWait, .pushPixelsDma, .pushImageDma]

/-- The opcode a byte names, if any (R94; every other value is illegal, R98). -/
def Opcode.ofByte (b : Byte) : Option Opcode :=
  Opcode.all.find? fun o => o.code == b

/-- The fields of a header word (R95). -/
structure Header where
  opc  : Byte
  flag : Bool
  rsv  : BitVec 7
  imm  : BitVec 16
  deriving DecidableEq, Repr

/-- The opcode of an operation. -/
def Instr.opcode : Instr → Opcode
  | .pushBlock _ _ => .pushBlock
  | .pushPixels _ _ => .pushPixels
  | .pushSwapPixels _ _ => .pushSwapPixels
  | .setSwap _ => .setSwap
  | .initDma => .initDma
  | .deinitDma => .deinitDma
  | .dmaBusy => .dmaBusy
  | .dmaWait => .dmaWait
  | .pushPixelsDma _ _ => .pushPixelsDma
  | .pushImageDma _ _ _ _ _ _ _ => .pushImageDma

/-- The header fields of an operation: its opcode, its flag in formats F and W, its colour in
format B, zeros elsewhere (R95). -/
def Instr.header : Instr → Header
  | .pushBlock color _ => ⟨Opcode.code .pushBlock, false, 0, color⟩
  | .pushPixels _ _ => ⟨Opcode.code .pushPixels, false, 0, 0⟩
  | .pushSwapPixels _ _ => ⟨Opcode.code .pushSwapPixels, false, 0, 0⟩
  | .setSwap flag => ⟨Opcode.code .setSwap, flag, 0, 0⟩
  | .initDma => ⟨Opcode.code .initDma, false, 0, 0⟩
  | .deinitDma => ⟨Opcode.code .deinitDma, false, 0, 0⟩
  | .dmaBusy => ⟨Opcode.code .dmaBusy, false, 0, 0⟩
  | .dmaWait => ⟨Opcode.code .dmaWait, false, 0, 0⟩
  | .pushPixelsDma _ _ => ⟨Opcode.code .pushPixelsDma, false, 0, 0⟩
  | .pushImageDma hasStg _ _ _ _ _ _ => ⟨Opcode.code .pushImageDma, hasStg, 0, 0⟩

/-- The operand words in the order they follow the header (R95). -/
def Instr.operands : Instr → List Word
  | .pushBlock _ count => [count]
  | .pushPixels src len => [src, len]
  | .pushSwapPixels src len => [src, len]
  | .setSwap _ => []
  | .initDma => []
  | .deinitDma => []
  | .dmaBusy => []
  | .dmaWait => []
  | .pushPixelsDma src len => [src, len]
  | .pushImageDma _ x y w h img stg => [x, y, w, h, img, stg]

end Sys2Proof
end

