-- ==== Sys2Proof/WellFormed.lean ====
section
/-! DEFINITION. Which header words are legal (spec/30_encoding.md R98). Operand words accept every
value (R99), so an operation is well formed exactly when its header is. -/

namespace Sys2Proof

/-- Why a header word is illegal: the four conditions of R98, in its order. -/
inductive HeaderFault where
  | unknownOpcode
  | reservedBits
  | flagNotAllowed
  | immediateNotAllowed
  deriving DecidableEq, Repr

/-- The first condition of R98 a header meets, if any. -/
def Header.fault? (h : Header) : Option HeaderFault :=
  match Opcode.ofByte h.opc with
  | none => some .unknownOpcode
  | some op =>
    if h.rsv ≠ 0 then some .reservedBits
    else if h.flag && !op.format.usesFlag then some .flagNotAllowed
    else if h.imm ≠ 0 ∧ op.format.usesImm = false then some .immediateNotAllowed
    else none

/-- A legal header (R98). -/
def Header.wellFormed (h : Header) : Bool := h.fault?.isNone

/-- An operation is well formed when its header is legal. -/
def Instr.wellFormed (i : Instr) : Bool := i.header.wellFormed

end Sys2Proof
end

