-- ==== Sys2Proof/Decode.lean ====
section
/-! DEFINITION. The command decoder, total on every list of words and rejecting by name, and the
encoder (spec/30_encoding.md R91, R92, R95, R97, R98). -/

namespace Sys2Proof

/-- The fields of a header word (R95). -/
def Header.ofWord (w : Word) : Header where
  opc  := w.extractLsb' 0 8
  flag := w.getLsbD 8
  rsv  := w.extractLsb' 9 7
  imm  := w.extractLsb' 16 16

/-- The header word with given fields (R95). -/
def Header.toWord (h : Header) : Word :=
  h.opc.setWidth 32 ||| ((BitVec.ofBool h.flag).setWidth 32 <<< 8)
    ||| (h.rsv.setWidth 32 <<< 9) ||| (h.imm.setWidth 32 <<< 16)

/-- What the head of the command port holds. -/
inductive Decoded where
  /-- A whole command, and the words after it. -/
  | instr (i : Instr) (rest : List Word)
  /-- An illegal header word (R98), and why. -/
  | illegal (why : HeaderFault)
  /-- The header or some operand word has not been issued yet (R92: the engine keeps waiting). -/
  | more
  deriving DecidableEq, Repr

/-- The command that a legal header and the words after it make (R95, R96). -/
def decodeOperands (op : Opcode) (h : Header) (ws : List Word) : Decoded :=
  match op with
  | .pushBlock =>
    match ws with
    | count :: rest => .instr (.pushBlock h.imm count) rest
    | _ => .more
  | .pushPixels =>
    match ws with
    | src :: len :: rest => .instr (.pushPixels src len) rest
    | _ => .more
  | .pushSwapPixels =>
    match ws with
    | src :: len :: rest => .instr (.pushSwapPixels src len) rest
    | _ => .more
  | .setSwap => .instr (.setSwap h.flag) ws
  | .initDma => .instr .initDma ws
  | .deinitDma => .instr .deinitDma ws
  | .dmaBusy => .instr .dmaBusy ws
  | .dmaWait => .instr .dmaWait ws
  | .pushPixelsDma =>
    match ws with
    | src :: len :: rest => .instr (.pushPixelsDma src len) rest
    | _ => .more
  | .pushImageDma =>
    match ws with
    | x :: y :: w :: ht :: img :: stg :: rest => .instr (.pushImageDma h.flag x y w ht img stg) rest
    | _ => .more

/-- The decoder: the header is checked first (R98), then as many operand words are taken as its
opcode says (R97). -/
def decode : List Word → Decoded
  | [] => .more
  | w :: ws =>
    let h := Header.ofWord w
    match h.fault? with
    | some why => .illegal why
    | none =>
      match Opcode.ofByte h.opc with
      | some op => decodeOperands op h ws
      | none => .illegal .unknownOpcode

/-- The words of a command (R95, R100). -/
def encode (i : Instr) : List Word := i.header.toWord :: i.operands

/-- The seven words, the longest command (R97), that a number numbered as the opcode table numbers
bits stands for: word `k` holds bits `32 k + 31` to `32 k`; every bit from `nbits` up is 0. -/
def tableWords (nbits w : Nat) : List Word :=
  (List.range 7).map fun k => BitVec.ofNat 32 ((w % 2 ^ nbits) / 2 ^ (32 * k))

/-- The operation the decoder reads from such a number. -/
def decodeTableWord (nbits w : Nat) : Option Instr :=
  match decode (tableWords nbits w) with
  | .instr i _ => some i
  | .illegal _ => none
  | .more => none

end Sys2Proof
end

