-- ==== Sys2Proof/Machine/State.lean ====
section
/-! DEFINITION. Everything the spec gives the machine, as plain data, and its value after reset
(spec/10_state.md; 70_reset_and_hazards.md R260). -/

namespace Sys2Proof.Machine

/-- The level of the command/data line (10_state.md R29), also the tag of a transaction (R40). -/
inductive Level where
  | cmd | data
  deriving DecidableEq, Repr

/-- The contents of a transaction (R40). -/
inductive Body where
  /-- Bytes held in the transaction itself. -/
  | inline (bytes : List Byte)
  /-- `npix` pixels of `PMEM` from pixel address `addr`, read when the DMAC performs it. -/
  | payload (addr npix : Nat)
  deriving DecidableEq, Repr

/-- One entry of the DMA queue (R40). -/
structure Transaction where
  tag  : Level
  body : Body
  bits : Nat
  deriving DecidableEq, Repr

/-- One line of an operation's pseudocode, with the values its expressions have. An operation in
progress is the list of the lines it has still to execute (10_state.md R24: the position `k` and
the local variables of `RUN(k)`); `act` in Machine/Ops.lean gives each its effect. -/
inductive MicroOp where
  /-- `wait_until(BUSY = 0)` (41_sync_push.md R142). -/
  | waitIdle
  /-- `W[i] <- w`, that is `spiLoadRegister(i, w)` (43_bus_agents.md R211). -/
  | loadReg (i : Nat) (w : Word)
  /-- `pa = MemRead(a); pb = MemRead(a + 1); W[i] <- word565(pa, pb, swap)` (41_sync_push.md R146). -/
  | loadPair (i a : Nat) (swap : Bool)
  /-- `pa = MemRead(a); W[i] <- zext_32(half565(pa, swap))` (R146). -/
  | loadHalf (i a : Nat) (swap : Bool)
  /-- `p = MemRead(a)` (R146). -/
  | fetchPixel (a : Nat)
  /-- `W[0] <- word666(p, swap)` (R146). -/
  | loadPixel (swap : Bool)
  /-- `BITLEN <- v` (43_bus_agents.md R212). -/
  | setBitlen (v : BitVec 9)
  /-- `spiStartTransfer()` (R213). -/
  | startTransfer
  /-- `DATA <- b`, the first half of `par_write(b)` (R217). -/
  | driveByte (b : Byte)
  /-- `DATA <- byte k of pack(p, swap)` (R217, 41_sync_push.md R146). -/
  | drivePixelByte (k : Nat) (swap : Bool)
  /-- `WR <- 0` (R218). -/
  | strobeLow
  /-- `WR <- 1; emit(DC, DATA)` (R218). -/
  | strobeHigh
  /-- `drain()` (42_dma_engine.md R176). -/
  | drain
  /-- `v = MemRead(src); MemWrite(dst, val(v, swap))` (R186). -/
  | copyCell (src dst : Nat) (swap : Bool)
  /-- `NPERF <- 0` (R181, R182). -/
  | clearNperf
  /-- `queue_tx(t)` (R177). -/
  | queueTx (t : Transaction)
  /-- `PENDING <- n` (R181, R182). -/
  | setPending (n : BitVec 3)
  /-- `ok = sample ACQ_OK`, then either the fatal fault or `QHANDLE <- some; DMA_EN <- 1` (R171). -/
  | acquire
  /-- `QHANDLE <- none; DMA_EN <- 0` (R173). -/
  | release
  /-- `SWAP <- v` (41_sync_push.md R150). -/
  | writeSwap (v : Bool)
  deriving DecidableEq, Repr

/-- `ENG`, the engine's sequencer (10_state.md R24). -/
inductive Eng where
  /-- No operation in progress; the engine accepts a command. -/
  | idle
  /-- `RUN(k)`: `k` lines executed, `todo` the lines left, `ret` the value the operation returns
  when none is left (`none`: `RESULT` is left unchanged). -/
  | run (k : Nat) (todo : List MicroOp) (ret : Option Bool)
  /-- The fatal fault is latched: no step until reset. -/
  | halt
  deriving DecidableEq, Repr

/-- `OPR`, the operand latch, with the fields of 10_state.md R23. -/
structure Opr where
  opcode : Byte
  color  : Pixel
  count  : Word
  src    : Word
  len    : Word
  x      : Word
  y      : Word
  w      : Word
  h      : Word
  img    : Word
  stg    : Word
  hasStg : Bool
  flag   : Bool
  deriving DecidableEq, Repr

/-- One move of one agent (43_bus_agents.md R223). Which moves come next is the schedule, a
parameter of the step relation (10_state.md R47), held as data in `State.sched` (log entry 10). -/
inductive Move where
  /-- The engine takes the next command and executes it to its end, the SBU and the DMAC stepping
  at its waits (R223, R224). -/
  | command
  /-- The engine takes the next command and is then at `RUN(0)` (30_encoding.md R92). -/
  | accept
  /-- The engine takes one step of the operation in progress. -/
  | engine
  /-- The SBU steps (R214). -/
  | sbu
  /-- The DMAC steps (R221). -/
  | dmac
  /-- The host issues a word on the command port (30_encoding.md R90). -/
  | hostWord (w : Word)
  /-- The host reads a cell of `PMEM` (43_bus_agents.md R223, 70_reset_and_hazards.md R278). -/
  | hostRead (a : Nat)
  /-- The host writes a cell of `PMEM` (70_reset_and_hazards.md R278). -/
  | hostWrite (a : Nat) (v : Pixel)
  /-- The host reads the status port (10_state.md R36). -/
  | statusRead (off : Nat)
  /-- The host writes the status port (R36). -/
  | statusWrite (off : Nat) (v : Word)
  /-- An agent outside PTE drives the command/data line (93_implementation_defined.md U14). -/
  | outsideDc (l : Level)
  /-- Reset is asserted and released (70_reset_and_hazards.md R260). -/
  | reset
  deriving DecidableEq, Repr

/-- Why a step can stop with the machine stuck (20_memory.md R61; 70_reset_and_hazards.md R279). -/
inductive Fault where
  /-- Raised by an engine access to a pixel address that does not exist (R61, U9). Safe: the spec
  calls the engine stuck there. -/
  | engineStuckAt (a : Nat)
  /-- Raised when the DMAC performs a payload with such an address (R61, U9). Safe: the spec calls
  the DMAC stuck there. -/
  | dmacStuckAt (a : Nat)
  /-- Raised by a drain that waits for a completion no enabled step can deliver (R279). Safe: the
  operation never completes. -/
  | drainNeverEnds
  deriving DecidableEq, Repr

/-- Situations the spec gives the model no move for, and instructions not modelled. -/
inductive Refusal where
  /-- Raised by `exec` for an instruction without a meaning. Safe: the run stops. -/
  | notModelled (mnemonic : String)
  /-- Raised by a synchronous push of at least one pixel while `QUEUE != []` or `PENDING > 0`
  (70_reset_and_hazards.md R271, U4). Safe: "a model refuses it". -/
  | syncPushUnderDma
  /-- Raised by `PUSHPIXELSDMA` where it would queue 32768 pixels or more (42_dma_engine.md R180,
  U3). Safe: "a model refuses a command that breaks the precondition". -/
  | lengthLimit
  /-- Raised by `PUSHIMAGEDMA` where it would carry out a window with `w * h >= 65536` (R180, U3).
  Safe, as above. -/
  | areaLimit
  /-- Raised by a serial bus primitive called with `BUSY = 1` (43_bus_agents.md R211 to R213, U7).
  Safe: the engine never does it. -/
  | primitiveWhileBusy
  /-- Raised by the SBU when `BITLEN + 1` is no multiple of 8 (U23). Safe: never written. -/
  | partialByte
  /-- Raised by `queueTransaction` on a full queue (43_bus_agents.md R220, U19). Safe: it never
  occurs in a state a run reaches. -/
  | queueFull
  /-- Raised by a host read of a status offset that names no register (10_state.md R34). Safe. -/
  | noStatusRegister (off : Nat)
  /-- Raised by a host read or write of a pixel address that does not exist (20_memory.md R61).
  Safe. -/
  | hostAddress (a : Nat)
  /-- Raised when an outside agent drives DC while an operation is in progress or a transaction is
  outstanding (70_reset_and_hazards.md R278, U14). Safe. -/
  | outsideDrive
  deriving DecidableEq, Repr

/-- The state of the machine. -/
structure State where
  /-- The configuration (00_scope.md R8); no step writes it (log entry 1). -/
  cfg        : Params
  /-- `W[0..15]` (10_state.md R20). -/
  w          : Vector Word 16
  /-- `BITLEN` (R21). -/
  bitlen     : BitVec 9
  /-- `DATA` (R22). -/
  data       : Byte
  /-- `WR` (R22). -/
  wr         : Bool
  /-- `OPR` (R23). -/
  opr        : Opr
  /-- `ENG` (R24). -/
  eng        : Eng
  /-- The pseudocode's local variable `p` (R24; 41_sync_push.md R146). -/
  loc        : Pixel
  /-- `BUSY` (R25). -/
  busy       : Bool
  /-- `DMA_EN` (R26). -/
  dmaEn      : Bool
  /-- `FATAL` (R27). -/
  fatal      : Bool
  /-- `FAULT_CAUSE` (R27). -/
  faultCause : BitVec 2
  /-- `RESULT` (R28). -/
  result     : Bool
  /-- `DC` (R29). -/
  dc         : Level
  /-- `SWAP` (R30). -/
  swap       : Bool
  /-- `PENDING` (R31). -/
  pending    : BitVec 3
  /-- `QHANDLE`, bound or not (R32). -/
  qHandle    : Option Unit
  /-- `QUEUE` (R41). -/
  queue      : List Transaction
  /-- `COMPL` (R42). -/
  compl      : List Transaction
  /-- `NPERF` (R43). -/
  nperf      : Nat
  /-- `XLOG` (R45). -/
  xlog       : List (BitVec 9)
  /-- `WIRE` (R46). -/
  wire       : List (Level × Byte)
  /-- `PMEM` (R37), in the canonical form of Machine/Memory.lean. -/
  pmem       : List Host.Cell
  /-- `DONE`, as the last step left it (30_encoding.md R90, R93). -/
  done       : Bool
  /-- The words the host has issued and the engine has not taken, oldest first (R90). -/
  port       : List Word
  /-- The word the status port last gave the host (10_state.md R36; log entry 17). -/
  rdata      : Word
  /-- The cell of `PMEM` the host last read (43_bus_agents.md R223; log entry 17). -/
  mdata      : Pixel
  /-- The moves to come, oldest first (R47; log entry 10). -/
  sched      : List Move
  /-- The answers `acquireBus` will give, oldest first (R44; log entry 9). -/
  acqIn      : List Bool
  /-- The answers `queueTransaction` will give, oldest first (R44; log entry 9). -/
  qIn        : List Bool
  /-- How many answers have been drawn as free values (log entry 9). -/
  draws      : Nat
  deriving DecidableEq, Repr

/-- The operand latch before any command (R23, R48: unspecified; log entry 6: DESIGN CHOICE). -/
def Opr.zero : Opr where
  opcode := 0
  color  := 0
  count  := 0
  src    := 0
  len    := 0
  x      := 0
  y      := 0
  w      := 0
  h      := 0
  img    := 0
  stg    := 0
  hasStg := false
  flag   := false

/-- The machine right after reset in a given configuration (R48, R260). -/
def State.resetWith (p : Params) : State where
  cfg        := p
  w          := Vector.replicate 16 0
  bitlen     := 0
  data       := 0
  wr         := true
  opr        := Opr.zero
  eng        := .idle
  loc        := 0
  busy       := false
  dmaEn      := false
  fatal      := false
  faultCause := 0
  result     := false
  dc         := .data
  swap       := false
  pending    := 0
  qHandle    := none
  queue      := []
  compl      := []
  nperf      := 0
  xlog       := []
  wire       := []
  pmem       := []
  done       := false
  port       := []
  rdata      := 0
  mdata      := 0
  sched      := []
  acqIn      := []
  qIn        := []
  draws      := 0

/-- The machine right after reset (R48), in the configuration of `Params.examples` (log entry 1). -/
def State.reset : State := State.resetWith Params.examples

end Sys2Proof.Machine
end

