-- ==== Sys2Proof/Machine/Flags.lean ====
section
/-! DEFINITION. The values derived from the state: `DSTATE`, `CMD_READY` and the registers of the
status port (spec/10_state.md R33 to R36). -/

namespace Sys2Proof.Machine

/-- `DSTATE` (R33): 0 Idle, 1 Queued, 2 Draining. -/
def dstate (s : State) : BitVec 2 :=
  if s.pending = 0 ∧ s.queue = [] ∧ s.compl = [] then 0
  else if s.queue ≠ [] ∧ s.compl = [] ∧ s.nperf = 0 then 1
  else 2

/-- `CMD_READY`: 1 exactly when `ENG = IDLE` (R34; 30_encoding.md R92). -/
def cmdReady (s : State) : Bool := decide (s.eng = .idle)

/-- `DMA_BUSY`: `PENDING > 0` (R35). -/
def dmaBusyBit (s : State) : Bool := decide (0 < s.pending.toNat)

/-- How `DC` reads: 0 for `CMD`, 1 for `DATA` (R29). -/
def Level.bit : Level → Bool
  | .cmd => false
  | .data => true

/-- How `BUS_MODE` reads (R34). -/
def busModeBit : BusMode → Bool
  | .serial => false
  | .parallel => true

/-- How `COLOR_FMT` reads (R34). -/
def colorFmtBit : ColorFmt → Bool
  | .rgb565 => false
  | .rgb666 => true

/-- How `NATIVE_FIRST` reads (R34). -/
def nativeFirstBit : NativeFirst → Bool
  | .hi => false
  | .lo => true

/-- `CFG` at 0x00: bits 0, 1, 2 the modes, bits 7:4 the queue depth, bit 3 and bits 31:8 zero. -/
def cfgWord (c : Params) : Word :=
  (0 : BitVec 24) ++ (BitVec.ofNat 4 c.queueDepth ++ ((0 : BitVec 1) ++
    (BitVec.ofBool (nativeFirstBit c.nativeFirst) ++
      (BitVec.ofBool (colorFmtBit c.colorFmt) ++ BitVec.ofBool (busModeBit c.busMode)))))

/-- `STATUS` at 0x10, bit 10 down to bit 0. -/
def statusWord (s : State) : Word :=
  (0 : BitVec 21) ++ (BitVec.ofBool s.qHandle.isSome ++ (BitVec.ofBool s.wr ++
    (BitVec.ofBool (cmdReady s) ++ (BitVec.ofBool s.result ++ (BitVec.ofBool s.dc.bit ++
      (dstate s ++ (BitVec.ofBool s.fatal ++ (BitVec.ofBool s.busy ++
        (BitVec.ofBool (dmaBusyBit s) ++ BitVec.ofBool s.dmaEn)))))))))

/-- The 32-bit register at a byte offset of the status port (R34), `none` where none is. -/
def statusReg (s : State) (off : Nat) : Option Word :=
  if off = 0x00 then some (cfgWord s.cfg)
  else if off = 0x04 then some (BitVec.ofNat 32 s.cfg.dispW)
  else if off = 0x08 then some (BitVec.ofNat 32 s.cfg.dispH)
  else if off = 0x0C then some ((BitVec.ofBool s.swap).setWidth 32)
  else if off = 0x10 then some (statusWord s)
  else if off = 0x14 then some (s.pending.setWidth 32)
  else if off = 0x18 then some (s.faultCause.setWidth 32)
  else if off = 0x1C then some (s.bitlen.setWidth 32)
  else if off = 0x20 then some (s.data.setWidth 32)
  else if 0x40 ≤ off ∧ off % 4 = 0 then s.w[(off - 0x40) / 4]?
  else none

end Sys2Proof.Machine
end

