-- ==== Sys2Proof/Machine/Memory.lean ====
section
/-! DEFINITION. `PMEM` (spec/20_memory.md R60 to R66): 16-bit cells, held as bytes in one canonical
form. Cell `a` occupies the bytes `2 a` and `2 a + 1` (R60); which of them holds bits 15:8 is
"the platform's affair, invisible to PTE" (log entry 4). -/

namespace Sys2Proof.Machine

/-- What a byte nothing has written reads as (log entry 5: DESIGN CHOICE). -/
def Memory.background : Byte := 0

/-- The byte at a byte address. -/
def Memory.readByte : List Host.Cell → Nat → Byte
  | [], _ => Memory.background
  | (b, v) :: m, a => if a = b then v else Memory.readByte m a

/-- The memory with one byte replaced; the entry is listed in address order, and removed when it
would equal what an unlisted byte reads as. -/
def Memory.writeByte : List Host.Cell → Nat → Byte → List Host.Cell
  | [], a, v => if v = Memory.background then [] else [(a, v)]
  | (b, u) :: m, a, v =>
    if a < b then (if v = Memory.background then (b, u) :: m else (a, v) :: (b, u) :: m)
    else if a = b then (if v = Memory.background then m else (a, v) :: m)
    else (b, u) :: Memory.writeByte m a v

/-- The canonical form: addresses strictly rising, no entry equal to the background. -/
def Memory.wf : List Host.Cell → Bool
  | [] => true
  | (_, v) :: [] => v != Memory.background
  | (a, v) :: (b, u) :: m => v != Memory.background && decide (a < b) && Memory.wf ((b, u) :: m)

/-- `MemRead(a, 2)` of a valid address (R61). -/
def Memory.readCell (m : List Host.Cell) (a : Nat) : Pixel :=
  Memory.readByte m (2 * a + 1) ++ Memory.readByte m (2 * a)

/-- `MemWrite(a, 2, v)` at a valid address (R61). -/
def Memory.writeCell (m : List Host.Cell) (a : Nat) (v : Pixel) : List Host.Cell :=
  Memory.writeByte (Memory.writeByte m (2 * a) (v.extractLsb' 0 8)) (2 * a + 1) (v.extractLsb' 8 8)

/-- The `n` cells from pixel address `a`, in order (R60). -/
def Memory.readCells (m : List Host.Cell) (a n : Nat) : List Pixel :=
  (List.range n).map fun k => Memory.readCell m (a + k)

/-- The first pixel address of the run of `n` from `a` that does not exist, if any (R61, R66). -/
def firstInvalid (p : Params) (a n : Nat) : Option Nat :=
  ((List.range n).map fun k => a + k).find? fun b => !p.pmemValid b

end Sys2Proof.Machine
end

