-- ==== Sys2Proof/Machine/Operands.lean ====
section
/-! DEFINITION. Operand assembly and the operand latch (spec/30_encoding.md R96, 10_state.md R23),
batch arithmetic (41_sync_push.md R151) and the effective addresses (42_dma_engine.md R192). -/

namespace Sys2Proof.Machine

/-- `sext` of a signed operand to the integers (R96). -/
abbrev signed (v : Word) : Int := v.toInt

/-- The latch after a command was accepted: its opcode and its operands; fields the command does
not have keep their values, which no rule reads (10_state.md R23; log entry 8). -/
def latch (i : Instr) (o : Opr) : Opr :=
  let o := { o with opcode := i.opcode.code }
  match i with
  | .pushBlock color count => { o with color := color, count := count }
  | .pushPixels src len => { o with src := src, len := len }
  | .pushSwapPixels src len => { o with src := src, len := len }
  | .setSwap flag => { o with flag := flag }
  | .initDma => o
  | .deinitDma => o
  | .dmaBusy => o
  | .dmaWait => o
  | .pushPixelsDma src len => { o with src := src, len := len }
  | .pushImageDma hasStg x y w h img stg =>
    { o with hasStg := hasStg, x := x, y := y, w := w, h := h, img := img, stg := stg }

/-- The bit-length value of a transfer of `n` pixels, `n * BPP - 1` (41_sync_push.md R143). -/
def transferLen (f : ColorFmt) (n : Nat) : BitVec 9 := BitVec.ofNat 9 (n * f.bpp - 1)

/-- The pixel address of a sequence's element `i` (R146). -/
def seqAddr (a i : Nat) : Nat := a + i

/-- The staging copy's read address `img + (dy + yy) * w + dx + xx` (R192). -/
def imageAddr (img w dx dy xx yy : Nat) : Nat := img + (dy + yy) * w + dx + xx

/-- The staging copy's write address `buf + yy * w' + xx` (R192). -/
def stagingAddr (buf w' xx yy : Nat) : Nat := buf + yy * w' + xx

end Sys2Proof.Machine
end

