-- ==== Sys2Proof/Machine/Packer.lean ====
section
/-! DEFINITION. The pixel packer (spec/40_pixel_packer.md R120 to R130): a pure function of the
pixel, the swap bit and the configuration. -/

namespace Sys2Proof.Machine

/-- `swap16(p) = (p[7:0] << 8) | p[15:8]` (R122). -/
def swap16 (p : Pixel) : Pixel :=
  ((p.extractLsb' 0 8).setWidth 16 <<< 8) ||| (p.extractLsb' 8 8).setWidth 16

/-- `val(p, s)` (R122). -/
def swapVal (p : Pixel) (s : Bool) : Pixel := if s then swap16 p else p

/-- Bits 15:8 of a pixel. -/
def hiByte (p : Pixel) : Byte := p.extractLsb' 8 8

/-- Bits 7:0 of a pixel. -/
def loByte (p : Pixel) : Byte := p.extractLsb' 0 8

/-- The byte of an RGB565 pixel that goes first (R123). -/
def first565 (nf : NativeFirst) (p : Pixel) (s : Bool) : Byte :=
  match nf with
  | .hi => hiByte (swapVal p s)
  | .lo => loByte (swapVal p s)

/-- The byte of an RGB565 pixel that goes second (R123). -/
def second565 (nf : NativeFirst) (p : Pixel) (s : Bool) : Byte :=
  match nf with
  | .hi => loByte (swapVal p s)
  | .lo => hiByte (swapVal p s)

/-- `bytes565(p, s)` (R123). -/
def bytes565 (nf : NativeFirst) (p : Pixel) (s : Bool) : List Byte :=
  [first565 nf p s, second565 nf p s]

/-- `half565(p, s) = b0 | (b1 << 8)` (R124). -/
def half565 (nf : NativeFirst) (p : Pixel) (s : Bool) : BitVec 16 :=
  (first565 nf p s).setWidth 16 ||| ((second565 nf p s).setWidth 16 <<< 8)

/-- `word565(pa, pb, s)` (R124). -/
def word565 (nf : NativeFirst) (pa pb : Pixel) (s : Bool) : Word :=
  (half565 nf pa s).setWidth 32 ||| ((half565 nf pb s).setWidth 32 <<< 16)

/-- `R5(p) = p[15:11]` (R121). -/
def red5 (p : Pixel) : BitVec 5 := p.extractLsb' 11 5

/-- `G6(p) = p[10:5]` (R121). -/
def green6 (p : Pixel) : BitVec 6 := p.extractLsb' 5 6

/-- `B5(p) = p[4:0]` (R121). -/
def blue5 (p : Pixel) : BitVec 5 := p.extractLsb' 0 5

/-- `R8(q) = R5(q) << 3` (R125). -/
def red8 (q : Pixel) : Byte := (red5 q).setWidth 8 <<< 3

/-- `G8(q) = G6(q) << 2` (R125). -/
def green8 (q : Pixel) : Byte := (green6 q).setWidth 8 <<< 2

/-- `B8(q) = B5(q) << 3` (R125). -/
def blue8 (q : Pixel) : Byte := (blue5 q).setWidth 8 <<< 3

/-- `bytes666(p, s)` (R125). -/
def bytes666 (p : Pixel) (s : Bool) : List Byte :=
  [red8 (swapVal p s), green8 (swapVal p s), blue8 (swapVal p s)]

/-- `Rw` (R126). -/
def redLane (q : Pixel) : Word := (red8 q).setWidth 32

/-- `Gw` (R126). -/
def greenLane (q : Pixel) : Word := (green8 q).setWidth 32 <<< 8

/-- `Bw` (R126). -/
def blueLane (q : Pixel) : Word := (blue8 q).setWidth 32 <<< 16

/-- `r0` (R127). -/
def group0 (p : Pixel) (s : Bool) : Word :=
  (redLane (swapVal p s) <<< 24) ||| blueLane (swapVal p s) ||| greenLane (swapVal p s)
    ||| redLane (swapVal p s)

/-- `r1` (R127). -/
def group1 (p : Pixel) (s : Bool) : Word :=
  (group0 p s >>> 8) ||| (greenLane (swapVal p s) <<< 16)

/-- `r2` (R127). -/
def group2 (p : Pixel) (s : Bool) : Word :=
  (group1 p s >>> 8) ||| (blueLane (swapVal p s) <<< 8)

/-- `group666(p, s) = [r0, r1, r2]` (R127). -/
def group666 (p : Pixel) (s : Bool) : List Word := [group0 p s, group1 p s, group2 p s]

/-- `word666(p, s) = Rw | Gw | Bw` (R129). -/
def word666 (p : Pixel) (s : Bool) : Word :=
  redLane (swapVal p s) ||| greenLane (swapVal p s) ||| blueLane (swapVal p s)

/-- `pack(p, s)` (R130). -/
def pack (c : Params) (p : Pixel) (s : Bool) : List Byte :=
  match c.colorFmt with
  | .rgb565 => bytes565 c.nativeFirst p s
  | .rgb666 => bytes666 p s

/-- Byte lane `k` of a word, `w[8 k + 7 : 8 k]` (43_bus_agents.md R214). -/
def lane (w : Word) (k : Nat) : Byte := w.extractLsb' (8 * k) 8

/-- `range(s, e)`, big-endian, both ends as 16-bit values (42_dma_engine.md R187). -/
def rangeBytes (s e : Nat) : List Byte :=
  [hiByte (BitVec.ofNat 16 s), loByte (BitVec.ofNat 16 s),
   hiByte (BitVec.ofNat 16 e), loByte (BitVec.ofNat 16 e)]

end Sys2Proof.Machine
end

