-- ==== Sys2Proof/Machine/Ops.lean ====
section
/-! DEFINITION. The named operations over the state: the bus primitives and the agents' steps
(spec/43_bus_agents.md), the fatal fault (60_exceptions.md R233) and reset, the only way out of it
(70_reset_and_hazards.md R260), the drain (42_dma_engine.md R176), and the execution of an
operation's lines, one at a time or to the end. -/

namespace Sys2Proof.Machine

/-- What a step answers. -/
abbrev Result := Host.Outcome State Fault Refusal

/-! ## The fatal fault and reset -/

/-- The fatal causes (60_exceptions.md R232). -/
inductive Cause where
  | acquireFail | queueFault | illegalCmd
  deriving DecidableEq, Repr

/-- The code a cause has in `FAULT_CAUSE` (R232). -/
def Cause.code : Cause → BitVec 2
  | .acquireFail => 1
  | .queueFault => 2
  | .illegalCmd => 3

/-- `raise Fatal(cause)`, the only trap entry (R233). -/
def raiseFatal (c : Cause) (s : State) : State :=
  { s with fatal := true, faultCause := c.code, eng := .halt }

/-- Reset asserted and released (70_reset_and_hazards.md R260, R261): every element as after
reset, `PMEM` and the configuration unchanged; the words the host has issued and the environment's
plan are not PTE's and stay (log entry 19). -/
def resetFrom (s : State) : State :=
  { State.resetWith s.cfg with
    pmem := s.pmem, port := s.port, rdata := s.rdata, mdata := s.mdata, sched := s.sched,
    acqIn := s.acqIn, qIn := s.qIn, draws := s.draws }

/-! ## The environment's answers (10_state.md R44) -/

/-- One sample of `ACQ_OK`: the next listed answer, or a free value once none is listed. -/
def drawAcq (s : State) : Bool × State :=
  match s.acqIn with
  | b :: rest => (b, { s with acqIn := rest })
  | [] => (Config.acqOk s.draws, { s with draws := s.draws + 1 })

/-- One sample of `Q_OK`. -/
def drawQ (s : State) : Bool × State :=
  match s.qIn with
  | b :: rest => (b, { s with qIn := rest })
  | [] => (Config.qOk s.draws, { s with draws := s.draws + 1 })

/-! ## Memory accesses (20_memory.md R61) -/

/-- `MemRead(a, 2)`; `none` where the address does not exist. -/
def memRead (s : State) (a : Nat) : Option Pixel :=
  if s.cfg.pmemValid a then some (Memory.readCell s.pmem a) else none

/-- `MemWrite(a, 2, v)`; `none` where the address does not exist. -/
def memWrite (s : State) (a : Nat) (v : Pixel) : Option State :=
  if s.cfg.pmemValid a then some { s with pmem := Memory.writeCell s.pmem a v } else none

/-! ## The wire, the serial bus unit, the parallel bus unit -/

/-- `emit(dc, b)` for each byte in order, at the level `DC` has (00_scope.md R11). -/
def emit (s : State) (bs : List Byte) : State :=
  { s with wire := s.wire ++ bs.map fun b => (s.dc, b) }

/-- Byte `k` of the register file as the SBU shifts it out: lane `k mod 4` of `W[k div 4]`
(43_bus_agents.md R214). -/
def fifoByte (w : Vector Word 16) (k : Nat) : Byte :=
  lane (w[k / 4]?.getD 0) (k % 4)

/-- The whole bytes of a transfer, `nb = (BITLEN + 1) div 8` of them (R214). -/
def shiftedBytes (s : State) : List Byte :=
  (List.range ((s.bitlen.toNat + 1) / 8)).map (fifoByte s.w)

/-- The SBU's step, enabled exactly when `BUSY = 1` (R214); it covers whole bytes only (U23). -/
def sbuStep (s : State) : Result :=
  if s.busy = false then .next s
  else if (s.bitlen.toNat + 1) % 8 ≠ 0 then .refused .partialByte
  else .next { emit s (shiftedBytes s) with busy := false }

/-- `W[i] <- v` (R211). -/
def setReg (s : State) (i : Nat) (v : Word) : State :=
  { s with w := s.w.setIfInBounds i v }

/-- `spiStartTransfer()` (R213). -/
def startTransfer (s : State) : State :=
  { s with busy := true, xlog := s.xlog ++ [s.bitlen] }

/-- The end of the strobe pulse: `WR <- 1`, and the byte on the data lines has moved (R218). -/
def strobeEnd (s : State) : State :=
  { emit s [s.data] with wr := true }

/-! ## The DMA controller -/

/-- The DMAC's step is enabled (R221); it acts only while `DMA_EN = 1` (R219). -/
def dmacReady (s : State) : Bool :=
  decide (s.queue ≠ []) && !s.fatal && s.dmaEn && !(decide (s.cfg.busMode = .serial) && s.busy)

/-- The bytes a transaction moves: its own, or its cells through the packer with swap bit 0 (R221). -/
def txBytes (c : Params) (m : List Host.Cell) : Body → List Byte
  | .inline bytes => bytes
  | .payload addr npix => (Memory.readCells m addr npix).flatMap fun p => pack c p false

/-- The first pixel address a transaction needs that does not exist, if any (R61). -/
def txInvalid (c : Params) : Body → Option Nat
  | .inline _ => none
  | .payload addr npix => firstInvalid c addr npix

/-- A transaction performed: the callback drives `DC`, the bytes move, one completion is reported
(R221). -/
def performTx (t : Transaction) (s : State) : State :=
  let s1 := emit { s with dc := t.tag } (txBytes s.cfg s.pmem t.body)
  { s1 with compl := s.compl ++ [t], nperf := s.nperf + 1 }

/-- The DMAC's step (R221); a payload with an address that does not exist leaves it stuck (R61). -/
def dmacStep (s : State) : Result :=
  if dmacReady s then
    match s.queue with
    | [] => .next s
    | t :: rest =>
      match txInvalid s.cfg t.body with
      | some a => .fault (.dmacStuckAt a)
      | none => .next (performTx t { s with queue := rest })
  else .next s

/-- `queueTransaction` answering ok, in a queue that has room (R220). -/
def appendTx (t : Transaction) (s : State) : State :=
  { s with queue := s.queue ++ [t] }

/-- One completion taken by a drain: the head of `COMPL` removed, `PENDING` lowered by one (R222;
42_dma_engine.md R176). -/
def takeCompletion (s : State) : State :=
  { s with compl := s.compl.tail, pending := s.pending - 1 }

/-! ## The lines of an operation -/

/-- How a line ends: the next state, or the run stops with an outcome. -/
inductive Flow where
  | go (s : State)
  | stop (r : Result)

/-- A line that writes a serial bus register: defined with `BUSY = 0` only (R211 to R213, U7). -/
def whenFree (s : State) (t : State) : Flow :=
  if s.busy then .stop (.refused .primitiveWhileBusy) else .go t

/-- `ok = sample ACQ_OK`, then the fault or the binding (42_dma_engine.md R171). -/
def acquireBus (s : State) : State :=
  let d := drawAcq s
  if d.1 then { d.2 with qHandle := some (), dmaEn := true } else raiseFatal .acquireFail d.2

/-- `queue_tx(t)` (R177): the answer is sampled; a fault of the controller is fatal, an ok needs
room in the queue (43_bus_agents.md R220, U19). -/
def queueTx (t : Transaction) (s : State) : Flow :=
  let d := drawQ s
  if d.1 = true ∧ s.cfg.queueDepth ≤ s.queue.length then .stop (.refused .queueFull)
  else .go (if d.1 then appendTx t d.2 else raiseFatal .queueFault d.2)

/-- The effect of one line, the condition it waits for being met. -/
def act (op : MicroOp) (s : State) : Flow :=
  match op with
  | .waitIdle => .go s
  | .loadReg i v => whenFree s (setReg s i v)
  | .loadPair i a sw =>
    match memRead s a, memRead s (a + 1) with
    | some pa, some pb => whenFree s (setReg s i (word565 s.cfg.nativeFirst pa pb sw))
    | none, _ => .stop (.fault (.engineStuckAt a))
    | some _, none => .stop (.fault (.engineStuckAt (a + 1)))
  | .loadHalf i a sw =>
    match memRead s a with
    | some pa => whenFree s (setReg s i ((half565 s.cfg.nativeFirst pa sw).setWidth 32))
    | none => .stop (.fault (.engineStuckAt a))
  | .fetchPixel a =>
    match memRead s a with
    | some p => .go { s with loc := p }
    | none => .stop (.fault (.engineStuckAt a))
  | .loadPixel sw => whenFree s (setReg s 0 (word666 s.loc sw))
  | .setBitlen v => whenFree s { s with bitlen := v }
  | .startTransfer => whenFree s (startTransfer s)
  | .driveByte b => .go { s with data := b }
  | .drivePixelByte k sw => .go { s with data := (pack s.cfg s.loc sw)[k]?.getD 0 }
  | .strobeLow => .go { s with wr := false }
  | .strobeHigh => .go (strobeEnd s)
  | .drain => .go s
  | .copyCell src dst sw =>
    match memRead s src with
    | some v =>
      match memWrite s dst (swapVal v sw) with
      | some t => .go t
      | none => .stop (.fault (.engineStuckAt dst))
    | none => .stop (.fault (.engineStuckAt src))
  | .clearNperf => .go { s with nperf := 0 }
  | .queueTx t => queueTx t s
  | .setPending n => .go { s with pending := n }
  | .acquire => .go (acquireBus s)
  | .release => .go { s with qHandle := none, dmaEn := false }
  | .writeSwap v => .go { s with swap := v }

/-- The engine can take no step: the line's wait condition does not hold (60_exceptions.md R238). -/
def blocked (op : MicroOp) (s : State) : Bool :=
  match op with
  | .waitIdle => s.busy
  | .drain => decide (s.pending ≠ 0) && decide (s.compl = [])
  | _ => false

/-- The step of another agent that a blocked drain waits for (43_bus_agents.md R221, R224): the
DMAC's, after the SBU's where a transfer in progress holds the serial bus; the drain never ends
when neither is enabled (70_reset_and_hazards.md R279). -/
def helpDrain (s : State) : Result :=
  if decide (s.cfg.busMode = .serial) && s.busy then sbuStep s
  else if dmacReady s then dmacStep s
  else .fault .drainNeverEnds

/-- `awaitCompletion` blocks until `COMPL != []` (R222): the state once an event is there. -/
def awaitEvent (s : State) : Result :=
  if s.compl ≠ [] then .next s
  else if decide (s.cfg.busMode = .serial) && s.busy then
    match sbuStep s with
    | .next s1 => helpDrain s1
    | .fault f => .fault f
    | .refused r => .refused r
  else helpDrain s

/-- `drain()` with `n` events to take (42_dma_engine.md R176). -/
def drainLoop : Nat → State → Result
  | 0, s => .next s
  | n + 1, s =>
    match awaitEvent s with
    | .next s1 => drainLoop n (takeCompletion s1)
    | .fault f => .fault f
    | .refused r => .refused r

/-- A line's wait, the other agents stepping as far as it needs (R224: they do step). -/
def settle (op : MicroOp) (s : State) : Result :=
  match op with
  | .waitIdle => sbuStep s
  | .drain => drainLoop s.pending.toNat s
  | _ => .next s

/-- The engine has halted. -/
def halted (s : State) : Bool := decide (s.eng = .halt)

/-- `return v`, `return` or `no-op` (30_encoding.md R93); an operation that raised the fatal fault
does not complete. -/
def complete (ret : Option Bool) (s : State) : State :=
  if halted s then s
  else { s with result := ret.getD s.result, eng := .idle, done := true }

/-- One line executed, its wait included; an engine that has halted executes nothing (10_state.md
R24). -/
def runLine (op : MicroOp) (s : State) : Flow :=
  if halted s then .go s
  else
    match settle op s with
    | .next s1 => act op s1
    | .fault f => .stop (.fault f)
    | .refused r => .stop (.refused r)

/-- Lines executed one after another. -/
def runLines : List MicroOp → State → Flow
  | [], s => .go s
  | op :: ops, s =>
    match runLine op s with
    | .go s1 => runLines ops s1
    | .stop r => .stop r

/-- The lines of an operation executed to the end, and its return. -/
def runOps (ops : List MicroOp) (ret : Option Bool) (s : State) : Result :=
  match runLines ops s with
  | .go s1 => .next (complete ret s1)
  | .stop r => r

/-- One step of the engine (10_state.md R24): a blocked line polls, a drain takes one event, any
other line is executed, and when none is left the operation completes. -/
def engineStep (s : State) : Result :=
  match s.eng with
  | .run k (op :: ops) ret =>
    if blocked op s then .next s
    else if decide (op = .drain) && decide (s.pending ≠ 0) then .next (takeCompletion s)
    else
      match act op s with
      | .go s1 => .next (if halted s1 then s1 else { s1 with eng := .run (k + 1) ops ret })
      | .stop r => r
  | .run _ [] ret => .next (complete ret s)
  | .idle => .next s
  | .halt => .next s

/-- Whichever agent an operation in progress needs next takes its step. -/
def progressStep (s : State) : Result :=
  match s.eng with
  | .run _ (.waitIdle :: _) _ => if s.busy then sbuStep s else engineStep s
  | .run _ (.drain :: _) _ => if blocked .drain s then helpDrain s else engineStep s
  | _ => engineStep s

/-! ## Starting an operation -/

/-- What an operation is to do, decided by the tests its pseudocode makes first. -/
inductive Plan where
  /-- The lines to execute and the value to return. -/
  | run (ops : List MicroOp) (ret : Option Bool)
  /-- A situation the spec gives the model no move for. -/
  | refuse (r : Refusal)
  deriving DecidableEq, Repr

/-- A silent no-op (60_exceptions.md R237): no line, no value. -/
def Plan.noOp : Plan := .run [] none

/-- The engine accepts a command: the latch, `RUN(0)`, `CMD_READY` falls (30_encoding.md R92). -/
def beginOp (i : Instr) (ops : List MicroOp) (ret : Option Bool) (s : State) : State :=
  { s with opr := latch i s.opr, eng := .run 0 ops ret, done := false }

/-- A command taken and executed to its end; taken only with `ENG = IDLE` (R92). -/
def perform (i : Instr) (p : Plan) (s : State) : Result :=
  if s.eng = .idle then
    match p with
    | .run ops ret => runOps ops ret (beginOp i ops ret s)
    | .refuse r => .refused r
  else .next s

/-- A command taken, the engine then at `RUN(0)` (R92). -/
def acceptPlan (i : Instr) (p : Plan) (s : State) : Result :=
  if s.eng = .idle then
    match p with
    | .run ops ret => .next (beginOp i ops ret s)
    | .refuse r => .refused r
  else .next s

end Sys2Proof.Machine
end

