-- ==== Sys2Proof/Machine/Window.lean ====
section
/-! DEFINITION. The window clipper, the staging unit and the six transactions of a window
(spec/42_dma_engine.md R183 to R188). -/

namespace Sys2Proof.Machine

/-- What `clip` returns (R183), on the integers. -/
structure Clipped where
  x  : Int
  y  : Int
  w  : Int
  h  : Int
  dx : Int
  dy : Int
  deriving DecidableEq, Repr

/-- One axis of `clip` (R183): the origin, the extent and the source offset, given the display
extent; the two axes are independent. -/
def clipAxis (x w bound : Int) : Int × Int × Int :=
  let dx := if x < 0 then -x else 0
  let w1 := if x < 0 then w + x else w
  let x1 := if x < 0 then 0 else x
  let w2 := if x1 + w1 > bound then bound - x1 else w1
  (x1, w2, dx)

/-- `clip(x, y, w, h)` (R183). -/
def clip (c : Params) (x y w h : Int) : Clipped :=
  let a := clipAxis x w c.dispW
  let b := clipAxis y h c.dispH
  ⟨a.1, b.1, a.2.1, b.2.1, a.2.2, b.2.2⟩

/-- Step 1: the origin lies entirely outside the display (R182). -/
def originOutside (c : Params) (x y : Int) : Bool :=
  decide ((c.dispW : Int) ≤ x) || decide ((c.dispH : Int) ≤ y)

/-- Step 2: the clipped extent is empty (R182). -/
def emptyExtent (k : Clipped) : Bool := decide (k.w < 1) || decide (k.h < 1)

/-- The staging copy of a clipped window, row by row in ascending element order (R186). -/
def stageClippedOps (img buf w : Nat) (k : Clipped) (sw : Bool) : List MicroOp :=
  (List.range k.h.toNat).flatMap fun yy =>
    (List.range k.w.toNat).map fun xx =>
      .copyCell (imageAddr img w k.dx.toNat k.dy.toNat xx yy) (stagingAddr buf k.w.toNat xx yy) sw

/-- The staging copy of a whole image (R186). -/
def stageWholeOps (img buf n : Nat) (sw : Bool) : List MicroOp :=
  (List.range n).map fun i => .copyCell (img + i) (buf + i) sw

/-- `stage(img, buf, w, h, w', h', dx, dy, s)` (R186). -/
def stageOps (img buf w h : Nat) (k : Clipped) (sw : Bool) : List MicroOp :=
  if k.w ≠ w ∨ k.h ≠ h then stageClippedOps img buf w k sw
  else if buf ≠ img ∨ sw = true then stageWholeOps img buf (w * h) sw
  else []

/-- A one-byte display command (R184). -/
def commandTx (b : Byte) : Transaction := ⟨.cmd, .inline [b], 8⟩

/-- An address range (R184, R187). -/
def rangeTx (s e : Nat) : Transaction := ⟨.data, .inline (rangeBytes s e), 32⟩

/-- A pixel payload (R181, R184). -/
def payloadTx (f : ColorFmt) (addr npix : Nat) : Transaction :=
  ⟨.data, .payload addr npix, npix * f.bpp⟩

/-- `window_tx(x', y', w', h', buf)`, the six transactions in strict order (R184). -/
def windowTx (f : ColorFmt) (x y w h buf : Nat) : List Transaction :=
  [commandTx 0x2A, rangeTx x (x + w - 1), commandTx 0x2B, rangeTx y (y + h - 1),
   commandTx 0x2C, payloadTx f buf (w * h)]

end Sys2Proof.Machine
end

