-- ==== Sys2Proof/Machine/DmaEngine.lean ====
section
/-! DEFINITION. `INITDMA`, `DEINITDMA`, `DMABUSY`, `DMAWAIT`, `PUSHPIXELSDMA`, `PUSHIMAGEDMA`
(spec/42_dma_engine.md). -/

namespace Sys2Proof.Machine

/-- `INITDMA` (R171): the already-initialised test comes first. -/
def planInitDma (s : State) : Plan :=
  if s.dmaEn then .run [] (some false) else .run [.acquire] (some true)

/-- `DEINITDMA` (R173). -/
def planDeinitDma (s : State) : Plan :=
  if s.dmaEn = false then .noOp else .run [.drain, .release] none

/-- `DMABUSY` (R175; 90_conflicts.md C2). -/
def planDmaBusy (_ : State) : Plan := .run [.drain] (some false)

/-- `DMAWAIT` (R174). -/
def planDmaWait (_ : State) : Plan := .run [.drain] none

/-- `PUSHPIXELSDMA` (R181): the no-op tests come before the drain; a length the caller may not ask
for is refused where the transaction would be queued (R180, U3). -/
def planPushPixelsDma (src len : Word) (s : State) : Plan :=
  if s.dmaEn = false ∨ len = 0 then .noOp
  else if 32768 ≤ len.toNat then .refuse .lengthLimit
  else .run [.drain, .clearNperf, .queueTx (payloadTx s.cfg.colorFmt src.toNat len.toNat),
    .setPending 1] none

/-- The buffer a window is staged in: the one supplied, else the image itself (R182). -/
def stagingBuffer (hasStg : Bool) (img stg : Word) : Nat :=
  if hasStg then stg.toNat else img.toNat

/-- The lines of `PUSHIMAGEDMA` from step 3 on (R182). -/
def windowOps (c : Params) (k : Clipped) (img buf w h : Nat) (sw : Bool) : List MicroOp :=
  [.drain] ++ stageOps img buf w h k sw ++ [.clearNperf]
    ++ (windowTx c.colorFmt k.x.toNat k.y.toNat k.w.toNat k.h.toNat buf).map .queueTx
    ++ [.setPending 6]

/-- `PUSHIMAGEDMA` (R182): steps 1 and 2 reject before anything else; an area the caller may not
ask for is refused where the window would be carried out (R180, U3). -/
def planPushImageDma (hasStg : Bool) (x y w h img stg : Word) (s : State) : Plan :=
  let k := clip s.cfg (signed x) (signed y) w.toNat h.toNat
  if s.dmaEn = false then .noOp
  else if originOutside s.cfg (signed x) (signed y) then .noOp
  else if emptyExtent k then .noOp
  else if 65536 ≤ w.toNat * h.toNat then .refuse .areaLimit
  else .run (windowOps s.cfg k img.toNat (stagingBuffer hasStg img stg) w.toNat h.toNat s.swap) none

/-- The meaning of `INITDMA` (R171). -/
def execInitDma (s : State) : Result := perform .initDma (planInitDma s) s

/-- The meaning of `DEINITDMA` (R173). -/
def execDeinitDma (s : State) : Result := perform .deinitDma (planDeinitDma s) s

/-- The meaning of `DMABUSY` (R175). -/
def execDmaBusy (s : State) : Result := perform .dmaBusy (planDmaBusy s) s

/-- The meaning of `DMAWAIT` (R174). -/
def execDmaWait (s : State) : Result := perform .dmaWait (planDmaWait s) s

/-- The meaning of `PUSHPIXELSDMA src, len` (R181). -/
def execPushPixelsDma (src len : Word) (s : State) : Result :=
  perform (.pushPixelsDma src len) (planPushPixelsDma src len s) s

/-- The meaning of `PUSHIMAGEDMA x, y, w, h, img[, stg]` (R182). -/
def execPushImageDma (hasStg : Bool) (x y w h img stg : Word) (s : State) : Result :=
  perform (.pushImageDma hasStg x y w h img stg) (planPushImageDma hasStg x y w h img stg s) s

end Sys2Proof.Machine
end

