-- ==== Sys2Proof/Machine/SyncPush.lean ====
section
/-! DEFINITION. `PUSHBLOCK`, `PUSHPIXELS`, `PUSHSWAPPIXELS`, `SETSWAP` (spec/41_sync_push.md). -/

namespace Sys2Proof.Machine

/-- DMA transactions are outstanding (70_reset_and_hazards.md R271, U4). -/
def dmaOutstanding (s : State) : Bool :=
  decide (s.queue ≠ []) || decide (0 < s.pending.toNat)

/-- One transfer of the registers as they stand (41_sync_push.md R143): wait, `BITLEN`, start, wait. -/
def transferOps (v : BitVec 9) : List MicroOp :=
  [.waitIdle, .setBitlen v, .startTransfer, .waitIdle]

/-- One byte over the parallel bus, `par_write(b)` (43_bus_agents.md R217, R218). -/
def parWriteOps (b : Byte) : List MicroOp := [.driveByte b, .strobeLow, .strobeHigh]

/-- The sixteen registers of RGB565, or the fifteen of RGB666, with a colour's pattern (R143). -/
def blockLoadOps (c : Params) (color : Pixel) : List MicroOp :=
  match c.colorFmt with
  | .rgb565 =>
    (List.range 16).map fun i => .loadReg i (word565 c.nativeFirst color color false)
  | .rgb666 =>
    (List.range 5).flatMap fun g =>
      [.loadReg (3 * g) (group0 color false), .loadReg (3 * g + 1) (group1 color false),
       .loadReg (3 * g + 2) (group2 color false)]

/-- `PUSHBLOCK` in serial mode, `n` pixels (R143). -/
def blockSerialOps (c : Params) (color : Pixel) (n : Nat) : List MicroOp :=
  [.waitIdle] ++ blockLoadOps c color
    ++ (List.replicate (n / c.colorFmt.batch)
          (transferOps (transferLen c.colorFmt c.colorFmt.batch))).flatten
    ++ (if n % c.colorFmt.batch = 0 then []
        else transferOps (transferLen c.colorFmt (n % c.colorFmt.batch)))

/-- `PUSHBLOCK` in parallel mode, `n` pixels (R143; the shortcut of R145 is omitted, as it says). -/
def blockParallelOps (c : Params) (color : Pixel) (n : Nat) : List MicroOp :=
  (List.replicate n ((pack c color false).flatMap parWriteOps)).flatten

/-- The tests and the lines of `PUSHBLOCK` (R143). -/
def planPushBlock (color : Pixel) (count : Word) (s : State) : Plan :=
  if count = 0 then .noOp
  else if dmaOutstanding s then .refuse .syncPushUnderDma
  else
    match s.cfg.busMode with
    | .serial => .run (blockSerialOps s.cfg color count.toNat) none
    | .parallel => .run (blockParallelOps s.cfg color count.toNat) none

/-- The registers a batch of `k` pixels from element address `a` needs, two pixels a register, the
last one alone when `k` is odd (R146). -/
def batchLoadOps (a k : Nat) (sw : Bool) : List MicroOp :=
  (List.range (k / 2)).map (fun j => .loadPair j (a + 2 * j) sw)
    ++ (if k % 2 = 0 then [] else [.loadHalf (k / 2) (a + (k - 1)) sw])

/-- One RGB565 batch of `k` pixels (R146). -/
def batchOps (a k : Nat) (sw : Bool) : List MicroOp :=
  [.waitIdle] ++ batchLoadOps a k sw
    ++ [.setBitlen (transferLen .rgb565 k), .startTransfer, .waitIdle]

/-- A sequence in serial RGB565: batches of 32, then the rest (R146). -/
def seqSerial565Ops (a n : Nat) (sw : Bool) : List MicroOp :=
  (List.range (n / 32)).flatMap (fun i => batchOps (seqAddr a (32 * i)) 32 sw)
    ++ (if n % 32 = 0 then [] else batchOps (seqAddr a (32 * (n / 32))) (n % 32) sw)

/-- A sequence in serial RGB666: one 24-bit transfer a pixel (R146; 90_conflicts.md C3). -/
def seqSerial666Ops (a n : Nat) (sw : Bool) : List MicroOp :=
  (List.range n).flatMap fun i =>
    [.fetchPixel (seqAddr a i), .waitIdle, .loadPixel sw, .setBitlen 23, .startTransfer, .waitIdle]

/-- A sequence over the parallel bus, `BPP / 8` bytes a pixel (R146). -/
def seqParallelOps (c : Params) (a n : Nat) (sw : Bool) : List MicroOp :=
  (List.range n).flatMap fun i =>
    .fetchPixel (seqAddr a i) ::
      (List.range (c.colorFmt.bpp / 8)).flatMap fun k =>
        [.drivePixelByte k sw, .strobeLow, .strobeHigh]

/-- The lines of `pushseq(a, n, s)` (R146). -/
def pushSeqOps (c : Params) (a n : Nat) (sw : Bool) : List MicroOp :=
  match c.busMode, c.colorFmt with
  | .serial, .rgb565 => seqSerial565Ops a n sw
  | .serial, .rgb666 => seqSerial666Ops a n sw
  | .parallel, _ => seqParallelOps c a n sw

/-- The tests and the lines of `pushseq` (R146). -/
def planPushSeq (src len : Word) (sw : Bool) (s : State) : Plan :=
  if len = 0 then .noOp
  else if dmaOutstanding s then .refuse .syncPushUnderDma
  else .run (pushSeqOps s.cfg src.toNat len.toNat sw) none

/-- `PUSHPIXELS`: the swap bit is `SWAP`, read when the operation starts (R146, 70 R275). -/
def planPushPixels (src len : Word) (s : State) : Plan := planPushSeq src len s.swap s

/-- `PUSHSWAPPIXELS`: the swap bit is 1 (R149). -/
def planPushSwapPixels (src len : Word) (s : State) : Plan := planPushSeq src len true s

/-- `SETSWAP` (R150). -/
def planSetSwap (flag : Bool) (_ : State) : Plan := .run [.writeSwap flag] none

/-- The meaning of `PUSHBLOCK color, count` (R143). -/
def execPushBlock (color : Pixel) (count : Word) (s : State) : Result :=
  perform (.pushBlock color count) (planPushBlock color count s) s

/-- The meaning of `PUSHPIXELS src, len` (R146). -/
def execPushPixels (src len : Word) (s : State) : Result :=
  perform (.pushPixels src len) (planPushPixels src len s) s

/-- The meaning of `PUSHSWAPPIXELS src, len` (R149). -/
def execPushSwapPixels (src len : Word) (s : State) : Result :=
  perform (.pushSwapPixels src len) (planPushSwapPixels src len s) s

/-- The meaning of `SETSWAP v` (R150). -/
def execSetSwap (flag : Bool) (s : State) : Result :=
  perform (.setSwap flag) (planSetSwap flag s) s

end Sys2Proof.Machine
end

