-- ==== Sys2Proof/Machine/Dispatch.lean ====
section
/-! DEFINITION. One arm per operation (spec/30_encoding.md R94). -/

namespace Sys2Proof.Machine

/-- The meaning of an operation: one direct call each. -/
def exec (i : Instr) (s : State) : Host.Outcome State Fault Refusal :=
  match i with
  | .pushBlock color count => Sys2Proof.Machine.execPushBlock color count s
  | .pushPixels src len => Sys2Proof.Machine.execPushPixels src len s
  | .pushSwapPixels src len => Sys2Proof.Machine.execPushSwapPixels src len s
  | .setSwap flag => Sys2Proof.Machine.execSetSwap flag s
  | .initDma => Sys2Proof.Machine.execInitDma s
  | .deinitDma => Sys2Proof.Machine.execDeinitDma s
  | .dmaBusy => Sys2Proof.Machine.execDmaBusy s
  | .dmaWait => Sys2Proof.Machine.execDmaWait s
  | .pushPixelsDma src len => Sys2Proof.Machine.execPushPixelsDma src len s
  | .pushImageDma hasStg x y w h img stg => Sys2Proof.Machine.execPushImageDma hasStg x y w h img stg s

end Sys2Proof.Machine
end

