-- ==== Sys2Proof/Machine/Moves.lean ====
section
/-! DEFINITION. The moves of the agents (spec/43_bus_agents.md R223; 70_reset_and_hazards.md R278)
and which one comes next. -/

namespace Sys2Proof.Machine

/-- What an operation is to do, for the move that only takes a command. -/
def planOf (i : Instr) (s : State) : Plan :=
  match i with
  | .pushBlock color count => planPushBlock color count s
  | .pushPixels src len => planPushPixels src len s
  | .pushSwapPixels src len => planPushSwapPixels src len s
  | .setSwap flag => planSetSwap flag s
  | .initDma => planInitDma s
  | .deinitDma => planDeinitDma s
  | .dmaBusy => planDmaBusy s
  | .dmaWait => planDmaWait s
  | .pushPixelsDma src len => planPushPixelsDma src len s
  | .pushImageDma hasStg x y w h img stg => planPushImageDma hasStg x y w h img stg s

/-- An illegal header taken: one word gone from the port, and the fatal fault
(60_exceptions.md R236). -/
def takeIllegal (s : State) : State :=
  raiseFatal .illegalCmd { s with port := s.port.tail }

/-- The engine takes the next command and executes it (30_encoding.md R92); nothing happens while
it is not ready or the command's words have not all been issued. -/
def takeCommand (s : State) : Result :=
  if s.eng = .idle then
    match decode s.port with
    | .instr i rest => exec i { s with port := rest }
    | .illegal _ => .next (takeIllegal s)
    | .more => .next s
  else .next s

/-- The engine takes the next command and is then at `RUN(0)` (R92). -/
def acceptCommand (s : State) : Result :=
  if s.eng = .idle then
    match decode s.port with
    | .instr i rest => acceptPlan i (planOf i s) { s with port := rest }
    | .illegal _ => .next (takeIllegal s)
    | .more => .next s
  else .next s

/-- No operation is in progress and no transaction is outstanding, so an agent outside PTE may
drive DC (70_reset_and_hazards.md R278, U14; log entry 16). -/
def linesFree (s : State) : Bool :=
  (match s.eng with
   | .run _ _ _ => false
   | .idle => true
   | .halt => true) && decide (s.queue = []) && !s.busy

/-- One move. -/
def moveStep (m : Move) (s : State) : Result :=
  match m with
  | .command => takeCommand s
  | .accept => acceptCommand s
  | .engine => engineStep s
  | .sbu => sbuStep s
  | .dmac => dmacStep s
  | .hostWord w => .next { s with port := s.port ++ [w] }
  | .hostRead a =>
    match memRead s a with
    | some v => .next { s with mdata := v }
    | none => .refused (.hostAddress a)
  | .hostWrite a v =>
    match memWrite s a v with
    | some t => .next t
    | none => .refused (.hostAddress a)
  | .statusRead off =>
    match statusReg s off with
    | some v => .next { s with rdata := v }
    | none => .refused (.noStatusRegister off)
  | .statusWrite _ _ => .next s
  | .outsideDc l => if linesFree s then .next { s with dc := l } else .refused .outsideDrive
  | .reset => .next (resetFrom s)

/-- Nothing for the engine to do: the SBU steps if a transfer is in progress, the DMAC if none is,
so that a step of either that stays enabled is taken (43_bus_agents.md R224). -/
def restStep (s : State) : Result := if s.busy then sbuStep s else dmacStep s

/-- The move made when the schedule lists none (log entry 10): an operation in progress goes on;
else a command that has been issued is taken; else the SBU or the DMAC steps. -/
def defaultStep (s : State) : Result :=
  match s.eng with
  | .idle => if decode s.port = .more then restStep s else takeCommand s
  | .run _ _ _ => progressStep s
  | .halt => restStep s

/-- One step of the machine: the pulse of `DONE` ends (30_encoding.md R90), and the next move of
the schedule is made. -/
def scheduledStep (s : State) : Result :=
  match s.sched with
  | [] => defaultStep { s with done := false }
  | m :: ms => moveStep m { s with done := false, sched := ms }

/-- The words of the command at the head of a list: a legal header with its operand words, an
illegal header alone (30_encoding.md R97, R98). -/
def commandWords (ws : List Word) : List Word :=
  match ws with
  | [] => []
  | w :: _ =>
    let h := Header.ofWord w
    if h.wellFormed then
      match Opcode.ofByte h.opc with
      | some op => ws.take (1 + op.format.operandWords)
      | none => [w]
    else [w]

/-- A command presented at the head of the command port, and the engine's move to take it. -/
def present (ws : List Word) (s : State) : State :=
  { s with port := commandWords ws ++ s.port, sched := .command :: s.sched }

end Sys2Proof.Machine
end

