-- ==== Sys2Proof/Machine/Step.lean ====
section
/-! DEFINITION. The step of the machine, and how an instruction is put where the next step takes it. -/

namespace Sys2Proof.Machine

/-- One step. -/
def step (s : State) : Host.Outcome State Fault Refusal := scheduledStep s

/-- The instruction a table number stands for, presented on the command port (log entry 18): the
very next step takes it. -/
def State.withFetchWord (s : State) (nbits w : Nat) : State := present (tableWords nbits w) s

end Sys2Proof.Machine
end

