-- ==== Sys2Proof/Safety.lean ====
section
/-! DEFINITION. What claims say of states and runs: the premises an operation needs, the invariant
of the machine (spec/10_state.md R49), the end of a run and the launch premises
(70_reset_and_hazards.md R279, R280). -/

namespace Sys2Proof.Machine

/-- Every cell of the run of `n` from pixel address `a` exists (20_memory.md R61). -/
def CellsValid (c : Params) (a n : Nat) : Prop := ∀ k, k < n → c.pmemValid (a + k) = true

/-- Nothing is in progress on the bus and nothing is outstanding: a synchronous push may start
(70_reset_and_hazards.md R271, 41_sync_push.md R142). -/
structure Quiet (s : State) : Prop where
  eng     : s.eng = .idle
  busy    : s.busy = false
  queue   : s.queue = []
  pending : s.pending = 0

/-- The counts an operation in progress leaves when its remaining lines are executed without a
fault: `p` is `PENDING`, `l` the number of transactions queued or reported, `busy`, `wr` and `en`
the flags. At the end they must be as R49 says of an idle engine; on the way a drain must find
`p = l`, a transaction and a count above 0 need `DMA_EN = 1`, and a release needs everything
drained. -/
def endsWell : List MicroOp → Nat → Nat → Bool → Bool → Bool → Bool
  | [], p, l, busy, wr, en =>
    decide (p = l) && decide (p = 0 ∨ p = 1 ∨ p = 6) && !busy && wr && (en || decide (p = 0))
  | op :: ops, p, l, busy, wr, en =>
    match op with
    | .waitIdle => endsWell ops p l false wr en
    | .startTransfer => endsWell ops p l true wr en
    | .strobeLow => endsWell ops p l busy false en
    | .strobeHigh => endsWell ops p l busy true en
    | .drain => decide (p = l) && endsWell ops 0 0 busy wr en
    | .queueTx _ => en && endsWell ops p (l + 1) busy wr en
    | .setPending n => (en || decide (n = 0)) && endsWell ops n.toNat l busy wr en
    | .acquire => endsWell ops p l busy wr true
    | .release => decide (p = 0) && decide (l = 0) && endsWell ops p l busy wr false
    | .loadReg _ _ => endsWell ops p l busy wr en
    | .loadPair _ _ _ => endsWell ops p l busy wr en
    | .loadHalf _ _ _ => endsWell ops p l busy wr en
    | .fetchPixel _ => endsWell ops p l busy wr en
    | .loadPixel _ => endsWell ops p l busy wr en
    | .setBitlen _ => endsWell ops p l busy wr en
    | .driveByte _ => endsWell ops p l busy wr en
    | .drivePixelByte _ _ => endsWell ops p l busy wr en
    | .copyCell _ _ _ => endsWell ops p l busy wr en
    | .clearNperf => endsWell ops p l busy wr en
    | .writeSwap _ => endsWell ops p l busy wr en

/-- The lines the engine has still to execute, `none` once it has halted. -/
def linesLeft (e : Eng) : Option (List MicroOp) :=
  match e with
  | .idle => some []
  | .run _ todo _ => some todo
  | .halt => none

/-- The invariant of the machine. For an idle engine its last clause is R49; for an operation in
progress it says that R49 will hold when the operation completes. -/
structure Inv (s : State) : Prop where
  /-- `PMEM` is in canonical form. -/
  memory   : Memory.wf s.pmem = true
  /-- The engine is halted exactly under the fatal fault (60_exceptions.md R233). -/
  halt     : s.fatal = true ↔ s.eng = .halt
  /-- `FAULT_CAUSE` is 0 exactly while `FATAL = 0` (10_state.md R27). -/
  cause    : s.faultCause = 0 ↔ s.fatal = false
  /-- The handle is bound exactly when `DMA_EN = 1` (R32). -/
  handle   : s.qHandle.isSome = s.dmaEn
  /-- Nothing is pending, queued or reported while `DMA_EN = 0` (R49). -/
  disabled : s.dmaEn = false → s.pending = 0 ∧ s.queue = [] ∧ s.compl = []
  /-- At most `QUEUE_DEPTH` entries are queued (R41). -/
  room     : s.queue.length ≤ s.cfg.queueDepth
  /-- The counts of R49 hold, or will when the operation in progress completes. -/
  counts   : ∀ todo, linesLeft s.eng = some todo →
    endsWell todo s.pending.toNat (s.queue.length + s.compl.length) s.busy s.wr s.dmaEn = true

/-! ## Runs: their end and their launch premises -/

/-- The machine at `s` comes to be at `t` after some number of steps. -/
def Reaches (s t : State) : Prop := ∃ n, Host.Core.run Sys2Proof.core n s = .next t

/-- The end of a run (70_reset_and_hazards.md R279): no word of the command stream is left, neither
issued (`port`) nor still to be issued (a move of the schedule), the last operation has completed,
no transfer and no transaction is left to perform, and no fault is recorded. -/
def RunOver (s : State) : Prop :=
  s.port = [] ∧ (∀ w, Move.hostWord w ∉ s.sched) ∧ s.eng = .idle ∧ s.busy = false ∧ s.queue = []
    ∧ s.fatal = false

/-- No fault is recorded, and every answer listed for the environment is ok. -/
def AnswersOk (s : State) : Prop :=
  s.fatal = false ∧ (∀ b ∈ s.acqIn, b = true) ∧ ∀ b ∈ s.qIn, b = true

/-- The next move of the schedule; with none listed a command that has been issued is taken (log
entry 10). -/
def nextMove (s : State) : Move := s.sched.head?.getD .command

/-- The operation the next step takes from the command port, if it takes one. -/
def nextCommand (s : State) : Option Instr :=
  if s.eng = .idle ∧ (nextMove s = .command ∨ nextMove s = .accept) then
    match decode s.port with
    | .instr i _ => some i
    | .illegal _ => none
    | .more => none
  else none

/-- The cells a line of an operation touches exist, the payload of a transaction it queues among
them (20_memory.md R61). -/
def lineValid (c : Params) (op : MicroOp) : Bool :=
  match op with
  | .loadPair _ a _ => c.pmemValid a && c.pmemValid (a + 1)
  | .loadHalf _ a _ => c.pmemValid a
  | .fetchPixel a => c.pmemValid a
  | .copyCell src dst _ => c.pmemValid src && c.pmemValid dst
  | .queueTx t => decide (txInvalid c t.body = none)
  | .waitIdle => true
  | .loadReg _ _ => true
  | .loadPixel _ => true
  | .setBitlen _ => true
  | .startTransfer => true
  | .driveByte _ => true
  | .drivePixelByte _ _ => true
  | .strobeLow => true
  | .strobeHigh => true
  | .drain => true
  | .clearNperf => true
  | .setPending _ => true
  | .acquire => true
  | .release => true
  | .writeSwap _ => true

/-- Every cell an operation touches exists (70_reset_and_hazards.md R280): no line of its plan names
a cell that does not. -/
def cellsTouchedExist (i : Instr) (s : State) : Bool :=
  match planOf i s with
  | .run ops _ => ops.all (lineValid s.cfg)
  | .refuse _ => true

/-- The preconditions of 42_dma_engine.md R180. -/
def withinLimits : Instr → Bool
  | .pushPixelsDma _ len => decide (len.toNat < 32768)
  | .pushImageDma _ _ _ w h _ _ => decide (w.toNat * h.toNat < 65536)
  | .pushBlock _ _ => true
  | .pushPixels _ _ => true
  | .pushSwapPixels _ _ => true
  | .setSwap _ => true
  | .initDma => true
  | .deinitDma => true
  | .dmaBusy => true
  | .dmaWait => true

/-- A synchronous push of pixels (41_sync_push.md R140). -/
def isSyncPush : Instr → Bool
  | .pushBlock _ _ => true
  | .pushPixels _ _ => true
  | .pushSwapPixels _ _ => true
  | .setSwap _ => false
  | .initDma => false
  | .deinitDma => false
  | .dmaBusy => false
  | .dmaWait => false
  | .pushPixelsDma _ _ => false
  | .pushImageDma _ _ _ _ _ _ _ => false

/-- The cell is one of a payload that no drain has taken yet: queued, or performed and reported
(70_reset_and_hazards.md R270). -/
def inPendingPayload (s : State) (a : Nat) : Bool :=
  (s.queue ++ s.compl).any fun t =>
    match t.body with
    | .inline _ => false
    | .payload addr npix => decide (addr ≤ a) && decide (a < addr + npix)

/-- The host's duties at the next step (70_reset_and_hazards.md R278): a synchronous push is not
issued with transactions outstanding (R271); a cell it reads or writes exists, and one it writes is
in no pending payload (R270); a status offset it reads names a register; an agent outside PTE
drives DC only with no operation and no transaction in progress. -/
def hostDuty (s : State) : Bool :=
  match nextMove s with
  | .command | .accept =>
    match nextCommand s with
    | some i => !isSyncPush i || (decide (s.queue = []) && decide (s.pending = 0))
    | none => true
  | .hostRead a => s.cfg.pmemValid a
  | .hostWrite a _ => s.cfg.pmemValid a && !inPendingPayload s a
  | .statusRead off => (statusReg s off).isSome
  | .outsideDc _ => linesFree s
  | .hostWord _ => true
  | .statusWrite _ _ => true
  | .engine => true
  | .sbu => true
  | .dmac => true
  | .reset => true

/-- The host keeps its duties at every step of the run (70_reset_and_hazards.md R278). -/
def HostDuties (s : State) : Prop := ∀ t, Reaches s t → hostDuty t = true

/-- Weak fairness of the SBU and the DMAC along the run (43_bus_agents.md R224): from every state
reached, in which the agent's step may be enabled, the run comes to a state where it is not, or for
the DMAC to one where the queue no longer begins with what was queued, some of it performed. A run
that has stopped is fair. -/
def Fair (s : State) : Prop :=
  ∀ t, Reaches s t →
    (∃ k, ∀ u, Host.Core.run Sys2Proof.core k t = .next u → u.busy = false)
    ∧ ∃ k, ∀ u, Host.Core.run Sys2Proof.core k t = .next u →
        dmacReady u = false ∨ ¬ t.queue <+: u.queue

/-- Launch premises on the state a run starts from (70_reset_and_hazards.md R280; log entry 23). -/
structure LaunchPremises (s : State) : Prop where
  /-- Reset values (10_state.md R48), no fault recorded among them. -/
  atReset  : resetFrom s = s
  /-- `ACQ_OK` and `Q_OK` are true wherever the list gives the answer, -/
  answers  : AnswersOk s
  /-- and no sample is taken beyond the lists, where the answer is a free value. -/
  listed   : ∀ t, Reaches s t → t.draws = s.draws
  /-- `PMEM_VALID` holds of every cell the operations of the stream touch. -/
  cells    : ∀ t i, Reaches s t → nextCommand t = some i → cellsTouchedExist i t = true
  /-- The preconditions of 42_dma_engine.md R180. -/
  limits   : ∀ t i, Reaches s t → nextCommand t = some i → withinLimits i = true
  /-- The host duties of R278. -/
  duties   : HostDuties s
  /-- Fairness of 43_bus_agents.md R224. -/
  fairness : Fair s

/-- Every queued transaction can be performed: its cells exist (20_memory.md R61). -/
def QueueValid (s : State) : Prop := ∀ t ∈ s.queue, txInvalid s.cfg t.body = none

/-- A header word of R98 (30_encoding.md): an unknown opcode; `RSV` not zero; `F = 1` where the
format is N, B or S; `IMM16` not zero where the format is not B. -/
def IllegalHeader (w : Word) : Prop :=
  w.extractLsb' 0 8 ∉
      ([0x01, 0x02, 0x03, 0x04, 0x10, 0x11, 0x12, 0x13, 0x14, 0x15] : List Byte)
    ∨ w.extractLsb' 9 7 ≠ 0
    ∨ (w.getLsbD 8 = true ∧ w.extractLsb' 0 8 ∉ ([0x04, 0x15] : List Byte))
    ∨ (w.extractLsb' 16 16 ≠ 0 ∧ w.extractLsb' 0 8 ≠ 0x01)

/-- The wire bytes of a sequence of pixels, at a level (10_state.md R46, 40_pixel_packer.md R130). -/
def pixelWire (c : Params) (l : Level) (ps : List Pixel) (sw : Bool) : List (Level × Byte) :=
  (ps.flatMap fun p => pack c p sw).map fun b => (l, b)

/-- The wire bytes of a transaction (43_bus_agents.md R221). -/
def txWire (c : Params) (m : List Host.Cell) (t : Transaction) : List (Level × Byte) :=
  (txBytes c m t.body).map fun b => (t.tag, b)

/-- A state in which an operation was accepted and completed and nothing else changed
(30_encoding.md R92, R93): the frame that the result of an operation is stated over. -/
def finished (i : Instr) (s : State) : State :=
  { s with opr := latch i s.opr, eng := .idle, done := true }

/-- A state in which an operation was accepted and raised the fatal fault (60_exceptions.md R233). -/
def faulted (i : Instr) (c : Cause) (s : State) : State :=
  raiseFatal c { s with opr := latch i s.opr, done := false }

/-- Everything queued performed in order and every event taken (42_dma_engine.md R176, 43 R221). -/
def drained (s : State) : State :=
  { s with
    queue := [], compl := [], pending := 0,
    wire := s.wire ++ s.queue.flatMap (txWire s.cfg s.pmem),
    dc := (s.queue.getLast?.map Transaction.tag).getD s.dc,
    nperf := s.nperf + s.queue.length }

/-- Register `j` after an RGB565 sequence of `n` pixels from `a` was pushed in serial mode
(41_sync_push.md R146): from the last batch where that batch needs it (alone in the low half when
the batch is odd and it is its last pixel), else as the full batch before left it, else unchanged. -/
def seqRegister (nf : NativeFirst) (m : List Host.Cell) (a n : Nat) (sw : Bool) (old : Word)
    (j : Nat) : Word :=
  let base := if n % 32 = 0 then n - 32 else n - n % 32
  let cell := fun i => Memory.readCell m (a + i)
  if base + 2 * j + 1 < n then word565 nf (cell (base + 2 * j)) (cell (base + 2 * j + 1)) sw
  else if base + 2 * j < n then (half565 nf (cell (base + 2 * j)) sw).setWidth 32
  else if 32 ≤ base then word565 nf (cell (base - 32 + 2 * j)) (cell (base - 32 + 2 * j + 1)) sw
  else old

/-- The cell a staging copy writes lies in the window of a clipped extent (42_dma_engine.md R186). -/
def InWindow (k : Clipped) (xx yy : Nat) : Prop := xx < k.w.toNat ∧ yy < k.h.toNat

/-- The cells a window's staging copy reads and writes exist (20_memory.md R61). -/
def WindowValid (c : Params) (k : Clipped) (img buf w : Nat) : Prop :=
  ∀ xx yy, InWindow k xx yy →
    c.pmemValid (imageAddr img w k.dx.toNat k.dy.toNat xx yy) = true
      ∧ c.pmemValid (stagingAddr buf k.w.toNat xx yy) = true

/-- The cells a window's staging copy reads and writes, in the order of the copy: row by row in
ascending element order (42_dma_engine.md R186). -/
def copyOrder (k : Clipped) (img buf w : Nat) : List (Nat × Nat) :=
  (List.range k.h.toNat).flatMap fun yy => (List.range k.w.toNat).map fun xx =>
    (imageAddr img w k.dx.toNat k.dy.toNat xx yy, stagingAddr buf k.w.toNat xx yy)

/-- A whole image, unswapped and in place: nothing is copied (42_dma_engine.md R186, R188). -/
def CopiesNothing (k : Clipped) (img buf w h : Nat) (sw : Bool) : Prop :=
  k.w = w ∧ k.h = h ∧ buf = img ∧ sw = false

/-- The cells of memory after copies made one after another, each reading what the ones before it
left (42_dma_engine.md R186, 70_reset_and_hazards.md R274). -/
def copyCells (sw : Bool) : List (Nat × Nat) → (Nat → Pixel) → Nat → Pixel
  | [], f => f
  | (src, dst) :: rest, f =>
    copyCells sw rest fun a => if a = dst then swapVal (f src) sw else f a

/-- The staging buffer is the image itself, or no cell the copy writes is one it reads
(42_dma_engine.md R188, 70_reset_and_hazards.md R274). -/
def StagingSound (k : Clipped) (img buf w : Nat) : Prop :=
  buf = img ∨ ∀ xx yy xx' yy', InWindow k xx yy → InWindow k xx' yy' →
    stagingAddr buf k.w.toNat xx yy ≠ imageAddr img w k.dx.toNat k.dy.toNat xx' yy'

/-- The pixels of a window's payload, row by row: the image cells the clip leaves, swapped as asked
(42_dma_engine.md R189). -/
def windowPixels (m : List Host.Cell) (k : Clipped) (img w : Nat) (sw : Bool) : List Pixel :=
  (List.range k.h.toNat).flatMap fun yy => (List.range k.w.toNat).map fun xx =>
    swapVal (Memory.readCell m (imageAddr img w k.dx.toNat k.dy.toNat xx yy)) sw

/-- The operations that queue transactions (42_dma_engine.md R181, R182). -/
def isSubmit : Instr → Bool
  | .pushBlock _ _ => false
  | .pushPixels _ _ => false
  | .pushSwapPixels _ _ => false
  | .setSwap _ => false
  | .initDma => false
  | .deinitDma => false
  | .dmaBusy => false
  | .dmaWait => false
  | .pushPixelsDma _ _ => true
  | .pushImageDma _ _ _ _ _ _ _ => true

end Sys2Proof.Machine
end

