-- ==== Sys2Proof/Certificates/Slice0/Obligations.lean ====
section
/-! DEFINITION. The statements for the provers, in the order of OBLIGATIONS.json. -/

open Sys2Proof Sys2Proof.Machine

/-! ## Encoding -/

/-- 30_encoding.md sections 1 and 3: the decoder reads every command back from its words, with every
operand at every value, and leaves the words after it. -/
def Obligations.DecodeOfEncode : Prop :=
  ∀ (i : Instr) (rest : List Word), decode (encode i ++ rest) = .instr i rest

/-- 30_encoding.md sections 3 and 4: words that decode to a command are that command's words. -/
def Obligations.EncodeOfDecode : Prop :=
  ∀ (ws : List Word) (i : Instr) (rest : List Word),
    decode ws = .instr i rest → ws = encode i ++ rest

/-- 30_encoding.md R94, R95: the header's fields and the operand words of every command. -/
def Obligations.CommandLayout : Prop :=
  ∀ i : Instr, ∃ hd : Word,
    encode i = hd :: (match i with
      | .pushBlock _ count => [count]
      | .pushPixels src len => [src, len]
      | .pushSwapPixels src len => [src, len]
      | .setSwap _ => []
      | .initDma => []
      | .deinitDma => []
      | .dmaBusy => []
      | .dmaWait => []
      | .pushPixelsDma src len => [src, len]
      | .pushImageDma _ x y w h img stg => [x, y, w, h, img, stg])
    ∧ (hd.extractLsb' 0 8).toNat = (match i with
      | .pushBlock _ _ => 0x01
      | .pushPixels _ _ => 0x02
      | .pushSwapPixels _ _ => 0x03
      | .setSwap _ => 0x04
      | .initDma => 0x10
      | .deinitDma => 0x11
      | .dmaBusy => 0x12
      | .dmaWait => 0x13
      | .pushPixelsDma _ _ => 0x14
      | .pushImageDma _ _ _ _ _ _ _ => 0x15)
    ∧ hd.getLsbD 8 = (match i with
      | .setSwap flag => flag
      | .pushImageDma hasStg _ _ _ _ _ _ => hasStg
      | .pushBlock _ _ => false
      | .pushPixels _ _ => false
      | .pushSwapPixels _ _ => false
      | .initDma => false
      | .deinitDma => false
      | .dmaBusy => false
      | .dmaWait => false
      | .pushPixelsDma _ _ => false)
    ∧ hd.extractLsb' 9 7 = 0
    ∧ hd.extractLsb' 16 16 = (match i with
      | .pushBlock color _ => color
      | .pushPixels _ _ => 0
      | .pushSwapPixels _ _ => 0
      | .setSwap _ => 0
      | .initDma => 0
      | .deinitDma => 0
      | .dmaBusy => 0
      | .dmaWait => 0
      | .pushPixelsDma _ _ => 0
      | .pushImageDma _ _ _ _ _ _ _ => 0)

/-- 30_encoding.md R98: the decoder rejects exactly the header words the rule calls illegal. -/
def Obligations.IllegalHeadersRejected : Prop :=
  ∀ (w : Word) (ws : List Word), (∃ why, decode (w :: ws) = .illegal why) ↔ IllegalHeader w

/-- 30_encoding.md R97: a legal header's opcode alone says how many operand words follow; with fewer
issued the decoder asks for more, with enough it takes exactly that many. -/
def Obligations.LengthFollowsFromOpcode : Prop :=
  ∀ (w : Word) (ws : List Word), ¬ IllegalHeader w →
    let opc := (w.extractLsb' 0 8).toNat
    let n := if opc = 0x01 then 1 else if opc = 0x02 ∨ opc = 0x03 ∨ opc = 0x14 then 2
      else if opc = 0x15 then 6 else 0
    (ws.length < n → decode (w :: ws) = .more)
      ∧ (n ≤ ws.length → ∃ i, decode (w :: ws) = .instr i (ws.drop n))

/-- 60_exceptions.md section 2, 30_encoding.md section 4: an illegal header at an idle engine is taken
with no operand word, and the fatal fault is latched with cause 3; no other state changes. That the
step made with no move scheduled is the one that takes it is the model's choice (log entry 10). -/
def Obligations.IllegalHeaderHalts : Prop :=
  ∀ (s : State) (w : Word) (ws : List Word) (ms : List Move),
    s.eng = .idle → s.port = w :: ws → IllegalHeader w →
    (s.sched = .command :: ms ∨ s.sched = .accept :: ms ∨ (s.sched = [] ∧ ms = [])) →
    step s = .next { s with
      port := ws, sched := ms, done := false, fatal := true, faultCause := 3, eng := .halt }

/-- 30_encoding.md R94, R95, R100: words written out from the encoding tables. -/
def Obligations.SampleWordsDecode : Prop :=
  decode [0xF8000001, 0x00000028] = .instr (.pushBlock 0xF800 40) []
    ∧ decode [0x00000002, 0x00002000, 0x00000003] = .instr (.pushPixels 0x2000 3) []
    ∧ decode [0x00000104] = .instr (.setSwap true) []
    ∧ decode [0x00000010] = .instr .initDma []
    ∧ decode [0x00000014, 0x00003000, 0x00000002] = .instr (.pushPixelsDma 0x3000 2) []
    ∧ decode [0x00000115, 0x00000002, 0xFFFFFFFF, 0x00000003, 0x00000003, 0x00000400, 0x00000500]
        = .instr (.pushImageDma true 2 0xFFFFFFFF 3 3 0x400 0x500) []

/-! ## The pixel packer -/

/-- 40_pixel_packer.md R121, R122, R123, R125: the bytes of a pixel by value; `q` is the pixel
after the optional exchange of its two bytes. -/
def Obligations.PackedBytesByValue : Prop :=
  ∀ (c : Params) (p : Pixel) (s : Bool),
    let q := if s then p.toNat % 256 * 256 + p.toNat / 256 else p.toNat
    (pack c p s).map BitVec.toNat =
      match c.colorFmt, c.nativeFirst with
      | .rgb565, .hi => [q / 256, q % 256]
      | .rgb565, .lo => [q % 256, q / 256]
      | .rgb666, _ => [q / 2048 * 8, q / 32 % 64 * 4, q % 32 * 8]

/-- 40_pixel_packer.md section 3: the twelve lane bytes of a group are four copies of the pixel. -/
def Obligations.GroupIsFourPixels : Prop :=
  ∀ (p : Pixel) (s : Bool),
    ((group666 p s).flatMap fun r => [lane r 0, lane r 1, lane r 2, lane r 3]) =
      bytes666 p s ++ bytes666 p s ++ bytes666 p s ++ bytes666 p s

/-- 40_pixel_packer.md sections 2 and 3: the lanes of the packed words are the pixels' bytes. -/
def Obligations.PackedWordLanes : Prop :=
  ∀ (nf : NativeFirst) (pa pb : Pixel) (s : Bool),
    [lane (word565 nf pa pb s) 0, lane (word565 nf pa pb s) 1,
      lane (word565 nf pa pb s) 2, lane (word565 nf pa pb s) 3]
        = bytes565 nf pa s ++ bytes565 nf pb s
    ∧ [lane ((half565 nf pa s).setWidth 32) 0, lane ((half565 nf pa s).setWidth 32) 1,
        lane ((half565 nf pa s).setWidth 32) 2, lane ((half565 nf pa s).setWidth 32) 3]
        = bytes565 nf pa s ++ [0, 0]
    ∧ [lane (word666 pa s) 0, lane (word666 pa s) 1, lane (word666 pa s) 2, lane (word666 pa s) 3]
        = bytes666 pa s ++ [0]

/-- 40_pixel_packer.md section 4: the laws of the swap. -/
def Obligations.SwapLaws : Prop :=
  ∀ (c : Params) (p : Pixel),
    swap16 (swap16 p) = p
    ∧ pack c p true = pack c (swap16 p) false
    ∧ pack c (swap16 p) true = pack c p false
    ∧ bytes565 c.nativeFirst p true = (bytes565 c.nativeFirst p false).reverse
    ∧ (hiByte p = loByte p → pack c p true = pack c p false)

/-! ## Synchronous pushes -/

/-- 41_sync_push.md section 2: what `PUSHBLOCK` leaves in serial mode, and that nothing else changes. -/
def Obligations.PushBlockSerialResult : Prop :=
  ∀ (s : State) (color : Pixel) (count : Word),
    Quiet s → s.cfg.busMode = .serial → count ≠ 0 →
    let f := s.cfg.colorFmt
    let full := count.toNat / f.batch
    let rem := count.toNat % f.batch
    let i := Instr.pushBlock color count
    exec i s = .next { finished i s with
      w := Vector.ofFn fun j : Fin 16 =>
        match f with
        | .rgb565 => word565 s.cfg.nativeFirst color color false
        | .rgb666 => if j.val = 15 then s.w[j] else ((group666 color false)[j.val % 3]?).getD 0
      bitlen := BitVec.ofNat 9 ((if rem = 0 then f.batch else rem) * f.bpp - 1)
      xlog := s.xlog ++ List.replicate full (BitVec.ofNat 9 (f.batch * f.bpp - 1))
        ++ (if rem = 0 then [] else [BitVec.ofNat 9 (rem * f.bpp - 1)])
      wire := s.wire ++ pixelWire s.cfg s.dc (List.replicate count.toNat color) false }

/-- 41_sync_push.md section 2: what `PUSHBLOCK` leaves in parallel mode, and that nothing else
changes. -/
def Obligations.PushBlockParallelResult : Prop :=
  ∀ (s : State) (color : Pixel) (count : Word),
    Quiet s → s.cfg.busMode = .parallel → count ≠ 0 →
    let i := Instr.pushBlock color count
    exec i s = .next { finished i s with
      data := ((pack s.cfg color false).getLast?).getD 0
      wr := true
      wire := s.wire ++ pixelWire s.cfg s.dc (List.replicate count.toNat color) false }

/-- 41_sync_push.md sections 3 and 4: what a sequence push leaves in serial RGB565, for both
operations, and that nothing else changes. -/
def Obligations.SequenceSerial565Result : Prop :=
  ∀ (s : State) (src len : Word),
    Quiet s → s.cfg.busMode = .serial → s.cfg.colorFmt = .rgb565 → len ≠ 0 →
    CellsValid s.cfg src.toNat len.toNat →
    let n := len.toNat
    let after := fun (i : Instr) (sw : Bool) => { finished i s with
      w := Vector.ofFn fun j : Fin 16 =>
        seqRegister s.cfg.nativeFirst s.pmem src.toNat n sw s.w[j] j.val
      bitlen := BitVec.ofNat 9 ((if n % 32 = 0 then 32 else n % 32) * 16 - 1)
      xlog := s.xlog ++ List.replicate (n / 32) 511
        ++ (if n % 32 = 0 then [] else [BitVec.ofNat 9 (n % 32 * 16 - 1)])
      wire := s.wire ++ pixelWire s.cfg s.dc (Memory.readCells s.pmem src.toNat n) sw }
    exec (.pushPixels src len) s = .next (after (.pushPixels src len) s.swap)
      ∧ exec (.pushSwapPixels src len) s = .next (after (.pushSwapPixels src len) true)

/-- 41_sync_push.md sections 3 and 4: what a sequence push leaves in serial RGB666, one 24-bit
transfer a pixel, for both operations, and that nothing else changes. -/
def Obligations.SequenceSerial666Result : Prop :=
  ∀ (s : State) (src len : Word),
    Quiet s → s.cfg.busMode = .serial → s.cfg.colorFmt = .rgb666 → len ≠ 0 →
    CellsValid s.cfg src.toNat len.toNat →
    let n := len.toNat
    let last := Memory.readCell s.pmem (src.toNat + n - 1)
    let after := fun (i : Instr) (sw : Bool) => { finished i s with
      w := s.w.set 0 (word666 last sw)
      loc := last
      bitlen := 23
      xlog := s.xlog ++ List.replicate n 23
      wire := s.wire ++ pixelWire s.cfg s.dc (Memory.readCells s.pmem src.toNat n) sw }
    exec (.pushPixels src len) s = .next (after (.pushPixels src len) s.swap)
      ∧ exec (.pushSwapPixels src len) s = .next (after (.pushSwapPixels src len) true)

/-- 41_sync_push.md sections 3 and 4: what a sequence push leaves in parallel mode, for both
operations, and that nothing else changes. -/
def Obligations.SequenceParallelResult : Prop :=
  ∀ (s : State) (src len : Word),
    Quiet s → s.cfg.busMode = .parallel → len ≠ 0 → CellsValid s.cfg src.toNat len.toNat →
    let n := len.toNat
    let last := Memory.readCell s.pmem (src.toNat + n - 1)
    let after := fun (i : Instr) (sw : Bool) => { finished i s with
      data := ((pack s.cfg last sw).getLast?).getD 0
      wr := true
      loc := last
      wire := s.wire ++ pixelWire s.cfg s.dc (Memory.readCells s.pmem src.toNat n) sw }
    exec (.pushPixels src len) s = .next (after (.pushPixels src len) s.swap)
      ∧ exec (.pushSwapPixels src len) s = .next (after (.pushSwapPixels src len) true)

/-- 70_reset_and_hazards.md R271: a synchronous push of at least one pixel while transactions are
outstanding is refused. -/
def Obligations.SyncPushUnderDmaRefused : Prop :=
  ∀ (s : State) (color : Pixel) (src n : Word),
    s.eng = .idle → n ≠ 0 → (s.queue ≠ [] ∨ s.pending ≠ 0) →
    exec (.pushBlock color n) s = .refused .syncPushUnderDma
      ∧ exec (.pushPixels src n) s = .refused .syncPushUnderDma
      ∧ exec (.pushSwapPixels src n) s = .refused .syncPushUnderDma

/-- 20_memory.md R61: a sequence push is stuck at the first pixel address that does not exist. -/
def Obligations.SequenceStuckAtInvalidCell : Prop :=
  ∀ (s : State) (src len : Word) (j : Nat),
    Quiet s → j < len.toNat → CellsValid s.cfg src.toNat j →
    s.cfg.pmemValid (src.toNat + j) = false →
    exec (.pushPixels src len) s = .fault (.engineStuckAt (src.toNat + j))
      ∧ exec (.pushSwapPixels src len) s = .fault (.engineStuckAt (src.toNat + j))

/-- 41_sync_push.md R150: `SETSWAP v` writes `SWAP` and nothing else. -/
def Obligations.SetSwapResult : Prop :=
  ∀ (s : State) (v : Bool), s.eng = .idle →
    exec (.setSwap v) s = .next { finished (.setSwap v) s with swap := v }

/-- 60_exceptions.md section 3, 42_dma_engine.md section 1: the complete list of silent no-ops; each
completes at once with no state changed (the latch holds the command and `DONE` pulses,
30_encoding.md section 1). That the no-op tests come before the refusals of R271 and R180, where a
command meets both, is the model's choice (log entry 15). -/
def Obligations.SilentNoOps : Prop :=
  ∀ s : State, s.eng = .idle →
    (∀ color, exec (.pushBlock color 0) s = .next (finished (.pushBlock color 0) s))
    ∧ (∀ src, exec (.pushPixels src 0) s = .next (finished (.pushPixels src 0) s))
    ∧ (∀ src, exec (.pushSwapPixels src 0) s = .next (finished (.pushSwapPixels src 0) s))
    ∧ (s.dmaEn = false → exec .deinitDma s = .next (finished .deinitDma s))
    ∧ (∀ src len, s.dmaEn = false ∨ len = 0 →
        exec (.pushPixelsDma src len) s = .next (finished (.pushPixelsDma src len) s))
    ∧ (∀ hasStg x y w h img stg,
        (s.dmaEn = false
          ∨ (s.cfg.dispW : Int) ≤ x.toInt ∨ (s.cfg.dispH : Int) ≤ y.toInt
          ∨ (clip s.cfg x.toInt y.toInt w.toNat h.toNat).w < 1
          ∨ (clip s.cfg x.toInt y.toInt w.toNat h.toNat).h < 1) →
        exec (.pushImageDma hasStg x y w h img stg) s
          = .next (finished (.pushImageDma hasStg x y w h img stg) s))

/-! ## The DMA engine -/

/-- 42_dma_engine.md R171: `INITDMA` on an initialised engine returns 0, draws no answer and changes
nothing else; else it binds and returns 1 when the next answer of `acquireBus` is ok, and raises the
fatal fault with cause 1, nothing else touched, when it is not. The answers of the environment are
the list `acqIn` (log entry 9). -/
def Obligations.InitDmaResult : Prop :=
  ∀ (s : State) (r : List Bool), s.eng = .idle →
    (s.dmaEn = true → exec .initDma s = .next { finished .initDma s with result := false })
    ∧ (s.dmaEn = false → s.acqIn = true :: r →
        exec .initDma s = .next { finished .initDma s with
          acqIn := r, qHandle := some (), dmaEn := true, result := true })
    ∧ (s.dmaEn = false → s.acqIn = false :: r →
        exec .initDma s = .next { s with
          opr := latch .initDma s.opr, done := false, acqIn := r,
          fatal := true, faultCause := 1, eng := .halt })

/-- 42_dma_engine.md section 2, and log entry 9 (the model's own): with no answer listed the answer
is a free value, and whichever it is `INITDMA` does what it does with that answer listed. -/
def Obligations.InitDmaFreeAnswer : Prop :=
  ∀ s : State, s.eng = .idle → s.dmaEn = false → s.acqIn = [] →
    ∃ ok : Bool, exec .initDma s = .next
      (if ok then { finished .initDma s with
        draws := s.draws + 1, qHandle := some (), dmaEn := true, result := true }
      else { s with
        opr := latch .initDma s.opr, done := false, draws := s.draws + 1,
        fatal := true, faultCause := 1, eng := .halt })

/-- 42_dma_engine.md R174, R176: `DMAWAIT` blocks until everything queued has been performed and
every completion taken, then changes nothing else. -/
def Obligations.DmaWaitDrains : Prop :=
  ∀ s : State, Inv s → s.eng = .idle → QueueValid s →
    exec .dmaWait s = .next (finished .dmaWait (drained s))

/-- 42_dma_engine.md R175: `DMABUSY` drains and returns 0, in every case. -/
def Obligations.DmaBusyDrainsAndReturnsZero : Prop :=
  ∀ s : State, Inv s → s.eng = .idle → QueueValid s →
    exec .dmaBusy s = .next { finished .dmaBusy (drained s) with result := false }

/-- 42_dma_engine.md R173: `DEINITDMA` is a no-op on an engine that is not initialised; on one that
is, it drains and then releases. -/
def Obligations.DeinitDmaDrainsAndReleases : Prop :=
  ∀ s : State, Inv s → s.eng = .idle → QueueValid s →
    (s.dmaEn = false → exec .deinitDma s = .next (finished .deinitDma s))
    ∧ (s.dmaEn = true →
        exec .deinitDma s = .next { finished .deinitDma (drained s) with
          qHandle := none, dmaEn := false })

/-- 20_memory.md R61, 42_dma_engine.md R176: a drain is stuck when the DMAC reaches a payload with an
address that does not exist, whichever of its five callers drains. -/
def Obligations.DrainStuckAtInvalidPayload : Prop :=
  ∀ (s : State) (pre post : List Transaction) (t : Transaction) (a : Nat),
    Inv s → s.eng = .idle → s.queue = pre ++ t :: post →
    (∀ u ∈ pre, txInvalid s.cfg u.body = none) → txInvalid s.cfg t.body = some a →
    exec .dmaWait s = .fault (.dmacStuckAt a)
      ∧ exec .dmaBusy s = .fault (.dmacStuckAt a)
      ∧ exec .deinitDma s = .fault (.dmacStuckAt a)
      ∧ (∀ src len : Word, len ≠ 0 → len.toNat < 32768 →
          exec (.pushPixelsDma src len) s = .fault (.dmacStuckAt a))
      ∧ (∀ hasStg x y w h img stg,
          originOutside s.cfg x.toInt y.toInt = false →
          emptyExtent (clip s.cfg x.toInt y.toInt w.toNat h.toNat) = false →
          w.toNat * h.toNat < 65536 →
          exec (.pushImageDma hasStg x y w h img stg) s = .fault (.dmacStuckAt a))

/-- 42_dma_engine.md R181: `PUSHPIXELSDMA` is a no-op on an engine that is not initialised or with
length 0; else it drains, queues exactly one payload transaction and sets `PENDING` to 1, no swap
applied and no cell of memory touched; where the controller answers fault, the drain is done,
nothing is queued, `PENDING` is 0 and the fault is latched with cause 2. -/
def Obligations.PushPixelsDmaQueuesOne : Prop :=
  ∀ (s : State) (src len : Word) (r : List Bool),
    Inv s → s.eng = .idle → QueueValid s → len.toNat < 32768 →
    let i := Instr.pushPixelsDma src len
    (s.dmaEn = false ∨ len = 0 → exec i s = .next (finished i s))
    ∧ (s.dmaEn = true → len ≠ 0 → s.qIn = true :: r →
        exec i s = .next { finished i (drained s) with
          qIn := r
          nperf := 0
          queue := [⟨.data, .payload src.toNat len.toNat, len.toNat * s.cfg.colorFmt.bpp⟩]
          pending := 1 })
    ∧ (s.dmaEn = true → len ≠ 0 → s.qIn = false :: r →
        exec i s = .next { drained s with
          opr := latch i s.opr, done := false, qIn := r, nperf := 0,
          fatal := true, faultCause := 2, eng := .halt })

/-- 42_dma_engine.md R180: where a transaction would be queued, a length of 32768 pixels or more
and an unclipped area of 65536 pixels or more are refused. -/
def Obligations.PreconditionsRefused : Prop :=
  ∀ s : State, s.eng = .idle → s.dmaEn = true →
    (∀ src len : Word, 32768 ≤ len.toNat →
      exec (.pushPixelsDma src len) s = .refused .lengthLimit)
    ∧ (∀ hasStg x y w h img stg,
        x.toInt < (s.cfg.dispW : Int) → y.toInt < (s.cfg.dispH : Int) →
        1 ≤ (clip s.cfg x.toInt y.toInt w.toNat h.toNat).w →
        1 ≤ (clip s.cfg x.toInt y.toInt w.toNat h.toNat).h →
        65536 ≤ w.toNat * h.toNat →
        exec (.pushImageDma hasStg x y w h img stg) s = .refused .areaLimit)

/-- 42_dma_engine.md R182, R184, R186, R187 and section 7: `PUSHIMAGEDMA` of a window that is not
rejected drains, stages the payload, queues exactly the six transactions and sets `PENDING` to 6;
every byte of memory outside the staged cells is unchanged, and each staged cell holds its image
cell, swapped as asked, where the buffer is the image itself or the two do not overlap. The model's
own: the range ends at its last column or row (log entry 7, PRESUMED: G1), and no DMAC step comes
between two `queue_tx` calls of an operation executed in one step, so that all six are queued (log
entry 11). -/
def Obligations.PushImageDmaQueuesSix : Prop :=
  ∀ (s : State) (hasStg : Bool) (x y w h img stg : Word) (r : List Bool),
    let i := Instr.pushImageDma hasStg x y w h img stg
    let k := clip s.cfg x.toInt y.toInt w.toNat h.toNat
    let buf := stagingBuffer hasStg img stg
    Inv s → s.eng = .idle → s.dmaEn = true → QueueValid s →
    originOutside s.cfg x.toInt y.toInt = false → emptyExtent k = false →
    w.toNat * h.toNat < 65536 → WindowValid s.cfg k img.toNat buf w.toNat →
    s.qIn = List.replicate 6 true ++ r →
    ∃ m : List Host.Cell,
      exec i s = .next { finished i (drained s) with
        pmem := m
        qIn := r
        nperf := 0
        queue := [
          ⟨.cmd, .inline [0x2A], 8⟩,
          ⟨.data, .inline (rangeBytes k.x.toNat (k.x.toNat + k.w.toNat - 1)), 32⟩,
          ⟨.cmd, .inline [0x2B], 8⟩,
          ⟨.data, .inline (rangeBytes k.y.toNat (k.y.toNat + k.h.toNat - 1)), 32⟩,
          ⟨.cmd, .inline [0x2C], 8⟩,
          ⟨.data, .payload buf (k.w.toNat * k.h.toNat),
            k.w.toNat * k.h.toNat * s.cfg.colorFmt.bpp⟩]
        pending := 6 }
      ∧ Memory.wf m = true
      ∧ (∀ c, (∀ xx yy, InWindow k xx yy → c / 2 ≠ stagingAddr buf k.w.toNat xx yy) →
          Memory.readByte m c = Memory.readByte s.pmem c)
      ∧ (StagingSound k img.toNat buf w.toNat → ∀ xx yy, InWindow k xx yy →
          Memory.readCell m (stagingAddr buf k.w.toNat xx yy) =
            swapVal (Memory.readCell s.pmem
              (imageAddr img.toNat w.toNat k.dx.toNat k.dy.toNat xx yy)) s.swap)

/-- 60_exceptions.md section 2: a fault from the controller at transaction `j` of a window: the drain
and the staging copy are done as in the run in which every answer is ok, the transactions before `j`
are queued, `PENDING` is 0, and the fault is latched with cause 2. The model's own: none of those
`j` has been performed yet, because no DMAC step comes between two `queue_tx` calls of an operation
executed in one step (log entry 11; R223 allows one, and the moves `accept`, `engine` and `dmac`
show it); the bytes of a range are those of log entry 7. -/
def Obligations.PushImageDmaQueueFault : Prop :=
  ∀ (s : State) (hasStg : Bool) (x y w h img stg : Word) (r : List Bool) (j : Nat),
    let i := Instr.pushImageDma hasStg x y w h img stg
    let k := clip s.cfg x.toInt y.toInt w.toNat h.toNat
    let buf := stagingBuffer hasStg img stg
    Inv s → s.eng = .idle → s.dmaEn = true → QueueValid s →
    originOutside s.cfg x.toInt y.toInt = false → emptyExtent k = false →
    w.toNat * h.toNat < 65536 → WindowValid s.cfg k img.toNat buf w.toNat →
    j < 6 → s.qIn = List.replicate j true ++ false :: r →
    ∃ t, exec i { s with qIn := List.replicate 6 true } = .next t ∧
      exec i s = .next { drained s with
        opr := latch i s.opr, done := false, pmem := t.pmem, qIn := r, nperf := 0,
        queue := t.queue.take j, pending := 0, fatal := true, faultCause := 2, eng := .halt }

/-- 42_dma_engine.md section 7: what the clipper gives a window that is not rejected. -/
def Obligations.ClipGivesIntersection : Prop :=
  ∀ (c : Params) (x y : Int) (w h : Nat),
    let k := clip c x y w h
    originOutside c x y = false → emptyExtent k = false →
    k.x = max x 0 ∧ k.dx = max (-x) 0 ∧ k.w = min (x + w) c.dispW - k.x
    ∧ k.y = max y 0 ∧ k.dy = max (-y) 0 ∧ k.h = min (y + h) c.dispH - k.y
    ∧ 0 ≤ k.x ∧ k.x + k.w ≤ c.dispW ∧ 0 ≤ k.y ∧ k.y + k.h ≤ c.dispH
    ∧ k.w ≤ w ∧ k.h ≤ h ∧ k.dx + k.w ≤ w ∧ k.dy + k.h ≤ h

/-- 42_dma_engine.md section 7: a window is rejected exactly when its rectangle has no point on the
display. -/
def Obligations.RejectedExactlyWhenDisjoint : Prop :=
  ∀ (c : Params) (x y : Int) (w h : Nat),
    (originOutside c x y = true ∨ emptyExtent (clip c x y w h) = true) ↔
      ¬ ∃ px py : Int, x ≤ px ∧ px < x + w ∧ y ≤ py ∧ py < y + h
        ∧ 0 ≤ px ∧ px < c.dispW ∧ 0 ≤ py ∧ py < c.dispH

/-- 42_dma_engine.md section 7: a window pushed and then waited for puts exactly its commands, its
ranges and the pixels the clip leaves on the wire. That a range ends at its last column or row is
the model's own (log entry 7, PRESUMED: G1). -/
def Obligations.WindowReachesTheWire : Prop :=
  ∀ (s : State) (hasStg : Bool) (x y w h img stg : Word) (r : List Bool),
    let i := Instr.pushImageDma hasStg x y w h img stg
    let k := clip s.cfg x.toInt y.toInt w.toNat h.toNat
    let buf := stagingBuffer hasStg img stg
    Inv s → s.eng = .idle → s.dmaEn = true → QueueValid s →
    originOutside s.cfg x.toInt y.toInt = false → emptyExtent k = false →
    w.toNat * h.toNat < 65536 → WindowValid s.cfg k img.toNat buf w.toNat →
    StagingSound k img.toNat buf w.toNat → s.qIn = List.replicate 6 true ++ r →
    ∃ t u, exec i s = .next t ∧ exec .dmaWait t = .next u ∧
      u.pending = 0 ∧ u.queue = [] ∧ u.compl = [] ∧ u.dc = .data ∧
      u.wire = (drained s).wire
        ++ [(.cmd, 0x2A)]
        ++ (rangeBytes k.x.toNat (k.x.toNat + k.w.toNat - 1)).map (fun b => (.data, b))
        ++ [(.cmd, 0x2B)]
        ++ (rangeBytes k.y.toNat (k.y.toNat + k.h.toNat - 1)).map (fun b => (.data, b))
        ++ [(.cmd, 0x2C)]
        ++ pixelWire s.cfg .data (windowPixels s.pmem k img.toNat w.toNat s.swap) false

/-- 42_dma_engine.md section 6: a buffer pushed by DMA and then waited for puts exactly its pixels on
the wire, unswapped whatever `SWAP` is. -/
def Obligations.BufferReachesTheWire : Prop :=
  ∀ (s : State) (src len : Word) (r : List Bool),
    Inv s → s.eng = .idle → s.dmaEn = true → QueueValid s →
    len ≠ 0 → len.toNat < 32768 → s.qIn = true :: r → CellsValid s.cfg src.toNat len.toNat →
    ∃ t u, exec (.pushPixelsDma src len) s = .next t ∧ exec .dmaWait t = .next u ∧
      u.pending = 0 ∧ u.queue = [] ∧ u.compl = [] ∧ u.dc = .data ∧ u.pmem = s.pmem ∧
      u.wire = (drained s).wire
        ++ pixelWire s.cfg .data (Memory.readCells s.pmem src.toNat len.toNat) false

/-! ## The bus agents -/

/-- 43_bus_agents.md R214: the SBU's step sends the whole bytes of the transfer, register 0 first and
the lowest lane first, and clears `BUSY`; nothing else changes, and nothing at all when `BUSY` is 0. -/
def Obligations.SbuSendsTheTransfer : Prop :=
  ∀ (s : State) (ms : List Move), s.sched = .sbu :: ms →
    (s.busy = true → (s.bitlen.toNat + 1) % 8 = 0 →
      ∃ bs : List Byte,
        step s = .next { s with
          sched := ms, done := false, busy := false,
          wire := s.wire ++ bs.map fun b => (s.dc, b) }
        ∧ bs.map BitVec.toNat = (List.range ((s.bitlen.toNat + 1) / 8)).map fun k =>
            (s.w.toList.getD (k / 4) 0).toNat / 2 ^ (8 * (k % 4)) % 256)
    ∧ (s.busy = false → step s = .next { s with sched := ms, done := false })

/-- 43_bus_agents.md R219, R221: the DMAC's step performs the transaction at the head of the queue, and
nothing happens when it is not enabled. -/
def Obligations.DmacPerformsTheHead : Prop :=
  ∀ (s : State) (ms : List Move), s.sched = .dmac :: ms →
    (∀ t q, s.queue = t :: q → s.fatal = false → s.dmaEn = true →
      (s.cfg.busMode = .serial → s.busy = false) → txInvalid s.cfg t.body = none →
      step s = .next { s with
        sched := ms, done := false, queue := q, dc := t.tag, compl := s.compl ++ [t],
        nperf := s.nperf + 1,
        wire := s.wire ++ (match t.body with
          | .inline bytes => bytes.map fun b => (t.tag, b)
          | .payload addr npix => pixelWire s.cfg t.tag (Memory.readCells s.pmem addr npix) false) })
    ∧ ((s.queue = [] ∨ s.fatal = true ∨ s.dmaEn = false
          ∨ (s.cfg.busMode = .serial ∧ s.busy = true)) →
        step s = .next { s with sched := ms, done := false })

/-- 20_memory.md sections 1 and 3: a host write of a cell that exists changes that cell and no other
byte, and nothing else of the machine. -/
def Obligations.HostWriteChangesOneCell : Prop :=
  ∀ (s : State) (ms : List Move) (a : Nat) (v : Pixel),
    s.sched = .hostWrite a v :: ms → s.cfg.pmemValid a = true → Memory.wf s.pmem = true →
    ∃ m, step s = .next { s with sched := ms, done := false, pmem := m }
      ∧ Memory.readCell m a = v
      ∧ ∀ c, c / 2 ≠ a → Memory.readByte m c = Memory.readByte s.pmem c

/-! ## The whole machine -/

/-- 30_encoding.md section 1, 60_exceptions.md section 2: an engine that is not idle takes no
command. -/
def Obligations.NotReadyTakesNoCommand : Prop :=
  ∀ (s : State), s.eng ≠ .idle →
    (∀ i, exec i s = .next s)
    ∧ ∀ ms, (s.sched = .command :: ms ∨ s.sched = .accept :: ms) →
        step s = .next { s with sched := ms, done := false }

/-- 60_exceptions.md section 2: after the fatal fault no step but reset changes anything of the
engine, of the DMA controller or of the flags; only an agent outside PTE may still drive DC (log
entry 16). -/
def Obligations.FatalFaultIsPermanent : Prop :=
  ∀ s t : State, s.fatal = true → s.eng = .halt → s.busy = false → step s = .next t →
    s.sched.head? ≠ some .reset →
    t.fatal = true ∧ t.eng = .halt ∧ t.faultCause = s.faultCause ∧ t.busy = false
      ∧ t.wire = s.wire ∧ t.xlog = s.xlog ∧ t.queue = s.queue ∧ t.compl = s.compl
      ∧ t.pending = s.pending ∧ t.dmaEn = s.dmaEn ∧ t.qHandle = s.qHandle
      ∧ t.result = s.result ∧ t.swap = s.swap ∧ t.opr = s.opr ∧ t.w = s.w
      ∧ t.bitlen = s.bitlen ∧ t.data = s.data ∧ t.wr = s.wr ∧ t.nperf = s.nperf
      ∧ t.loc = s.loc ∧ ((∀ l, s.sched.head? ≠ some (.outsideDc l)) → t.dc = s.dc)

/-- 30_encoding.md section 1: an operation that is taken either completes, the engine idle and
`DONE` pulsing, or has raised the fatal fault, the engine halted and `DONE` low. -/
def Obligations.OperationCompletesOrHalts : Prop :=
  ∀ (i : Instr) (s t : State), s.eng = .idle → exec i s = .next t →
    t.opr = latch i s.opr ∧
    ((t.eng = .idle ∧ t.done = true ∧ t.fatal = s.fatal ∧ t.faultCause = s.faultCause)
      ∨ (t.eng = .halt ∧ t.done = false ∧ t.fatal = true
          ∧ (t.faultCause = 1 ∨ t.faultCause = 2)))

/-- 10_state.md sections 1 to 7, 20_memory.md section 1: which operations write which state; every
register, flag and trace an operation does not own, and every byte of memory for each operation
but `PUSHIMAGEDMA`, is unchanged when it answers a next state. -/
def Obligations.OperationsWriteOnlyTheirOwnState : Prop :=
  ∀ (i : Instr) (s t : State), Inv s → exec i s = .next t →
    t.cfg = s.cfg ∧ t.port = s.port ∧ t.sched = s.sched ∧ t.rdata = s.rdata
    ∧ t.mdata = s.mdata
    ∧ ((∀ v, i ≠ .setSwap v) → t.swap = s.swap)
    ∧ (i ≠ .initDma → i ≠ .dmaBusy → t.result = s.result)
    ∧ (i ≠ .initDma → i ≠ .deinitDma → t.dmaEn = s.dmaEn ∧ t.qHandle = s.qHandle)
    ∧ (i ≠ .initDma → t.acqIn = s.acqIn)
    ∧ (isSubmit i = false → t.qIn = s.qIn ∧ (i ≠ .initDma → t.draws = s.draws
        ∧ t.fatal = s.fatal ∧ t.faultCause = s.faultCause))
    ∧ (isSyncPush i = false → t.w = s.w ∧ t.bitlen = s.bitlen ∧ t.data = s.data ∧ t.wr = s.wr
        ∧ t.busy = s.busy ∧ t.xlog = s.xlog ∧ t.loc = s.loc)
    ∧ ((isSyncPush i = true ∨ (∃ v, i = .setSwap v) ∨ i = .initDma) →
        t.dc = s.dc ∧ t.pending = s.pending ∧ t.queue = s.queue ∧ t.compl = s.compl
          ∧ t.nperf = s.nperf)
    ∧ ((∃ v, i = .setSwap v) ∨ i = .initDma → t.wire = s.wire)
    ∧ (s.cfg.busMode = .parallel → t.w = s.w ∧ t.bitlen = s.bitlen ∧ t.busy = s.busy
        ∧ t.xlog = s.xlog)
    ∧ (s.cfg.busMode = .serial → t.data = s.data ∧ t.wr = s.wr)
    ∧ ((∀ hasStg x y w h img stg, i ≠ .pushImageDma hasStg x y w h img stg) →
        ∀ a, Memory.readByte t.pmem a = Memory.readByte s.pmem a)

/-- 10_state.md section 10 and R27, R32: every step keeps the invariant, whichever agent moves, also
in the middle of an operation. -/
def Obligations.EveryStepKeepsInv : Prop :=
  ∀ s t : State, Inv s → step s = .next t → Inv t

/-- 10_state.md section 10: the machine right after reset has the invariant, in every configuration. -/
def Obligations.ResetHasInv : Prop :=
  (∀ p : Params, Inv (State.resetWith p)) ∧ Inv State.reset

/-- 43_bus_agents.md section 5: an operation taken and executed line by line, the other agents
stepping whenever it waits, ends as the operation executed in one step. The order of the agents'
steps is the model's own (log entries 10 and 11). -/
def Obligations.LineByLineEqualsOneStep : Prop :=
  ∀ (s : State) (i : Instr) (rest : List Word),
    s.eng = .idle → s.sched = [.accept] → decode s.port = .instr i rest →
    ∃ n, Host.Core.run Sys2Proof.core n s =
      exec i { s with port := rest, sched := [], done := false }

/-- 00_scope.md R8: the configuration never changes. -/
def Obligations.ConfigurationNeverChanges : Prop :=
  ∀ s t : State, step s = .next t → t.cfg = s.cfg

/-- 30_encoding.md sections 1 and 3: when the words at the head of the command port decode to an
operation and the engine is idle, the step that takes it is its `exec` at the state with those
words gone from the port, the pulse of `DONE` over, and the schedule advanced. The model's own: with
no move scheduled the engine takes the command before any other agent moves (log entry 10), and one
step takes all its words (log entry 13) and executes it to its end (log entry 11). -/
def Obligations.StepRunsTheDecodedOperation : Prop :=
  ∀ (s : State) (i : Instr) (rest : List Word),
    s.eng = .idle → decode s.port = .instr i rest → i.wellFormed = true →
    (s.sched = [] → step s = exec i { s with port := rest, done := false })
    ∧ ∀ ms, s.sched = .command :: ms →
        step s = exec i { s with port := rest, done := false, sched := ms }

/-- Log entry 18 (the model's own): an instruction given as a table number is what the very next step
takes, at an idle engine, and nothing else of the state differs. -/
def Obligations.PresentedInstructionIsRun : Prop :=
  ∀ (s : State) (nbits w : Nat) (i : Instr),
    s.eng = .idle → decodeTableWord nbits w = some i →
    step (s.withFetchWord nbits w) = exec i { s with done := false }

/-- 10_state.md R48, 70_reset_and_hazards.md R260, R261: a reset from any state gives every element
the value the spec states, leaves memory and the configuration alone, and leaves `HALT`. -/
def Obligations.ResetGivesTheStatedValues : Prop :=
  ∀ (s : State) (ms : List Move), s.sched = .reset :: ms →
    ∃ t, step s = .next t ∧ t.pmem = s.pmem ∧ t.cfg = s.cfg
      ∧ t.eng = .idle ∧ t.busy = false ∧ t.dmaEn = false ∧ t.qHandle = none ∧ t.pending = 0
      ∧ t.queue = [] ∧ t.compl = [] ∧ t.fatal = false ∧ t.faultCause = 0 ∧ t.result = false
      ∧ t.swap = false ∧ t.dc = .data ∧ t.wr = true ∧ t.bitlen = 0 ∧ t.nperf = 0
      ∧ t.wire = [] ∧ t.xlog = []

/-- 10_state.md R34: the registers of the status port, bit by bit, and read-only: a host write leaves
every one of them, and all else of the machine, as it was. -/
def Obligations.StatusRegistersRead : Prop :=
  ∀ s : State,
    (∃ v, statusReg s 0x00 = some v ∧ v.toNat =
        (if s.cfg.busMode = .parallel then 1 else 0) + (if s.cfg.colorFmt = .rgb666 then 2 else 0)
          + (if s.cfg.nativeFirst = .lo then 4 else 0) + 16 * s.cfg.queueDepth)
    ∧ (∃ v, statusReg s 0x04 = some v ∧ v.toNat = s.cfg.dispW)
    ∧ (∃ v, statusReg s 0x08 = some v ∧ v.toNat = s.cfg.dispH)
    ∧ (∃ v, statusReg s 0x0C = some v ∧ v.toNat = s.swap.toNat)
    ∧ (∃ v, statusReg s 0x10 = some v ∧ v.toNat =
        s.dmaEn.toNat + (if s.pending = 0 then 0 else 2) + 4 * s.busy.toNat + 8 * s.fatal.toNat
          + 16 * (dstate s).toNat + (if s.dc = .data then 64 else 0) + 128 * s.result.toNat
          + (if s.eng = .idle then 256 else 0) + 512 * s.wr.toNat
          + (if s.qHandle = none then 0 else 1024))
    ∧ (∃ v, statusReg s 0x14 = some v ∧ v.toNat = s.pending.toNat)
    ∧ (∃ v, statusReg s 0x18 = some v ∧ v.toNat = s.faultCause.toNat)
    ∧ (∃ v, statusReg s 0x1C = some v ∧ v.toNat = s.bitlen.toNat)
    ∧ (∃ v, statusReg s 0x20 = some v ∧ v.toNat = s.data.toNat)
    ∧ (∀ i : Fin 16, statusReg s (0x40 + 4 * i.val) = some s.w[i])
    ∧ ∀ (off : Nat) (v : Word) (ms : List Move), s.sched = .statusWrite off v :: ms →
        ∃ t, step s = .next t ∧ t = { s with sched := ms, done := false }
          ∧ ∀ o, statusReg t o = statusReg s o

/-- 10_state.md R36: a status read gives the host the register and changes nothing else, at any
time; a status write has no effect. -/
def Obligations.StatusPortHasNoEffect : Prop :=
  ∀ (s : State) (ms : List Move) (off : Nat) (v : Word),
    (s.sched = .statusRead off :: ms → statusReg s off = some v →
      step s = .next { s with sched := ms, done := false, rdata := v })
    ∧ (s.sched = .statusWrite off v :: ms →
      step s = .next { s with sched := ms, done := false })

/-- 10_state.md R33: `DSTATE` as a function of the other state. -/
def Obligations.DstateFollowsTheQueue : Prop :=
  ∀ s : State,
    (s.pending = 0 ∧ s.queue = [] ∧ s.compl = [] → dstate s = 0)
    ∧ (s.queue ≠ [] ∧ s.compl = [] ∧ s.nperf = 0 → dstate s = 1)
    ∧ (¬ (s.pending = 0 ∧ s.queue = [] ∧ s.compl = []) →
        ¬ (s.queue ≠ [] ∧ s.compl = [] ∧ s.nperf = 0) → dstate s = 2)

/-- 10_state.md sections 3 and 4, 70_reset_and_hazards.md section 3: no step of the SBU, of the DMAC
or of the host lowers `PENDING`, so `STATUS.DMA_BUSY` does not fall by itself. The same of the step
made with no move scheduled when the engine has nothing to do, in which the SBU or the DMAC steps
(log entry 10, the model's own). -/
def Obligations.DmaBusyDoesNotFallByItself : Prop :=
  ∀ s t : State, step s = .next t →
    ((∃ m ms, s.sched = m :: ms ∧ m ≠ .command ∧ m ≠ .engine ∧ m ≠ .reset)
      ∨ (s.sched = [] ∧ (s.eng = .halt ∨ (s.eng = .idle ∧ decode s.port = .more)))) →
    t.pending = s.pending ∧ dmaBusyBit t = dmaBusyBit s

/-- 70_reset_and_hazards.md section 6: once a run is over no move of the engine, of the SBU or of the
DMAC changes anything, nor the step made with no move scheduled; only the pulse of `DONE` ends, and
the run stays over. Which move is made with none scheduled is the model's own (log entry 10). -/
def Obligations.RunEndIsStable : Prop :=
  ∀ (s : State) (ms : List Move), RunOver s →
    ((s.sched = [] ∧ ms = [])
      ∨ ∃ m ∈ [Move.command, .accept, .engine, .sbu, .dmac], s.sched = m :: ms) →
    step s = .next { s with sched := ms, done := false }
      ∧ RunOver { s with sched := ms, done := false }

/-- 70_reset_and_hazards.md section 6: a run from a state with the launch premises records no fault
but that of an illegal header, which the premises do not exclude; and with as many ok answers listed
as one operation can ask for, no operation raises the fatal fault. The lists of answers are the
model's own (log entry 9), and so is the reading of R280 (log entry 23). -/
def Obligations.LaunchPremisesExcludeTheFault : Prop :=
  (∀ s t : State, LaunchPremises s → Reaches s t → t.fatal = false ∨ t.faultCause = 3)
  ∧ ∀ (i : Instr) (s t : State), AnswersOk s → s.eng = .idle → 1 ≤ s.acqIn.length →
      6 ≤ s.qIn.length → exec i s = .next t → t.eng = .idle ∧ AnswersOk t

/-- 20_memory.md section 1, 42_dma_engine.md section 7: the staging copy of a window is stuck at the
first cell, in the order of the copy, that does not exist: the image cell read, or the staging cell
written. -/
def Obligations.StagingStuckAtInvalidCell : Prop :=
  ∀ (s : State) (hasStg : Bool) (x y w h img stg : Word) (pre post : List (Nat × Nat))
    (src dst : Nat),
    let i := Instr.pushImageDma hasStg x y w h img stg
    let k := clip s.cfg x.toInt y.toInt w.toNat h.toNat
    let buf := stagingBuffer hasStg img stg
    Inv s → s.eng = .idle → s.dmaEn = true → QueueValid s →
    originOutside s.cfg x.toInt y.toInt = false → emptyExtent k = false →
    w.toNat * h.toNat < 65536 →
    ¬ CopiesNothing k img.toNat buf w.toNat h.toNat s.swap →
    copyOrder k img.toNat buf w.toNat = pre ++ (src, dst) :: post →
    (∀ p ∈ pre, s.cfg.pmemValid p.1 = true ∧ s.cfg.pmemValid p.2 = true) →
    (s.cfg.pmemValid src = false → exec i s = .fault (.engineStuckAt src))
      ∧ (s.cfg.pmemValid src = true → s.cfg.pmemValid dst = false →
          exec i s = .fault (.engineStuckAt dst))

/-- 42_dma_engine.md section 7: a whole image, unswapped and in place, is not copied: the operation
drains, touches no cell and queues the six transactions, also where cells of the image do not exist.
The end of a range is that of log entry 7 (PRESUMED: G1), and all six are queued by log entry 11. -/
def Obligations.WholeImageInPlaceIsNotCopied : Prop :=
  ∀ (s : State) (hasStg : Bool) (x y w h img stg : Word) (r : List Bool),
    let i := Instr.pushImageDma hasStg x y w h img stg
    let k := clip s.cfg x.toInt y.toInt w.toNat h.toNat
    Inv s → s.eng = .idle → s.dmaEn = true → QueueValid s →
    originOutside s.cfg x.toInt y.toInt = false → emptyExtent k = false →
    w.toNat * h.toNat < 65536 →
    CopiesNothing k img.toNat (stagingBuffer hasStg img stg) w.toNat h.toNat s.swap →
    s.qIn = List.replicate 6 true ++ r →
    exec i s = .next { finished i (drained s) with
      qIn := r
      nperf := 0
      queue := [
        ⟨.cmd, .inline [0x2A], 8⟩,
        ⟨.data, .inline (rangeBytes x.toNat (x.toNat + w.toNat - 1)), 32⟩,
        ⟨.cmd, .inline [0x2B], 8⟩,
        ⟨.data, .inline (rangeBytes y.toNat (y.toNat + h.toNat - 1)), 32⟩,
        ⟨.cmd, .inline [0x2C], 8⟩,
        ⟨.data, .payload img.toNat (w.toNat * h.toNat),
          w.toNat * h.toNat * s.cfg.colorFmt.bpp⟩]
      pending := 6 }

/-- 42_dma_engine.md section 7, 70_reset_and_hazards.md section 3: what memory holds after the staging
copy of any window, the buffer overlapping the image in any way: each copy, in ascending order, reads
what the copies before it left. -/
def Obligations.StagingFollowsTheAscendingOrder : Prop :=
  ∀ (s : State) (hasStg : Bool) (x y w h img stg : Word) (r : List Bool),
    let i := Instr.pushImageDma hasStg x y w h img stg
    let k := clip s.cfg x.toInt y.toInt w.toNat h.toNat
    let buf := stagingBuffer hasStg img stg
    Inv s → s.eng = .idle → s.dmaEn = true → QueueValid s →
    originOutside s.cfg x.toInt y.toInt = false → emptyExtent k = false →
    w.toNat * h.toNat < 65536 → WindowValid s.cfg k img.toNat buf w.toNat →
    s.qIn = List.replicate 6 true ++ r →
    ∃ t, exec i s = .next t ∧ ∀ a, Memory.readCell t.pmem a =
      copyCells s.swap (copyOrder k img.toNat buf w.toNat) (Memory.readCell s.pmem) a

/-- 43_bus_agents.md section 5, 70_reset_and_hazards.md section 5: the host reads any cell that exists
at any time, and nothing of the machine changes. Where the value lands (log entry 17) and that an
address that does not exist is refused (log entry 20) are the model's own. -/
def Obligations.HostReadGivesTheCell : Prop :=
  ∀ (s : State) (ms : List Move) (a : Nat), s.sched = .hostRead a :: ms →
    (s.cfg.pmemValid a = true → step s = .next { s with
      sched := ms, done := false, mdata := Memory.readCell s.pmem a })
    ∧ (s.cfg.pmemValid a = false → step s = .refused (.hostAddress a))

/-- 43_bus_agents.md section 5: the SBU and the DMAC are never kept from stepping for ever, whatever
the schedule: a schedule is a finite list of moves, and the order of the moves after it is the
model's own (log entry 10). -/
def Obligations.EveryScheduleIsFair : Prop := ∀ s : State, Fair s

/-- 70_reset_and_hazards.md section 6: under the launch premises no step of the run stops, with a
fault or with a refusal: no agent gets stuck, and nothing happens that the spec gives the model no
move for. The reading of R280 is the model's own (log entry 23). -/
def Obligations.LaunchedRunNeverStops : Prop :=
  ∀ s : State, LaunchPremises s → Memory.wf s.pmem = true →
    ∀ n, ∃ t, Host.Core.run Sys2Proof.core n s = .next t
end

