-- ==== Sys2Proof/Laws/Memory.lean ====
section
/-! SUPPORT. The laws of `PMEM`: a read after a write to the same place gives the value written,
a write leaves every other place alone, and every operation keeps the canonical form. -/

namespace Sys2Proof.Machine

/-- An entry in front keeps the form when its address lies below every listed one. -/
theorem Memory.wf_cons (d : Nat) (u : Byte) (m : List Host.Cell) :
    Memory.wf ((d, u) :: m) = true ↔
      u ≠ Memory.background ∧ (∀ c ∈ m, d < c.1) ∧ Memory.wf m = true := by
  induction m generalizing d u with
  | nil => simp [Memory.wf]
  | cons e l ih =>
    obtain ⟨e, w⟩ := e
    simp only [Memory.wf, Bool.and_eq_true, bne_iff_ne, ne_eq, decide_eq_true_eq]
    constructor
    · rintro ⟨⟨hu, hd⟩, hw⟩
      refine ⟨hu, fun c hc => ?_, hw⟩
      rcases List.mem_cons.1 hc with rfl | hc
      · exact hd
      · exact lt_trans hd (((ih e w).1 hw).2.1 c hc)
    · rintro ⟨hu, hd, hw⟩
      exact ⟨⟨hu, hd (e, w) List.mem_cons_self⟩, hw⟩

/-- No entry lies below the addresses of a list, so a byte there is the background. -/
theorem Memory.readByte_below (m : List Host.Cell) (x : Nat) (h : ∀ c ∈ m, x < c.1) :
    Memory.readByte m x = Memory.background := by
  induction m with
  | nil => rfl
  | cons c m ih =>
    obtain ⟨d, u⟩ := c
    have hx : x < d := h (d, u) List.mem_cons_self
    simp only [Memory.readByte, if_neg (by omega : ¬ x = d)]
    exact ih fun c hc => h c (List.mem_cons_of_mem _ hc)

/-- A read after a byte write. -/
theorem Memory.readByte_writeByte (m : List Host.Cell) (a b : Nat) (v : Byte)
    (hm : Memory.wf m = true) :
    Memory.readByte (Memory.writeByte m a v) b = if b = a then v else Memory.readByte m b := by
  induction m with
  | nil =>
    by_cases hv : v = Memory.background <;> by_cases hb : b = a <;>
      simp [Memory.writeByte, Memory.readByte, hv, hb]
  | cons c m ih =>
    obtain ⟨d, u⟩ := c
    obtain ⟨-, hd, hw⟩ := (Memory.wf_cons d u m).1 hm
    have hlow : ∀ x, x ≤ d → Memory.readByte m x = Memory.background := fun x hx =>
      Memory.readByte_below m x fun c hc => lt_of_le_of_lt hx (hd c hc)
    simp only [Memory.writeByte]
    rcases lt_trichotomy a d with h1 | h1 | h1
    · have hlow' := hlow a h1.le
      have hne : a ≠ d := h1.ne
      by_cases hv : v = Memory.background <;> by_cases hb : b = a <;>
        simp_all [Memory.readByte]
    · subst h1
      have hlow' := hlow a le_rfl
      by_cases hv : v = Memory.background <;> by_cases hb : b = a <;>
        simp_all [Memory.readByte]
    · simp only [if_neg (by omega : ¬ a < d), if_neg (by omega : ¬ a = d), Memory.readByte, ih hw]
      by_cases hb : b = a
      · subst hb; simp [show b ≠ d by omega]
      · simp [hb]

/-- Every listed address of a byte write is the written one or was listed. -/
theorem Memory.mem_writeByte {m : List Host.Cell} {a : Nat} {v : Byte} {c : Host.Cell}
    (h : c ∈ Memory.writeByte m a v) : c.1 = a ∨ c ∈ m := by
  induction m with
  | nil =>
    simp only [Memory.writeByte] at h
    split at h <;> simp_all
  | cons e m ih =>
    obtain ⟨d, u⟩ := e
    simp only [Memory.writeByte] at h
    split at h
    · split at h
      · exact .inr h
      · rcases List.mem_cons.1 h with rfl | h
        · exact .inl rfl
        · exact .inr h
    · split at h
      · split at h
        · exact .inr (List.mem_cons_of_mem _ h)
        · rcases List.mem_cons.1 h with rfl | h
          · exact .inl rfl
          · exact .inr (List.mem_cons_of_mem _ h)
      · rcases List.mem_cons.1 h with rfl | h
        · exact .inr List.mem_cons_self
        · exact (ih h).imp_right (List.mem_cons_of_mem _)

/-- A byte write keeps the canonical form. -/
theorem Memory.writeByte_wf (m : List Host.Cell) (a : Nat) (v : Byte)
    (hm : Memory.wf m = true) : Memory.wf (Memory.writeByte m a v) = true := by
  induction m with
  | nil =>
    by_cases hv : v = Memory.background <;> simp [Memory.writeByte, hv, Memory.wf]
  | cons c m ih =>
    obtain ⟨d, u⟩ := c
    obtain ⟨hu, hd, hw⟩ := (Memory.wf_cons d u m).1 hm
    simp only [Memory.writeByte]
    rcases lt_trichotomy a d with h1 | h1 | h1
    · by_cases hv : v = Memory.background
      · simp [h1, hv, hm]
      · simp only [h1, hv, if_true, if_false]
        refine (Memory.wf_cons a v _).2 ⟨hv, fun c hc => ?_, hm⟩
        rcases List.mem_cons.1 hc with rfl | hc
        · exact h1
        · exact lt_trans h1 (hd c hc)
    · subst h1
      by_cases hv : v = Memory.background
      · simp [hv, hw]
      · simp only [lt_irrefl, hv, if_true, if_false]
        exact (Memory.wf_cons a v _).2 ⟨hv, hd, hw⟩
    · simp only [if_neg (by omega : ¬ a < d), if_neg (by omega : ¬ a = d)]
      refine (Memory.wf_cons d u _).2 ⟨hu, fun c hc => ?_, ih hw⟩
      rcases Memory.mem_writeByte hc with h | h
      · omega
      · exact hd c h

/-- The two bytes of a pixel, put together again. -/
theorem Memory.bytes_append (v : Pixel) : v.extractLsb' 8 8 ++ v.extractLsb' 0 8 = v := by
  ext i hi
  simp only [BitVec.getElem_append, BitVec.getElem_extractLsb']
  split
  · simp [BitVec.getLsbD_eq_getElem (by omega : i < 16)]
  · rw [show (8 : Nat) + (i - 8) = i by omega, BitVec.getLsbD_eq_getElem (by omega : i < 16)]

/-- A read after a cell write. -/
theorem Memory.readCell_writeCell (m : List Host.Cell) (a b : Nat) (v : Pixel)
    (hm : Memory.wf m = true) :
    Memory.readCell (Memory.writeCell m a v) b = if b = a then v else Memory.readCell m b := by
  have h1 := Memory.writeByte_wf m (2 * a) (v.extractLsb' 0 8) hm
  simp only [Memory.readCell, Memory.writeCell, Memory.readByte_writeByte _ _ _ _ h1,
    Memory.readByte_writeByte _ _ _ _ hm]
  by_cases hb : b = a
  · subst hb
    simp only [if_true, if_neg (by omega : ¬ 2 * b = 2 * b + 1)]
    exact Memory.bytes_append v
  · simp only [if_neg hb, if_neg (by omega : ¬ 2 * b + 1 = 2 * a + 1),
      if_neg (by omega : ¬ 2 * b + 1 = 2 * a), if_neg (by omega : ¬ 2 * b = 2 * a + 1),
      if_neg (by omega : ¬ 2 * b = 2 * a)]

/-- A cell write keeps the canonical form. -/
theorem Memory.writeCell_wf (m : List Host.Cell) (a : Nat) (v : Pixel)
    (hm : Memory.wf m = true) : Memory.wf (Memory.writeCell m a v) = true :=
  Memory.writeByte_wf _ _ _ (Memory.writeByte_wf _ _ _ hm)

theorem Memory.reset_wf (p : Params) : Memory.wf (State.resetWith p).pmem = true := rfl

/-- A host write of a cell, or an engine write, keeps the canonical form. -/
theorem memWrite_wf {s t : State} {a : Nat} {v : Pixel} (h : memWrite s a v = some t)
    (hm : Memory.wf s.pmem = true) : Memory.wf t.pmem = true := by
  unfold memWrite at h
  split at h
  · cases h; exact Memory.writeCell_wf _ _ _ hm
  · cases h

/-- What a memory write does when it is answered. -/
theorem memWrite_some {s t : State} {a : Nat} {v : Pixel} :
    memWrite s a v = some t ↔
      s.cfg.pmemValid a = true ∧ t = { s with pmem := Memory.writeCell s.pmem a v } := by
  cases h : s.cfg.pmemValid a <;> simp [memWrite, h, eq_comm]

/-- What a memory read answers. -/
theorem memRead_some {s : State} {a : Nat} {p : Pixel} :
    memRead s a = some p ↔ s.cfg.pmemValid a = true ∧ p = Memory.readCell s.pmem a := by
  cases h : s.cfg.pmemValid a <;> simp [memRead, h, eq_comm]

theorem memRead_none {s : State} {a : Nat} : memRead s a = none ↔ s.cfg.pmemValid a = false := by
  cases h : s.cfg.pmemValid a <;> simp [memRead, h]

/-- A run of cells has no invalid address exactly when each exists. -/
theorem firstInvalid_none {c : Params} {a n : Nat} :
    firstInvalid c a n = none ↔ CellsValid c a n := by
  simp [firstInvalid, CellsValid, List.find?_eq_none]

theorem Memory.readCells_length (m : List Host.Cell) (a n : Nat) :
    (Memory.readCells m a n).length = n := by
  simp [Memory.readCells]

theorem Memory.readCells_succ (m : List Host.Cell) (a n : Nat) :
    Memory.readCells m a (n + 1) = Memory.readCells m a n ++ [Memory.readCell m (a + n)] := by
  simp [Memory.readCells, List.range_succ]

end Sys2Proof.Machine
end

