-- ==== Sys2Proof/Laws/State.lean ====
section
/-! SUPPORT. What each named update of the state does to each field. -/

namespace Sys2Proof.Machine

/-! ## emit -/

@[simp] theorem emit_cfg (s : State) (bs : List Byte) : (emit s bs).cfg = s.cfg := rfl
@[simp] theorem emit_w (s : State) (bs : List Byte) : (emit s bs).w = s.w := rfl
@[simp] theorem emit_bitlen (s : State) (bs : List Byte) : (emit s bs).bitlen = s.bitlen := rfl
@[simp] theorem emit_data (s : State) (bs : List Byte) : (emit s bs).data = s.data := rfl
@[simp] theorem emit_wr (s : State) (bs : List Byte) : (emit s bs).wr = s.wr := rfl
@[simp] theorem emit_opr (s : State) (bs : List Byte) : (emit s bs).opr = s.opr := rfl
@[simp] theorem emit_eng (s : State) (bs : List Byte) : (emit s bs).eng = s.eng := rfl
@[simp] theorem emit_loc (s : State) (bs : List Byte) : (emit s bs).loc = s.loc := rfl
@[simp] theorem emit_busy (s : State) (bs : List Byte) : (emit s bs).busy = s.busy := rfl
@[simp] theorem emit_dmaEn (s : State) (bs : List Byte) : (emit s bs).dmaEn = s.dmaEn := rfl
@[simp] theorem emit_fatal (s : State) (bs : List Byte) : (emit s bs).fatal = s.fatal := rfl
@[simp] theorem emit_faultCause (s : State) (bs : List Byte) : (emit s bs).faultCause = s.faultCause := rfl
@[simp] theorem emit_result (s : State) (bs : List Byte) : (emit s bs).result = s.result := rfl
@[simp] theorem emit_dc (s : State) (bs : List Byte) : (emit s bs).dc = s.dc := rfl
@[simp] theorem emit_swap (s : State) (bs : List Byte) : (emit s bs).swap = s.swap := rfl
@[simp] theorem emit_pending (s : State) (bs : List Byte) : (emit s bs).pending = s.pending := rfl
@[simp] theorem emit_qHandle (s : State) (bs : List Byte) : (emit s bs).qHandle = s.qHandle := rfl
@[simp] theorem emit_queue (s : State) (bs : List Byte) : (emit s bs).queue = s.queue := rfl
@[simp] theorem emit_compl (s : State) (bs : List Byte) : (emit s bs).compl = s.compl := rfl
@[simp] theorem emit_nperf (s : State) (bs : List Byte) : (emit s bs).nperf = s.nperf := rfl
@[simp] theorem emit_xlog (s : State) (bs : List Byte) : (emit s bs).xlog = s.xlog := rfl
@[simp] theorem emit_wire (s : State) (bs : List Byte) : (emit s bs).wire = s.wire ++ bs.map fun b => (s.dc, b) := rfl
@[simp] theorem emit_pmem (s : State) (bs : List Byte) : (emit s bs).pmem = s.pmem := rfl
@[simp] theorem emit_done (s : State) (bs : List Byte) : (emit s bs).done = s.done := rfl
@[simp] theorem emit_port (s : State) (bs : List Byte) : (emit s bs).port = s.port := rfl
@[simp] theorem emit_rdata (s : State) (bs : List Byte) : (emit s bs).rdata = s.rdata := rfl
@[simp] theorem emit_mdata (s : State) (bs : List Byte) : (emit s bs).mdata = s.mdata := rfl
@[simp] theorem emit_sched (s : State) (bs : List Byte) : (emit s bs).sched = s.sched := rfl
@[simp] theorem emit_acqIn (s : State) (bs : List Byte) : (emit s bs).acqIn = s.acqIn := rfl
@[simp] theorem emit_qIn (s : State) (bs : List Byte) : (emit s bs).qIn = s.qIn := rfl
@[simp] theorem emit_draws (s : State) (bs : List Byte) : (emit s bs).draws = s.draws := rfl

/-! ## setReg -/

@[simp] theorem setReg_cfg (s : State) (i : Nat) (v : Word) : (setReg s i v).cfg = s.cfg := rfl
@[simp] theorem setReg_w (s : State) (i : Nat) (v : Word) : (setReg s i v).w = s.w.setIfInBounds i v := rfl
@[simp] theorem setReg_bitlen (s : State) (i : Nat) (v : Word) : (setReg s i v).bitlen = s.bitlen := rfl
@[simp] theorem setReg_data (s : State) (i : Nat) (v : Word) : (setReg s i v).data = s.data := rfl
@[simp] theorem setReg_wr (s : State) (i : Nat) (v : Word) : (setReg s i v).wr = s.wr := rfl
@[simp] theorem setReg_opr (s : State) (i : Nat) (v : Word) : (setReg s i v).opr = s.opr := rfl
@[simp] theorem setReg_eng (s : State) (i : Nat) (v : Word) : (setReg s i v).eng = s.eng := rfl
@[simp] theorem setReg_loc (s : State) (i : Nat) (v : Word) : (setReg s i v).loc = s.loc := rfl
@[simp] theorem setReg_busy (s : State) (i : Nat) (v : Word) : (setReg s i v).busy = s.busy := rfl
@[simp] theorem setReg_dmaEn (s : State) (i : Nat) (v : Word) : (setReg s i v).dmaEn = s.dmaEn := rfl
@[simp] theorem setReg_fatal (s : State) (i : Nat) (v : Word) : (setReg s i v).fatal = s.fatal := rfl
@[simp] theorem setReg_faultCause (s : State) (i : Nat) (v : Word) : (setReg s i v).faultCause = s.faultCause := rfl
@[simp] theorem setReg_result (s : State) (i : Nat) (v : Word) : (setReg s i v).result = s.result := rfl
@[simp] theorem setReg_dc (s : State) (i : Nat) (v : Word) : (setReg s i v).dc = s.dc := rfl
@[simp] theorem setReg_swap (s : State) (i : Nat) (v : Word) : (setReg s i v).swap = s.swap := rfl
@[simp] theorem setReg_pending (s : State) (i : Nat) (v : Word) : (setReg s i v).pending = s.pending := rfl
@[simp] theorem setReg_qHandle (s : State) (i : Nat) (v : Word) : (setReg s i v).qHandle = s.qHandle := rfl
@[simp] theorem setReg_queue (s : State) (i : Nat) (v : Word) : (setReg s i v).queue = s.queue := rfl
@[simp] theorem setReg_compl (s : State) (i : Nat) (v : Word) : (setReg s i v).compl = s.compl := rfl
@[simp] theorem setReg_nperf (s : State) (i : Nat) (v : Word) : (setReg s i v).nperf = s.nperf := rfl
@[simp] theorem setReg_xlog (s : State) (i : Nat) (v : Word) : (setReg s i v).xlog = s.xlog := rfl
@[simp] theorem setReg_wire (s : State) (i : Nat) (v : Word) : (setReg s i v).wire = s.wire := rfl
@[simp] theorem setReg_pmem (s : State) (i : Nat) (v : Word) : (setReg s i v).pmem = s.pmem := rfl
@[simp] theorem setReg_done (s : State) (i : Nat) (v : Word) : (setReg s i v).done = s.done := rfl
@[simp] theorem setReg_port (s : State) (i : Nat) (v : Word) : (setReg s i v).port = s.port := rfl
@[simp] theorem setReg_rdata (s : State) (i : Nat) (v : Word) : (setReg s i v).rdata = s.rdata := rfl
@[simp] theorem setReg_mdata (s : State) (i : Nat) (v : Word) : (setReg s i v).mdata = s.mdata := rfl
@[simp] theorem setReg_sched (s : State) (i : Nat) (v : Word) : (setReg s i v).sched = s.sched := rfl
@[simp] theorem setReg_acqIn (s : State) (i : Nat) (v : Word) : (setReg s i v).acqIn = s.acqIn := rfl
@[simp] theorem setReg_qIn (s : State) (i : Nat) (v : Word) : (setReg s i v).qIn = s.qIn := rfl
@[simp] theorem setReg_draws (s : State) (i : Nat) (v : Word) : (setReg s i v).draws = s.draws := rfl

/-! ## startTransfer -/

@[simp] theorem startTransfer_cfg (s : State) : (startTransfer s).cfg = s.cfg := rfl
@[simp] theorem startTransfer_w (s : State) : (startTransfer s).w = s.w := rfl
@[simp] theorem startTransfer_bitlen (s : State) : (startTransfer s).bitlen = s.bitlen := rfl
@[simp] theorem startTransfer_data (s : State) : (startTransfer s).data = s.data := rfl
@[simp] theorem startTransfer_wr (s : State) : (startTransfer s).wr = s.wr := rfl
@[simp] theorem startTransfer_opr (s : State) : (startTransfer s).opr = s.opr := rfl
@[simp] theorem startTransfer_eng (s : State) : (startTransfer s).eng = s.eng := rfl
@[simp] theorem startTransfer_loc (s : State) : (startTransfer s).loc = s.loc := rfl
@[simp] theorem startTransfer_busy (s : State) : (startTransfer s).busy = true := rfl
@[simp] theorem startTransfer_dmaEn (s : State) : (startTransfer s).dmaEn = s.dmaEn := rfl
@[simp] theorem startTransfer_fatal (s : State) : (startTransfer s).fatal = s.fatal := rfl
@[simp] theorem startTransfer_faultCause (s : State) : (startTransfer s).faultCause = s.faultCause := rfl
@[simp] theorem startTransfer_result (s : State) : (startTransfer s).result = s.result := rfl
@[simp] theorem startTransfer_dc (s : State) : (startTransfer s).dc = s.dc := rfl
@[simp] theorem startTransfer_swap (s : State) : (startTransfer s).swap = s.swap := rfl
@[simp] theorem startTransfer_pending (s : State) : (startTransfer s).pending = s.pending := rfl
@[simp] theorem startTransfer_qHandle (s : State) : (startTransfer s).qHandle = s.qHandle := rfl
@[simp] theorem startTransfer_queue (s : State) : (startTransfer s).queue = s.queue := rfl
@[simp] theorem startTransfer_compl (s : State) : (startTransfer s).compl = s.compl := rfl
@[simp] theorem startTransfer_nperf (s : State) : (startTransfer s).nperf = s.nperf := rfl
@[simp] theorem startTransfer_xlog (s : State) : (startTransfer s).xlog = s.xlog ++ [s.bitlen] := rfl
@[simp] theorem startTransfer_wire (s : State) : (startTransfer s).wire = s.wire := rfl
@[simp] theorem startTransfer_pmem (s : State) : (startTransfer s).pmem = s.pmem := rfl
@[simp] theorem startTransfer_done (s : State) : (startTransfer s).done = s.done := rfl
@[simp] theorem startTransfer_port (s : State) : (startTransfer s).port = s.port := rfl
@[simp] theorem startTransfer_rdata (s : State) : (startTransfer s).rdata = s.rdata := rfl
@[simp] theorem startTransfer_mdata (s : State) : (startTransfer s).mdata = s.mdata := rfl
@[simp] theorem startTransfer_sched (s : State) : (startTransfer s).sched = s.sched := rfl
@[simp] theorem startTransfer_acqIn (s : State) : (startTransfer s).acqIn = s.acqIn := rfl
@[simp] theorem startTransfer_qIn (s : State) : (startTransfer s).qIn = s.qIn := rfl
@[simp] theorem startTransfer_draws (s : State) : (startTransfer s).draws = s.draws := rfl

/-! ## strobeEnd -/

@[simp] theorem strobeEnd_cfg (s : State) : (strobeEnd s).cfg = s.cfg := rfl
@[simp] theorem strobeEnd_w (s : State) : (strobeEnd s).w = s.w := rfl
@[simp] theorem strobeEnd_bitlen (s : State) : (strobeEnd s).bitlen = s.bitlen := rfl
@[simp] theorem strobeEnd_data (s : State) : (strobeEnd s).data = s.data := rfl
@[simp] theorem strobeEnd_wr (s : State) : (strobeEnd s).wr = true := rfl
@[simp] theorem strobeEnd_opr (s : State) : (strobeEnd s).opr = s.opr := rfl
@[simp] theorem strobeEnd_eng (s : State) : (strobeEnd s).eng = s.eng := rfl
@[simp] theorem strobeEnd_loc (s : State) : (strobeEnd s).loc = s.loc := rfl
@[simp] theorem strobeEnd_busy (s : State) : (strobeEnd s).busy = s.busy := rfl
@[simp] theorem strobeEnd_dmaEn (s : State) : (strobeEnd s).dmaEn = s.dmaEn := rfl
@[simp] theorem strobeEnd_fatal (s : State) : (strobeEnd s).fatal = s.fatal := rfl
@[simp] theorem strobeEnd_faultCause (s : State) : (strobeEnd s).faultCause = s.faultCause := rfl
@[simp] theorem strobeEnd_result (s : State) : (strobeEnd s).result = s.result := rfl
@[simp] theorem strobeEnd_dc (s : State) : (strobeEnd s).dc = s.dc := rfl
@[simp] theorem strobeEnd_swap (s : State) : (strobeEnd s).swap = s.swap := rfl
@[simp] theorem strobeEnd_pending (s : State) : (strobeEnd s).pending = s.pending := rfl
@[simp] theorem strobeEnd_qHandle (s : State) : (strobeEnd s).qHandle = s.qHandle := rfl
@[simp] theorem strobeEnd_queue (s : State) : (strobeEnd s).queue = s.queue := rfl
@[simp] theorem strobeEnd_compl (s : State) : (strobeEnd s).compl = s.compl := rfl
@[simp] theorem strobeEnd_nperf (s : State) : (strobeEnd s).nperf = s.nperf := rfl
@[simp] theorem strobeEnd_xlog (s : State) : (strobeEnd s).xlog = s.xlog := rfl
@[simp] theorem strobeEnd_wire (s : State) : (strobeEnd s).wire = s.wire ++ [(s.dc, s.data)] := rfl
@[simp] theorem strobeEnd_pmem (s : State) : (strobeEnd s).pmem = s.pmem := rfl
@[simp] theorem strobeEnd_done (s : State) : (strobeEnd s).done = s.done := rfl
@[simp] theorem strobeEnd_port (s : State) : (strobeEnd s).port = s.port := rfl
@[simp] theorem strobeEnd_rdata (s : State) : (strobeEnd s).rdata = s.rdata := rfl
@[simp] theorem strobeEnd_mdata (s : State) : (strobeEnd s).mdata = s.mdata := rfl
@[simp] theorem strobeEnd_sched (s : State) : (strobeEnd s).sched = s.sched := rfl
@[simp] theorem strobeEnd_acqIn (s : State) : (strobeEnd s).acqIn = s.acqIn := rfl
@[simp] theorem strobeEnd_qIn (s : State) : (strobeEnd s).qIn = s.qIn := rfl
@[simp] theorem strobeEnd_draws (s : State) : (strobeEnd s).draws = s.draws := rfl

/-! ## performTx -/

@[simp] theorem performTx_cfg (t : Transaction) (s : State) : (performTx t s).cfg = s.cfg := rfl
@[simp] theorem performTx_w (t : Transaction) (s : State) : (performTx t s).w = s.w := rfl
@[simp] theorem performTx_bitlen (t : Transaction) (s : State) : (performTx t s).bitlen = s.bitlen := rfl
@[simp] theorem performTx_data (t : Transaction) (s : State) : (performTx t s).data = s.data := rfl
@[simp] theorem performTx_wr (t : Transaction) (s : State) : (performTx t s).wr = s.wr := rfl
@[simp] theorem performTx_opr (t : Transaction) (s : State) : (performTx t s).opr = s.opr := rfl
@[simp] theorem performTx_eng (t : Transaction) (s : State) : (performTx t s).eng = s.eng := rfl
@[simp] theorem performTx_loc (t : Transaction) (s : State) : (performTx t s).loc = s.loc := rfl
@[simp] theorem performTx_busy (t : Transaction) (s : State) : (performTx t s).busy = s.busy := rfl
@[simp] theorem performTx_dmaEn (t : Transaction) (s : State) : (performTx t s).dmaEn = s.dmaEn := rfl
@[simp] theorem performTx_fatal (t : Transaction) (s : State) : (performTx t s).fatal = s.fatal := rfl
@[simp] theorem performTx_faultCause (t : Transaction) (s : State) : (performTx t s).faultCause = s.faultCause := rfl
@[simp] theorem performTx_result (t : Transaction) (s : State) : (performTx t s).result = s.result := rfl
@[simp] theorem performTx_dc (t : Transaction) (s : State) : (performTx t s).dc = t.tag := rfl
@[simp] theorem performTx_swap (t : Transaction) (s : State) : (performTx t s).swap = s.swap := rfl
@[simp] theorem performTx_pending (t : Transaction) (s : State) : (performTx t s).pending = s.pending := rfl
@[simp] theorem performTx_qHandle (t : Transaction) (s : State) : (performTx t s).qHandle = s.qHandle := rfl
@[simp] theorem performTx_queue (t : Transaction) (s : State) : (performTx t s).queue = s.queue := rfl
@[simp] theorem performTx_compl (t : Transaction) (s : State) : (performTx t s).compl = s.compl ++ [t] := rfl
@[simp] theorem performTx_nperf (t : Transaction) (s : State) : (performTx t s).nperf = s.nperf + 1 := rfl
@[simp] theorem performTx_xlog (t : Transaction) (s : State) : (performTx t s).xlog = s.xlog := rfl
@[simp] theorem performTx_wire (t : Transaction) (s : State) : (performTx t s).wire = s.wire ++ txWire s.cfg s.pmem t := rfl
@[simp] theorem performTx_pmem (t : Transaction) (s : State) : (performTx t s).pmem = s.pmem := rfl
@[simp] theorem performTx_done (t : Transaction) (s : State) : (performTx t s).done = s.done := rfl
@[simp] theorem performTx_port (t : Transaction) (s : State) : (performTx t s).port = s.port := rfl
@[simp] theorem performTx_rdata (t : Transaction) (s : State) : (performTx t s).rdata = s.rdata := rfl
@[simp] theorem performTx_mdata (t : Transaction) (s : State) : (performTx t s).mdata = s.mdata := rfl
@[simp] theorem performTx_sched (t : Transaction) (s : State) : (performTx t s).sched = s.sched := rfl
@[simp] theorem performTx_acqIn (t : Transaction) (s : State) : (performTx t s).acqIn = s.acqIn := rfl
@[simp] theorem performTx_qIn (t : Transaction) (s : State) : (performTx t s).qIn = s.qIn := rfl
@[simp] theorem performTx_draws (t : Transaction) (s : State) : (performTx t s).draws = s.draws := rfl

/-! ## appendTx -/

@[simp] theorem appendTx_cfg (t : Transaction) (s : State) : (appendTx t s).cfg = s.cfg := rfl
@[simp] theorem appendTx_w (t : Transaction) (s : State) : (appendTx t s).w = s.w := rfl
@[simp] theorem appendTx_bitlen (t : Transaction) (s : State) : (appendTx t s).bitlen = s.bitlen := rfl
@[simp] theorem appendTx_data (t : Transaction) (s : State) : (appendTx t s).data = s.data := rfl
@[simp] theorem appendTx_wr (t : Transaction) (s : State) : (appendTx t s).wr = s.wr := rfl
@[simp] theorem appendTx_opr (t : Transaction) (s : State) : (appendTx t s).opr = s.opr := rfl
@[simp] theorem appendTx_eng (t : Transaction) (s : State) : (appendTx t s).eng = s.eng := rfl
@[simp] theorem appendTx_loc (t : Transaction) (s : State) : (appendTx t s).loc = s.loc := rfl
@[simp] theorem appendTx_busy (t : Transaction) (s : State) : (appendTx t s).busy = s.busy := rfl
@[simp] theorem appendTx_dmaEn (t : Transaction) (s : State) : (appendTx t s).dmaEn = s.dmaEn := rfl
@[simp] theorem appendTx_fatal (t : Transaction) (s : State) : (appendTx t s).fatal = s.fatal := rfl
@[simp] theorem appendTx_faultCause (t : Transaction) (s : State) : (appendTx t s).faultCause = s.faultCause := rfl
@[simp] theorem appendTx_result (t : Transaction) (s : State) : (appendTx t s).result = s.result := rfl
@[simp] theorem appendTx_dc (t : Transaction) (s : State) : (appendTx t s).dc = s.dc := rfl
@[simp] theorem appendTx_swap (t : Transaction) (s : State) : (appendTx t s).swap = s.swap := rfl
@[simp] theorem appendTx_pending (t : Transaction) (s : State) : (appendTx t s).pending = s.pending := rfl
@[simp] theorem appendTx_qHandle (t : Transaction) (s : State) : (appendTx t s).qHandle = s.qHandle := rfl
@[simp] theorem appendTx_queue (t : Transaction) (s : State) : (appendTx t s).queue = s.queue ++ [t] := rfl
@[simp] theorem appendTx_compl (t : Transaction) (s : State) : (appendTx t s).compl = s.compl := rfl
@[simp] theorem appendTx_nperf (t : Transaction) (s : State) : (appendTx t s).nperf = s.nperf := rfl
@[simp] theorem appendTx_xlog (t : Transaction) (s : State) : (appendTx t s).xlog = s.xlog := rfl
@[simp] theorem appendTx_wire (t : Transaction) (s : State) : (appendTx t s).wire = s.wire := rfl
@[simp] theorem appendTx_pmem (t : Transaction) (s : State) : (appendTx t s).pmem = s.pmem := rfl
@[simp] theorem appendTx_done (t : Transaction) (s : State) : (appendTx t s).done = s.done := rfl
@[simp] theorem appendTx_port (t : Transaction) (s : State) : (appendTx t s).port = s.port := rfl
@[simp] theorem appendTx_rdata (t : Transaction) (s : State) : (appendTx t s).rdata = s.rdata := rfl
@[simp] theorem appendTx_mdata (t : Transaction) (s : State) : (appendTx t s).mdata = s.mdata := rfl
@[simp] theorem appendTx_sched (t : Transaction) (s : State) : (appendTx t s).sched = s.sched := rfl
@[simp] theorem appendTx_acqIn (t : Transaction) (s : State) : (appendTx t s).acqIn = s.acqIn := rfl
@[simp] theorem appendTx_qIn (t : Transaction) (s : State) : (appendTx t s).qIn = s.qIn := rfl
@[simp] theorem appendTx_draws (t : Transaction) (s : State) : (appendTx t s).draws = s.draws := rfl

/-! ## takeCompletion -/

@[simp] theorem takeCompletion_cfg (s : State) : (takeCompletion s).cfg = s.cfg := rfl
@[simp] theorem takeCompletion_w (s : State) : (takeCompletion s).w = s.w := rfl
@[simp] theorem takeCompletion_bitlen (s : State) : (takeCompletion s).bitlen = s.bitlen := rfl
@[simp] theorem takeCompletion_data (s : State) : (takeCompletion s).data = s.data := rfl
@[simp] theorem takeCompletion_wr (s : State) : (takeCompletion s).wr = s.wr := rfl
@[simp] theorem takeCompletion_opr (s : State) : (takeCompletion s).opr = s.opr := rfl
@[simp] theorem takeCompletion_eng (s : State) : (takeCompletion s).eng = s.eng := rfl
@[simp] theorem takeCompletion_loc (s : State) : (takeCompletion s).loc = s.loc := rfl
@[simp] theorem takeCompletion_busy (s : State) : (takeCompletion s).busy = s.busy := rfl
@[simp] theorem takeCompletion_dmaEn (s : State) : (takeCompletion s).dmaEn = s.dmaEn := rfl
@[simp] theorem takeCompletion_fatal (s : State) : (takeCompletion s).fatal = s.fatal := rfl
@[simp] theorem takeCompletion_faultCause (s : State) : (takeCompletion s).faultCause = s.faultCause := rfl
@[simp] theorem takeCompletion_result (s : State) : (takeCompletion s).result = s.result := rfl
@[simp] theorem takeCompletion_dc (s : State) : (takeCompletion s).dc = s.dc := rfl
@[simp] theorem takeCompletion_swap (s : State) : (takeCompletion s).swap = s.swap := rfl
@[simp] theorem takeCompletion_pending (s : State) : (takeCompletion s).pending = s.pending - 1 := rfl
@[simp] theorem takeCompletion_qHandle (s : State) : (takeCompletion s).qHandle = s.qHandle := rfl
@[simp] theorem takeCompletion_queue (s : State) : (takeCompletion s).queue = s.queue := rfl
@[simp] theorem takeCompletion_compl (s : State) : (takeCompletion s).compl = s.compl.tail := rfl
@[simp] theorem takeCompletion_nperf (s : State) : (takeCompletion s).nperf = s.nperf := rfl
@[simp] theorem takeCompletion_xlog (s : State) : (takeCompletion s).xlog = s.xlog := rfl
@[simp] theorem takeCompletion_wire (s : State) : (takeCompletion s).wire = s.wire := rfl
@[simp] theorem takeCompletion_pmem (s : State) : (takeCompletion s).pmem = s.pmem := rfl
@[simp] theorem takeCompletion_done (s : State) : (takeCompletion s).done = s.done := rfl
@[simp] theorem takeCompletion_port (s : State) : (takeCompletion s).port = s.port := rfl
@[simp] theorem takeCompletion_rdata (s : State) : (takeCompletion s).rdata = s.rdata := rfl
@[simp] theorem takeCompletion_mdata (s : State) : (takeCompletion s).mdata = s.mdata := rfl
@[simp] theorem takeCompletion_sched (s : State) : (takeCompletion s).sched = s.sched := rfl
@[simp] theorem takeCompletion_acqIn (s : State) : (takeCompletion s).acqIn = s.acqIn := rfl
@[simp] theorem takeCompletion_qIn (s : State) : (takeCompletion s).qIn = s.qIn := rfl
@[simp] theorem takeCompletion_draws (s : State) : (takeCompletion s).draws = s.draws := rfl

/-! ## raiseFatal -/

@[simp] theorem raiseFatal_cfg (c : Cause) (s : State) : (raiseFatal c s).cfg = s.cfg := rfl
@[simp] theorem raiseFatal_w (c : Cause) (s : State) : (raiseFatal c s).w = s.w := rfl
@[simp] theorem raiseFatal_bitlen (c : Cause) (s : State) : (raiseFatal c s).bitlen = s.bitlen := rfl
@[simp] theorem raiseFatal_data (c : Cause) (s : State) : (raiseFatal c s).data = s.data := rfl
@[simp] theorem raiseFatal_wr (c : Cause) (s : State) : (raiseFatal c s).wr = s.wr := rfl
@[simp] theorem raiseFatal_opr (c : Cause) (s : State) : (raiseFatal c s).opr = s.opr := rfl
@[simp] theorem raiseFatal_eng (c : Cause) (s : State) : (raiseFatal c s).eng = .halt := rfl
@[simp] theorem raiseFatal_loc (c : Cause) (s : State) : (raiseFatal c s).loc = s.loc := rfl
@[simp] theorem raiseFatal_busy (c : Cause) (s : State) : (raiseFatal c s).busy = s.busy := rfl
@[simp] theorem raiseFatal_dmaEn (c : Cause) (s : State) : (raiseFatal c s).dmaEn = s.dmaEn := rfl
@[simp] theorem raiseFatal_fatal (c : Cause) (s : State) : (raiseFatal c s).fatal = true := rfl
@[simp] theorem raiseFatal_faultCause (c : Cause) (s : State) : (raiseFatal c s).faultCause = c.code := rfl
@[simp] theorem raiseFatal_result (c : Cause) (s : State) : (raiseFatal c s).result = s.result := rfl
@[simp] theorem raiseFatal_dc (c : Cause) (s : State) : (raiseFatal c s).dc = s.dc := rfl
@[simp] theorem raiseFatal_swap (c : Cause) (s : State) : (raiseFatal c s).swap = s.swap := rfl
@[simp] theorem raiseFatal_pending (c : Cause) (s : State) : (raiseFatal c s).pending = s.pending := rfl
@[simp] theorem raiseFatal_qHandle (c : Cause) (s : State) : (raiseFatal c s).qHandle = s.qHandle := rfl
@[simp] theorem raiseFatal_queue (c : Cause) (s : State) : (raiseFatal c s).queue = s.queue := rfl
@[simp] theorem raiseFatal_compl (c : Cause) (s : State) : (raiseFatal c s).compl = s.compl := rfl
@[simp] theorem raiseFatal_nperf (c : Cause) (s : State) : (raiseFatal c s).nperf = s.nperf := rfl
@[simp] theorem raiseFatal_xlog (c : Cause) (s : State) : (raiseFatal c s).xlog = s.xlog := rfl
@[simp] theorem raiseFatal_wire (c : Cause) (s : State) : (raiseFatal c s).wire = s.wire := rfl
@[simp] theorem raiseFatal_pmem (c : Cause) (s : State) : (raiseFatal c s).pmem = s.pmem := rfl
@[simp] theorem raiseFatal_done (c : Cause) (s : State) : (raiseFatal c s).done = s.done := rfl
@[simp] theorem raiseFatal_port (c : Cause) (s : State) : (raiseFatal c s).port = s.port := rfl
@[simp] theorem raiseFatal_rdata (c : Cause) (s : State) : (raiseFatal c s).rdata = s.rdata := rfl
@[simp] theorem raiseFatal_mdata (c : Cause) (s : State) : (raiseFatal c s).mdata = s.mdata := rfl
@[simp] theorem raiseFatal_sched (c : Cause) (s : State) : (raiseFatal c s).sched = s.sched := rfl
@[simp] theorem raiseFatal_acqIn (c : Cause) (s : State) : (raiseFatal c s).acqIn = s.acqIn := rfl
@[simp] theorem raiseFatal_qIn (c : Cause) (s : State) : (raiseFatal c s).qIn = s.qIn := rfl
@[simp] theorem raiseFatal_draws (c : Cause) (s : State) : (raiseFatal c s).draws = s.draws := rfl

/-! ## beginOp -/

@[simp] theorem beginOp_cfg (i : Instr) (ops : List MicroOp) (ret : Option Bool) (s : State) : (beginOp i ops ret s).cfg = s.cfg := rfl
@[simp] theorem beginOp_w (i : Instr) (ops : List MicroOp) (ret : Option Bool) (s : State) : (beginOp i ops ret s).w = s.w := rfl
@[simp] theorem beginOp_bitlen (i : Instr) (ops : List MicroOp) (ret : Option Bool) (s : State) : (beginOp i ops ret s).bitlen = s.bitlen := rfl
@[simp] theorem beginOp_data (i : Instr) (ops : List MicroOp) (ret : Option Bool) (s : State) : (beginOp i ops ret s).data = s.data := rfl
@[simp] theorem beginOp_wr (i : Instr) (ops : List MicroOp) (ret : Option Bool) (s : State) : (beginOp i ops ret s).wr = s.wr := rfl
@[simp] theorem beginOp_opr (i : Instr) (ops : List MicroOp) (ret : Option Bool) (s : State) : (beginOp i ops ret s).opr = latch i s.opr := rfl
@[simp] theorem beginOp_eng (i : Instr) (ops : List MicroOp) (ret : Option Bool) (s : State) : (beginOp i ops ret s).eng = .run 0 ops ret := rfl
@[simp] theorem beginOp_loc (i : Instr) (ops : List MicroOp) (ret : Option Bool) (s : State) : (beginOp i ops ret s).loc = s.loc := rfl
@[simp] theorem beginOp_busy (i : Instr) (ops : List MicroOp) (ret : Option Bool) (s : State) : (beginOp i ops ret s).busy = s.busy := rfl
@[simp] theorem beginOp_dmaEn (i : Instr) (ops : List MicroOp) (ret : Option Bool) (s : State) : (beginOp i ops ret s).dmaEn = s.dmaEn := rfl
@[simp] theorem beginOp_fatal (i : Instr) (ops : List MicroOp) (ret : Option Bool) (s : State) : (beginOp i ops ret s).fatal = s.fatal := rfl
@[simp] theorem beginOp_faultCause (i : Instr) (ops : List MicroOp) (ret : Option Bool) (s : State) : (beginOp i ops ret s).faultCause = s.faultCause := rfl
@[simp] theorem beginOp_result (i : Instr) (ops : List MicroOp) (ret : Option Bool) (s : State) : (beginOp i ops ret s).result = s.result := rfl
@[simp] theorem beginOp_dc (i : Instr) (ops : List MicroOp) (ret : Option Bool) (s : State) : (beginOp i ops ret s).dc = s.dc := rfl
@[simp] theorem beginOp_swap (i : Instr) (ops : List MicroOp) (ret : Option Bool) (s : State) : (beginOp i ops ret s).swap = s.swap := rfl
@[simp] theorem beginOp_pending (i : Instr) (ops : List MicroOp) (ret : Option Bool) (s : State) : (beginOp i ops ret s).pending = s.pending := rfl
@[simp] theorem beginOp_qHandle (i : Instr) (ops : List MicroOp) (ret : Option Bool) (s : State) : (beginOp i ops ret s).qHandle = s.qHandle := rfl
@[simp] theorem beginOp_queue (i : Instr) (ops : List MicroOp) (ret : Option Bool) (s : State) : (beginOp i ops ret s).queue = s.queue := rfl
@[simp] theorem beginOp_compl (i : Instr) (ops : List MicroOp) (ret : Option Bool) (s : State) : (beginOp i ops ret s).compl = s.compl := rfl
@[simp] theorem beginOp_nperf (i : Instr) (ops : List MicroOp) (ret : Option Bool) (s : State) : (beginOp i ops ret s).nperf = s.nperf := rfl
@[simp] theorem beginOp_xlog (i : Instr) (ops : List MicroOp) (ret : Option Bool) (s : State) : (beginOp i ops ret s).xlog = s.xlog := rfl
@[simp] theorem beginOp_wire (i : Instr) (ops : List MicroOp) (ret : Option Bool) (s : State) : (beginOp i ops ret s).wire = s.wire := rfl
@[simp] theorem beginOp_pmem (i : Instr) (ops : List MicroOp) (ret : Option Bool) (s : State) : (beginOp i ops ret s).pmem = s.pmem := rfl
@[simp] theorem beginOp_done (i : Instr) (ops : List MicroOp) (ret : Option Bool) (s : State) : (beginOp i ops ret s).done = false := rfl
@[simp] theorem beginOp_port (i : Instr) (ops : List MicroOp) (ret : Option Bool) (s : State) : (beginOp i ops ret s).port = s.port := rfl
@[simp] theorem beginOp_rdata (i : Instr) (ops : List MicroOp) (ret : Option Bool) (s : State) : (beginOp i ops ret s).rdata = s.rdata := rfl
@[simp] theorem beginOp_mdata (i : Instr) (ops : List MicroOp) (ret : Option Bool) (s : State) : (beginOp i ops ret s).mdata = s.mdata := rfl
@[simp] theorem beginOp_sched (i : Instr) (ops : List MicroOp) (ret : Option Bool) (s : State) : (beginOp i ops ret s).sched = s.sched := rfl
@[simp] theorem beginOp_acqIn (i : Instr) (ops : List MicroOp) (ret : Option Bool) (s : State) : (beginOp i ops ret s).acqIn = s.acqIn := rfl
@[simp] theorem beginOp_qIn (i : Instr) (ops : List MicroOp) (ret : Option Bool) (s : State) : (beginOp i ops ret s).qIn = s.qIn := rfl
@[simp] theorem beginOp_draws (i : Instr) (ops : List MicroOp) (ret : Option Bool) (s : State) : (beginOp i ops ret s).draws = s.draws := rfl

/-! ## resetFrom -/

@[simp] theorem resetFrom_cfg (s : State) : (resetFrom s).cfg = s.cfg := rfl
@[simp] theorem resetFrom_w (s : State) : (resetFrom s).w = Vector.replicate 16 0 := rfl
@[simp] theorem resetFrom_bitlen (s : State) : (resetFrom s).bitlen = 0 := rfl
@[simp] theorem resetFrom_data (s : State) : (resetFrom s).data = 0 := rfl
@[simp] theorem resetFrom_wr (s : State) : (resetFrom s).wr = true := rfl
@[simp] theorem resetFrom_opr (s : State) : (resetFrom s).opr = Opr.zero := rfl
@[simp] theorem resetFrom_eng (s : State) : (resetFrom s).eng = .idle := rfl
@[simp] theorem resetFrom_loc (s : State) : (resetFrom s).loc = 0 := rfl
@[simp] theorem resetFrom_busy (s : State) : (resetFrom s).busy = false := rfl
@[simp] theorem resetFrom_dmaEn (s : State) : (resetFrom s).dmaEn = false := rfl
@[simp] theorem resetFrom_fatal (s : State) : (resetFrom s).fatal = false := rfl
@[simp] theorem resetFrom_faultCause (s : State) : (resetFrom s).faultCause = 0 := rfl
@[simp] theorem resetFrom_result (s : State) : (resetFrom s).result = false := rfl
@[simp] theorem resetFrom_dc (s : State) : (resetFrom s).dc = .data := rfl
@[simp] theorem resetFrom_swap (s : State) : (resetFrom s).swap = false := rfl
@[simp] theorem resetFrom_pending (s : State) : (resetFrom s).pending = 0 := rfl
@[simp] theorem resetFrom_qHandle (s : State) : (resetFrom s).qHandle = none := rfl
@[simp] theorem resetFrom_queue (s : State) : (resetFrom s).queue = [] := rfl
@[simp] theorem resetFrom_compl (s : State) : (resetFrom s).compl = [] := rfl
@[simp] theorem resetFrom_nperf (s : State) : (resetFrom s).nperf = 0 := rfl
@[simp] theorem resetFrom_xlog (s : State) : (resetFrom s).xlog = [] := rfl
@[simp] theorem resetFrom_wire (s : State) : (resetFrom s).wire = [] := rfl
@[simp] theorem resetFrom_pmem (s : State) : (resetFrom s).pmem = s.pmem := rfl
@[simp] theorem resetFrom_done (s : State) : (resetFrom s).done = false := rfl
@[simp] theorem resetFrom_port (s : State) : (resetFrom s).port = s.port := rfl
@[simp] theorem resetFrom_rdata (s : State) : (resetFrom s).rdata = s.rdata := rfl
@[simp] theorem resetFrom_mdata (s : State) : (resetFrom s).mdata = s.mdata := rfl
@[simp] theorem resetFrom_sched (s : State) : (resetFrom s).sched = s.sched := rfl
@[simp] theorem resetFrom_acqIn (s : State) : (resetFrom s).acqIn = s.acqIn := rfl
@[simp] theorem resetFrom_qIn (s : State) : (resetFrom s).qIn = s.qIn := rfl
@[simp] theorem resetFrom_draws (s : State) : (resetFrom s).draws = s.draws := rfl

end Sys2Proof.Machine
end

