-- ==== Sys2Proof/Laws/Ops.lean ====
section
/-! SUPPORT. What the shared operations do, one lemma each, for proofs to cite instead of unfolding
them: lines executed in sequence, the transfer, the load of registers, the strobe, the drain, and
the start and the end of an operation. -/

namespace Sys2Proof.Machine

/-! ## Lines in sequence -/

theorem halted_eq_false {s : State} : halted s = false ↔ s.eng ≠ .halt := by
  simp [halted]

theorem halted_of_run {s : State} {k : Nat} {todo : List MicroOp} {ret : Option Bool}
    (h : s.eng = .run k todo ret) : halted s = false := by
  simp [halted, h]

@[simp] theorem runLines_nil (s : State) : runLines [] s = .go s := rfl

theorem runLines_cons (op : MicroOp) (ops : List MicroOp) (s : State) :
    runLines (op :: ops) s =
      match runLine op s with
      | .go t => runLines ops t
      | .stop r => .stop r := rfl

theorem runLines_cons_go {op : MicroOp} {ops : List MicroOp} {s t : State}
    (h : runLine op s = .go t) : runLines (op :: ops) s = runLines ops t := by
  rw [runLines_cons, h]

theorem runLines_cons_stop {op : MicroOp} {ops : List MicroOp} {s : State} {r : Result}
    (h : runLine op s = .stop r) : runLines (op :: ops) s = .stop r := by
  rw [runLines_cons, h]

theorem runLines_append (a b : List MicroOp) (s : State) :
    runLines (a ++ b) s =
      match runLines a s with
      | .go t => runLines b t
      | .stop r => .stop r := by
  induction a generalizing s with
  | nil => rfl
  | cons op ops ih =>
    simp only [List.cons_append, runLines_cons]
    cases runLine op s with
    | go t => exact ih t
    | stop r => rfl

theorem runLines_append_go {a b : List MicroOp} {s t : State} (h : runLines a s = .go t) :
    runLines (a ++ b) s = runLines b t := by
  rw [runLines_append, h]

theorem runLines_append_stop {a b : List MicroOp} {s : State} {r : Result}
    (h : runLines a s = .stop r) : runLines (a ++ b) s = .stop r := by
  rw [runLines_append, h]

/-- An engine that has halted executes nothing (spec/10_state.md R24). -/
theorem runLines_halted {s : State} (h : halted s = true) (ops : List MicroOp) :
    runLines ops s = .go s := by
  induction ops with
  | nil => rfl
  | cons op ops ih => rw [runLines_cons, show runLine op s = .go s by simp [runLine, h]]; exact ih

/-- A line of an engine that has not halted: its wait, then its effect. -/
theorem runLine_eq {s : State} (h : halted s = false) (op : MicroOp) :
    runLine op s =
      match settle op s with
      | .next t => act op t
      | .fault f => .stop (.fault f)
      | .refused r => .stop (.refused r) := by
  simp only [runLine, h]
  cases settle op s <;> rfl

/-- A line that waits for nothing has its effect at once. -/
theorem runLine_plain {s : State} (h : halted s = false) {op : MicroOp}
    (h1 : op ≠ .waitIdle) (h2 : op ≠ .drain) : runLine op s = act op s := by
  cases op <;> first | exact absurd rfl h1 | exact absurd rfl h2 | simp [runLine, h, settle]

theorem whenFree_idle {s : State} (h : s.busy = false) (t : State) : whenFree s t = .go t := by
  simp [whenFree, h]

/-! ## Starting and ending an operation -/

theorem perform_run {i : Instr} {ops : List MicroOp} {ret : Option Bool} {s : State}
    (h : s.eng = .idle) : perform i (.run ops ret) s = runOps ops ret (beginOp i ops ret s) := by
  simp [perform, h]

theorem perform_refuse {i : Instr} {r : Refusal} {s : State} (h : s.eng = .idle) :
    perform i (.refuse r) s = .refused r := by
  simp [perform, h]

/-- Only an idle engine takes a command (spec/30_encoding.md R92). -/
theorem perform_not_idle {i : Instr} {p : Plan} {s : State} (h : s.eng ≠ .idle) :
    perform i p s = .next s := by
  simp [perform, h]

theorem runOps_go {ops : List MicroOp} {ret : Option Bool} {s t : State}
    (h : runLines ops s = .go t) : runOps ops ret s = .next (complete ret t) := by
  simp [runOps, h]

theorem runOps_stop {ops : List MicroOp} {ret : Option Bool} {s : State} {r : Result}
    (h : runLines ops s = .stop r) : runOps ops ret s = r := by
  simp [runOps, h]

theorem complete_running {ret : Option Bool} {s : State} (h : halted s = false) :
    complete ret s = { s with result := ret.getD s.result, eng := .idle, done := true } := by
  simp [complete, h]

theorem complete_halted {ret : Option Bool} {s : State} (h : halted s = true) :
    complete ret s = s := by
  simp [complete, h]

@[simp] theorem halted_beginOp (i : Instr) (ops : List MicroOp) (ret : Option Bool) (s : State) :
    halted (beginOp i ops ret s) = false := rfl

/-! ## The serial bus -/

/-- Nothing waits for a bus that is free. -/
theorem runLine_waitIdle {s : State} (h : halted s = false) (hb : s.busy = false) :
    runLine .waitIdle s = .go s := by
  simp [runLine, h, settle, sbuStep, hb, act]

theorem runLine_loadReg {s : State} (h : halted s = false) (hb : s.busy = false) (i : Nat)
    (v : Word) : runLine (.loadReg i v) s = .go (setReg s i v) := by
  simp [runLine, h, settle, act, whenFree, hb]

/-- A transfer of whole bytes executed to its end (spec/43_bus_agents.md R213, R214): its bytes
reach the wire and nothing waits any more. -/
theorem runLines_transfer {s : State} (h : halted s = false) (hb : s.busy = false) {v : BitVec 9}
    (hv : (v.toNat + 1) % 8 = 0) (ops : List MicroOp) :
    runLines (.setBitlen v :: .startTransfer :: .waitIdle :: ops) s =
      runLines ops { s with
        bitlen := v
        xlog := s.xlog ++ [v]
        wire := s.wire ++
          ((List.range ((v.toNat + 1) / 8)).map (fifoByte s.w)).map fun b => (s.dc, b) } := by
  have he : s.eng ≠ .halt := halted_eq_false.1 h
  rw [runLines_cons_go (t := { s with bitlen := v })]
  · rw [runLines_cons_go (t := startTransfer { s with bitlen := v })]
    · rw [runLines_cons_go]
      simp [runLine, halted, he, settle, sbuStep, hv, act, startTransfer, emit, shiftedBytes, hb]
    · simp [runLine, halted, he, settle, act, whenFree, hb]
  · simp [runLine, halted, he, settle, act, whenFree, hb]

/-- Registers loaded one after another. -/
theorem runLines_loadRegs (l : List (Nat × Word)) {s : State} (h : halted s = false)
    (hb : s.busy = false) :
    runLines (l.map fun p => .loadReg p.1 p.2) s =
      .go { s with w := l.foldl (fun w p => w.setIfInBounds p.1 p.2) s.w } := by
  induction l generalizing s with
  | nil => rfl
  | cons p l ih =>
    rw [List.map_cons, runLines_cons_go (runLine_loadReg h hb p.1 p.2)]
    exact ih (s := setReg s p.1 p.2) h hb

/-! ## The parallel bus -/

/-- One byte driven and strobed (spec/43_bus_agents.md R217, R218). -/
theorem runLines_parWrite {s : State} (h : halted s = false) (b : Byte) (ops : List MicroOp) :
    runLines (parWriteOps b ++ ops) s =
      runLines ops { s with data := b, wr := true, wire := s.wire ++ [(s.dc, b)] } := by
  have he : s.eng ≠ .halt := halted_eq_false.1 h
  simp [parWriteOps, runLines_cons, runLine, halted, he, settle, act, strobeEnd, emit]

/-! ## The drain -/

/-- An event that is already reported is not waited for. -/
theorem awaitEvent_ready {s : State} (h : s.compl ≠ []) : awaitEvent s = .next s := by
  simp [awaitEvent, h]

/-- With nothing reported and the bus free, a wait is the DMAC's step at the head of the queue. -/
theorem awaitEvent_performs {s : State} {t : Transaction} {q : List Transaction}
    (hc : s.compl = []) (hb : s.busy = false) (hq : s.queue = t :: q) (hf : s.fatal = false)
    (he : s.dmaEn = true) (hv : txInvalid s.cfg t.body = none) :
    awaitEvent s = .next (performTx t { s with queue := q }) := by
  simp [awaitEvent, hc, hb, helpDrain, dmacReady, hq, hf, he, dmacStep, hv]

/-- As above, but the head of the queue names a cell that does not exist. -/
theorem awaitEvent_stuck {s : State} {t : Transaction} {q : List Transaction} {a : Nat}
    (hc : s.compl = []) (hb : s.busy = false) (hq : s.queue = t :: q) (hf : s.fatal = false)
    (he : s.dmaEn = true) (hv : txInvalid s.cfg t.body = some a) :
    awaitEvent s = .fault (.dmacStuckAt a) := by
  simp [awaitEvent, hc, hb, helpDrain, dmacReady, hq, hf, he, dmacStep, hv]

theorem drainLoop_succ_next {n : Nat} {s t : State} (h : awaitEvent s = .next t) :
    drainLoop (n + 1) s = drainLoop n (takeCompletion t) := by
  simp [drainLoop, h]

theorem drainLoop_succ_fault {n : Nat} {s : State} {f : Fault} (h : awaitEvent s = .fault f) :
    drainLoop (n + 1) s = .fault f := by
  simp [drainLoop, h]

end Sys2Proof.Machine
end

