-- ==== Sys2Proof/Laws/Drain.lean ====
section
/-! SUPPORT. What a drain does (spec/42_dma_engine.md R176), and what the invariant says of an idle
engine. -/

namespace Sys2Proof.Machine

/-- With nothing queued, reported or pending, there is nothing to drain. -/
theorem drained_quiet {s : State} (hq : s.queue = []) (hc : s.compl = []) (hp : s.pending = 0) :
    drained s = s := by
  cases s
  simp only at hq hc hp
  subst hq hc hp
  simp [drained]

theorem drained_takeCompletion (s : State) : drained (takeCompletion s) = drained s := rfl

theorem drained_performTx {s : State} {t : Transaction} {q : List Transaction}
    (hq : s.queue = t :: q) : drained (performTx t { s with queue := q }) = drained s := by
  simp [drained, hq, performTx, emit, txWire, List.getLast?_cons, Nat.add_comm 1, Nat.add_assoc]

theorem drained_beginOp (i : Instr) (ops : List MicroOp) (ret : Option Bool) (s : State) :
    drained (beginOp i ops ret s) = beginOp i ops ret (drained s) := rfl

theorem pending_pred {p : BitVec 3} {n : Nat} (h : p.toNat = n + 1) : (p - 1).toNat = n := by
  have : (1#3).toNat = 1 := rfl
  bv_omega

/-- A drain whose count is right performs what is queued and takes every event. -/
theorem drainLoop_drains : ∀ (n : Nat) (s : State), s.pending.toNat = n →
    n = s.queue.length + s.compl.length → s.fatal = false → s.busy = false →
    (s.queue = [] ∨ s.dmaEn = true) → QueueValid s → drainLoop n s = .next (drained s) := by
  intro n
  induction n with
  | zero =>
    intro s hp hn hf hb he hv
    have hq : s.queue = [] := List.length_eq_zero_iff.1 (by omega)
    have hc : s.compl = [] := List.length_eq_zero_iff.1 (by omega)
    rw [drained_quiet hq hc (BitVec.eq_of_toNat_eq hp)]
    rfl
  | succ n ih =>
    intro s hp hn hf hb he hv
    cases hc : s.compl with
    | cons c cs =>
      rw [drainLoop_succ_next (awaitEvent_ready (by simp [hc])),
        ih (takeCompletion s) (pending_pred hp) (by simp [hc] at hn ⊢; omega) hf hb he hv,
        drained_takeCompletion]
    | nil =>
      cases hq : s.queue with
      | nil => simp [hc, hq] at hn
      | cons t q =>
        have he' : s.dmaEn = true := by simpa [hq] using he
        rw [drainLoop_succ_next (awaitEvent_performs hc hb hq hf he' (hv t (by simp [hq]))),
          ih (takeCompletion (performTx t { s with queue := q })) (pending_pred hp)
            (by simp [hc, hq] at hn ⊢; omega) hf hb (.inr he')
            (fun u hu => hv u (by rw [hq]; exact List.mem_cons_of_mem _ hu)),
          drained_takeCompletion, drained_performTx hq]

/-- The invariant at an idle engine: R49, and no fatal fault. -/
theorem Inv.idle {s : State} (hi : Inv s) (he : s.eng = .idle) :
    s.pending.toNat = s.queue.length + s.compl.length
      ∧ (s.pending.toNat = 0 ∨ s.pending.toNat = 1 ∨ s.pending.toNat = 6) ∧ s.busy = false
      ∧ s.wr = true ∧ s.fatal = false ∧ (s.queue = [] ∨ s.dmaEn = true) := by
  have h := hi.counts [] (by simp [linesLeft, he])
  simp only [endsWell, Bool.and_eq_true, Bool.or_eq_true, decide_eq_true_eq,
    Bool.not_eq_true'] at h
  have hf : s.fatal = false := by
    have := hi.halt
    simp [he] at this
    exact this
  refine ⟨h.1.1.1.1, h.1.1.1.2, h.1.1.2, h.1.2, hf, ?_⟩
  cases hd : s.dmaEn
  · exact .inl (hi.disabled hd).2.1
  · exact .inr rfl

/-- An operation that starts with a drain, in a state of the invariant. -/
theorem runLine_drain {s : State} (hi : Inv s) (he : s.eng = .idle) (hv : QueueValid s) (i : Instr)
    (ops : List MicroOp) (ret : Option Bool) :
    runLine .drain (beginOp i ops ret s) = .go (beginOp i ops ret (drained s)) := by
  obtain ⟨h1, _, h3, _, h5, h6⟩ := hi.idle he
  have : settle .drain (beginOp i ops ret s) = .next (beginOp i ops ret (drained s)) :=
    drainLoop_drains _ (beginOp i ops ret s) rfl h1 h5 h3 h6 hv
  rw [runLine_eq (by simp), this]
  rfl

end Sys2Proof.Machine
end

