-- ==== Sys2Proof/Laws/Encoding.lean ====
section
/-! SUPPORT. The header word and its fields are two views of the same 32 bits, opcodes and their
bytes match, and which headers are legal, case by case. -/

namespace Sys2Proof

theorem Header.ofWord_toWord (h : Header) : Header.ofWord h.toWord = h := by
  obtain ⟨o, f, r, m⟩ := h
  simp only [Header.ofWord, Header.toWord, Header.mk.injEq]
  refine ⟨?_, by simp, ?_, ?_⟩ <;> (ext i hi; interval_cases i <;> simp)

theorem Header.toWord_ofWord (w : Word) : (Header.ofWord w).toWord = w := by
  simp only [Header.ofWord, Header.toWord]
  ext i hi
  interval_cases i <;> simp

@[simp] theorem Opcode.ofByte_code (op : Opcode) : Opcode.ofByte op.code = some op := by
  cases op <;> rfl

theorem Opcode.ofByte_some {b : Byte} {op : Opcode} (h : Opcode.ofByte b = some op) :
    b = op.code := by
  have h2 := List.find?_some h
  exact (beq_iff_eq.1 h2).symm

/-- A legal header, field by field (30_encoding.md R98). -/
theorem Header.fault?_none {h : Header} {op : Opcode} (ho : h.opc = op.code) :
    h.fault? = none ↔
      h.rsv = 0 ∧ (h.flag = true → op.format.usesFlag = true)
        ∧ (h.imm ≠ 0 → op.format.usesImm = true) := by
  simp only [Header.fault?, ho, Opcode.ofByte_code]
  split
  · simp_all
  · split
    · simp_all
    · split
      · simp_all
      · simp_all

/-- Every operation's header is legal, so every operation is well formed. -/
theorem Instr.header_legal (i : Instr) : i.header.fault? = none := by
  cases i <;> first
    | rfl
    | exact (Header.fault?_none (op := .pushBlock) rfl).2 ⟨rfl, nofun, fun _ => rfl⟩
    | exact (Header.fault?_none (op := .setSwap) rfl).2 ⟨rfl, fun _ => rfl, fun h => absurd rfl h⟩
    | exact (Header.fault?_none (op := .pushImageDma) rfl).2
        ⟨rfl, fun _ => rfl, fun h => absurd rfl h⟩

theorem Instr.header_opc (i : Instr) : i.header.opc = i.opcode.code := by
  cases i <;> rfl

end Sys2Proof
end

