-- ==== Sys2Proof/Laws/Exec.lean ====
section
/-! SUPPORT. Every meaning is one plan performed, and what performing a plan can answer. -/

namespace Sys2Proof.Machine

/-- The meaning of an operation is its plan, performed. -/
theorem exec_eq_perform (i : Instr) (s : State) : exec i s = perform i (planOf i s) s := by
  cases i <;> rfl

/-- An effect that stops a line never stops it with a next state. -/
theorem act_stop_ne_next (op : MicroOp) (s t : State) : act op s ≠ .stop (.next t) := by
  intro h
  cases op <;> simp only [act, whenFree, queueTx] at h <;> (repeat' split at h) <;> cases h

theorem runLine_stop_ne_next (op : MicroOp) (s t : State) : runLine op s ≠ .stop (.next t) := by
  intro h
  simp only [runLine] at h
  split at h
  · cases h
  · split at h
    · exact act_stop_ne_next _ _ _ h
    · cases h
    · cases h

theorem runLines_stop_ne_next (ops : List MicroOp) (s t : State) :
    runLines ops s ≠ .stop (.next t) := by
  induction ops generalizing s with
  | nil => intro h; cases h
  | cons op ops ih =>
    intro h
    rw [runLines_cons] at h
    split at h
    · exact ih _ h
    · rename_i r hr
      cases h
      exact runLine_stop_ne_next _ _ _ hr

/-- A command taken from an idle engine answers a next state exactly when its lines run to the end. -/
theorem perform_next {i : Instr} {p : Plan} {s t : State} (he : s.eng = .idle)
    (h : perform i p s = .next t) :
    ∃ ops ret u, p = .run ops ret ∧ runLines ops (beginOp i ops ret s) = .go u
      ∧ t = complete ret u := by
  cases p with
  | refuse r => rw [perform_refuse he] at h; cases h
  | run ops ret =>
    rw [perform_run he, runOps] at h
    split at h
    · rename_i u hu
      cases h
      exact ⟨ops, ret, u, rfl, hu, rfl⟩
    · rename_i r hr
      exact absurd (h ▸ hr) (runLines_stop_ne_next _ _ _)

end Sys2Proof.Machine
end

