-- ==== Sys2Proof/Laws/Packer.lean ====
section
/-! SUPPORT. Byte lanes of words built by shifts and ors, and the pixels of a packed transfer as
the serial bus unit sees them. -/

namespace Sys2Proof.Machine

theorem lane_or (a b : Word) (k : Nat) : lane (a ||| b) k = lane a k ||| lane b k := by
  simp only [lane]
  ext i hi
  simp

theorem lane_shiftLeft (a : Word) (j k : Nat) (hk : k < 4) :
    lane (a <<< (8 * j)) k = if j ≤ k then lane a (k - j) else 0 := by
  simp only [lane]
  ext i hi
  split
  · rename_i h
    have h1 : ¬ 8 * k + i < 8 * j := by omega
    have h2 : 8 * (k - j) + i = 8 * k + i - 8 * j := by omega
    have h3 : 8 * k + i < 32 := by omega
    simp [h1, h2, h3, ← BitVec.getLsbD_eq_getElem]
  · rename_i h
    have h1 : 8 * k + i < 8 * j := by omega
    simp [h1]

theorem lane_shiftRight (a : Word) (j k : Nat) : lane (a >>> (8 * j)) k = lane a (k + j) := by
  simp only [lane]
  ext i hi
  simp only [BitVec.getElem_extractLsb', BitVec.getLsbD_ushiftRight]
  congr 1
  omega

theorem lane_setWidth (b : Byte) (k : Nat) : lane (b.setWidth 32) k = if k = 0 then b else 0 := by
  simp only [lane]
  ext i hi
  split
  · rename_i h
    subst h
    simp [BitVec.getElem_setWidth, hi, show i < 32 by omega]
  · rename_i h
    have h1 : ¬ 8 * k + i < 8 := by omega
    simp [BitVec.getLsbD_of_ge _ _ (Nat.not_lt.1 h1)]

end Sys2Proof.Machine
end

