-- ==== Sys2Proof/Laws/PerInstr.lean ====
section
/-! SUPPORT. What holds of every operation as syntax: its header is legal, its command is as long
as its opcode says, and its header word reads back as its header (spec/30_encoding.md R95, R97, R98). -/

namespace Sys2Proof.Laws.WellEncoded

open Sys2Proof

/-- The operation's header is legal, its command has one word more than its format has operands,
and the header word keeps every field. -/
def Statement (i : Instr) : Prop :=
  i.wellFormed = true
    ∧ (encode i).length = 1 + i.opcode.format.operandWords
    ∧ (encode i).head?.map Header.ofWord = some i.header

theorem of_length (i : Instr) (h : i.operands.length = i.opcode.format.operandWords) :
    Statement i := by
  refine ⟨?_, ?_, ?_⟩
  · simp [Instr.wellFormed, Header.wellFormed, Instr.header_legal]
  · simp [encode, h, Nat.add_comm]
  · simp [encode, Header.ofWord_toWord]

theorem pushBlock (color : Pixel) (count : Word) : Statement (.pushBlock color count) :=
  of_length _ rfl

theorem pushPixels (src len : Word) : Statement (.pushPixels src len) := of_length _ rfl

theorem pushSwapPixels (src len : Word) : Statement (.pushSwapPixels src len) := of_length _ rfl

theorem setSwap (flag : Bool) : Statement (.setSwap flag) := of_length _ rfl

theorem initDma : Statement .initDma := of_length _ rfl

theorem deinitDma : Statement .deinitDma := of_length _ rfl

theorem dmaBusy : Statement .dmaBusy := of_length _ rfl

theorem dmaWait : Statement .dmaWait := of_length _ rfl

theorem pushPixelsDma (src len : Word) : Statement (.pushPixelsDma src len) := of_length _ rfl

theorem pushImageDma (hasStg : Bool) (x y w h img stg : Word) :
    Statement (.pushImageDma hasStg x y w h img stg) := of_length _ rfl

end Sys2Proof.Laws.WellEncoded
end

