-- ==== Sys2Proof/Laws/Plans.lean ====
section
/-! SUPPORT. What the lines of every plan have in common: a property of lists of lines that holds of
the blocks a push is made of holds of the push; the counts a plan leaves (10_state.md R49), and the
order of its bus accesses (spec/41_sync_push.md R142, 43_bus_agents.md R211 to R213, R220). -/

namespace Sys2Proof.Machine

/-- A property of lists of lines that holds of the blocks the pushes and the staging copy are made
of, and of lists put together from such. -/
structure Blocks (C : List MicroOp → Prop) : Prop where
  nil        : C []
  append     : ∀ {a b}, C a → C b → C (a ++ b)
  waitIdle   : C [.waitIdle]
  loadReg    : ∀ i v, C [.loadReg i v]
  loadPair   : ∀ i a sw, C [.loadPair i a sw]
  loadHalf   : ∀ i a sw, C [.loadHalf i a sw]
  fetchPixel : ∀ a, C [.fetchPixel a]
  loadPixel  : ∀ sw, C [.loadPixel sw]
  transfer   : ∀ v : BitVec 9, (v.toNat + 1) % 8 = 0 → C [.setBitlen v, .startTransfer, .waitIdle]
  driveByte  : ∀ b, C [.driveByte b]
  drivePixel : ∀ k sw, C [.drivePixelByte k sw]
  strobe     : C [.strobeLow, .strobeHigh]
  copyCell   : ∀ src dst sw, C [.copyCell src dst sw]

theorem Blocks.flatten {C : List MicroOp → Prop} (h : Blocks C) {l : List (List MicroOp)}
    (hl : ∀ a ∈ l, C a) : C l.flatten := by
  induction l with
  | nil => exact h.nil
  | cons a l ih => exact h.append (hl a (.head _)) (ih fun b hb => hl b (.tail _ hb))

theorem Blocks.flatMap {C : List MicroOp → Prop} (h : Blocks C) {α : Type} {l : List α}
    {f : α → List MicroOp} (hl : ∀ a ∈ l, C (f a)) : C (l.flatMap f) := by
  rw [List.flatMap]
  exact h.flatten (by simpa using hl)

theorem Blocks.map {C : List MicroOp → Prop} (h : Blocks C) {α : Type} {l : List α}
    {f : α → MicroOp} (hl : ∀ a ∈ l, C [f a]) : C (l.map f) := by
  rw [List.map_eq_flatMap]
  exact h.flatMap hl

/-- The length of a transfer of pixels is a whole number of bytes. -/
theorem transferLen_whole (f : ColorFmt) {n : Nat} (h0 : 0 < n) (h : n ≤ f.batch) :
    ((transferLen f n).toNat + 1) % 8 = 0 := by
  cases f <;> simp only [ColorFmt.batch] at h <;> simp [transferLen, ColorFmt.bpp] <;> omega

theorem Blocks.transferOps {C : List MicroOp → Prop} (h : Blocks C) {f : ColorFmt} {n : Nat}
    (h0 : 0 < n) (hn : n ≤ f.batch) : C (transferOps (transferLen f n)) :=
  h.append h.waitIdle (h.transfer _ (transferLen_whole f h0 hn))

theorem ColorFmt.batch_pos (f : ColorFmt) : 0 < f.batch := by cases f <;> decide

theorem Blocks.blockSerial {C : List MicroOp → Prop} (h : Blocks C) (c : Params) (color : Pixel)
    (n : Nat) : C (blockSerialOps c color n) := by
  have hb := ColorFmt.batch_pos c.colorFmt
  unfold blockSerialOps
  refine h.append (h.append (h.append h.waitIdle ?_) (h.flatten ?_)) ?_
  · unfold blockLoadOps
    split
    · exact h.map fun _ _ => h.loadReg _ _
    · exact h.flatMap fun _ _ =>
        h.append (h.loadReg _ _) (h.append (h.loadReg _ _) (h.loadReg _ _))
  · intro a ha
    rw [List.eq_of_mem_replicate ha]
    exact h.transferOps hb (Nat.le_refl _)
  · split
    · exact h.nil
    · exact h.transferOps (by omega) (Nat.le_of_lt (Nat.mod_lt _ hb))

theorem Blocks.blockParallel {C : List MicroOp → Prop} (h : Blocks C) (c : Params) (color : Pixel)
    (n : Nat) : C (blockParallelOps c color n) := by
  refine h.flatten fun a ha => ?_
  rw [List.eq_of_mem_replicate ha]
  exact h.flatMap fun b _ => h.append (h.driveByte b) h.strobe

theorem Blocks.batch {C : List MicroOp → Prop} (h : Blocks C) (a : Nat) {k : Nat} (sw : Bool)
    (h0 : 0 < k) (hk : k ≤ 32) : C (batchOps a k sw) := by
  unfold batchOps batchLoadOps
  refine h.append (h.append h.waitIdle (h.append (h.map fun _ _ => h.loadPair _ _ _) ?_))
    (h.transfer _ (transferLen_whole .rgb565 h0 hk))
  split
  · exact h.nil
  · exact h.loadHalf _ _ _

theorem Blocks.pushSeq {C : List MicroOp → Prop} (h : Blocks C) (c : Params) (a n : Nat)
    (sw : Bool) : C (pushSeqOps c a n sw) := by
  unfold pushSeqOps
  split
  · unfold seqSerial565Ops
    refine h.append (h.flatMap fun _ _ => h.batch _ _ (by omega) (by omega)) ?_
    split
    · exact h.nil
    · exact h.batch _ _ (by omega) (by omega)
  · exact h.flatMap fun i _ => h.append (h.fetchPixel _) (h.append h.waitIdle
      (h.append (h.loadPixel sw) (h.transfer 23 (by decide))))
  · exact h.flatMap fun i _ => h.append (h.fetchPixel _) (h.flatMap fun k _ =>
      h.append (h.drivePixel k sw) h.strobe)

theorem Blocks.stage {C : List MicroOp → Prop} (h : Blocks C) (img buf w ht : Nat) (k : Clipped)
    (sw : Bool) : C (stageOps img buf w ht k sw) := by
  unfold stageOps
  split
  · exact h.flatMap fun _ _ => h.map fun _ _ => h.copyCell _ _ _
  · split
    · exact h.map fun _ _ => h.copyCell _ _ _
    · exact h.nil

/-! ## The counts a plan leaves -/

/-- The lines leave an idle bus idle and the counts as they are. -/
def KeepsCounts (a : List MicroOp) : Prop :=
  ∀ b p l en, endsWell (a ++ b) p l false true en = endsWell b p l false true en

theorem keepsCounts_blocks : Blocks KeepsCounts where
  nil := fun _ _ _ _ => rfl
  append := fun ha hb c p l en => by rw [List.append_assoc, ha, hb]
  waitIdle := fun _ _ _ _ => rfl
  loadReg := fun _ _ _ _ _ _ => rfl
  loadPair := fun _ _ _ _ _ _ _ => rfl
  loadHalf := fun _ _ _ _ _ _ _ => rfl
  fetchPixel := fun _ _ _ _ _ => rfl
  loadPixel := fun _ _ _ _ _ => rfl
  transfer := fun _ _ _ _ _ _ => rfl
  driveByte := fun _ _ _ _ _ => rfl
  drivePixel := fun _ _ _ _ _ _ => rfl
  strobe := fun _ _ _ _ => rfl
  copyCell := fun _ _ _ _ _ _ _ => rfl

/-- In an idle state of the invariant the lines of every plan end well. -/
theorem plan_endsWell {s : State} (hi : Inv s) (he : s.eng = .idle) {i : Instr}
    {ops : List MicroOp} {ret : Option Bool} (hp : planOf i s = .run ops ret) :
    endsWell ops s.pending.toNat (s.queue.length + s.compl.length) s.busy s.wr s.dmaEn = true := by
  obtain ⟨h1, h2, h3, h4, _, _⟩ := hi.idle he
  have h5 : s.dmaEn = true ∨ s.pending.toNat = 0 := by
    cases hd : s.dmaEn
    · exact .inr (by rw [(hi.disabled hd).1]; rfl)
    · exact .inl rfl
  have none : endsWell [] s.pending.toNat (s.queue.length + s.compl.length) s.busy s.wr s.dmaEn
      = true := by
    simp only [endsWell, h3, h4, Bool.and_eq_true, Bool.or_eq_true, decide_eq_true_eq]
    exact ⟨⟨⟨⟨h1, h2⟩, by trivial⟩, trivial⟩, h5⟩
  have keeps : ∀ {a}, KeepsCounts a → endsWell a s.pending.toNat
      (s.queue.length + s.compl.length) s.busy s.wr s.dmaEn = true := by
    intro a ha
    have := ha [] s.pending.toNat (s.queue.length + s.compl.length) s.dmaEn
    rw [List.append_nil] at this
    rw [h3, h4] at none ⊢
    rw [this, none]
  have seq : ∀ {src len sw ops ret}, planPushSeq src len sw s = .run ops ret →
      endsWell ops s.pending.toNat (s.queue.length + s.compl.length) s.busy s.wr s.dmaEn = true := by
    intro src len sw ops ret h
    unfold planPushSeq at h
    repeat' split at h
    all_goals cases h
    · exact none
    · exact keeps (keepsCounts_blocks.pushSeq _ _ _ _)
  cases i <;> simp only [planOf] at hp
  case pushBlock color count =>
    unfold planPushBlock at hp
    repeat' split at hp
    all_goals cases hp
    · exact none
    · exact keeps (keepsCounts_blocks.blockSerial _ _ _)
    · exact keeps (keepsCounts_blocks.blockParallel _ _ _)
  case pushPixels => exact seq hp
  case pushSwapPixels => exact seq hp
  case setSwap =>
    cases hp
    exact none
  case initDma =>
    unfold planInitDma at hp
    split at hp <;> cases hp
    · exact none
    · simp [endsWell, h1, h3, h4] at h2 ⊢
      exact h2
  case deinitDma =>
    unfold planDeinitDma at hp
    split at hp <;> cases hp
    · exact none
    · simp [endsWell, h1, h3, h4]
  case dmaBusy =>
    cases hp
    simp [endsWell, h1, h3, h4]
  case dmaWait =>
    cases hp
    simp [endsWell, h1, h3, h4]
  case pushPixelsDma =>
    unfold planPushPixelsDma at hp
    repeat' split at hp
    all_goals cases hp
    · exact none
    · rename_i h _
      have hd : s.dmaEn = true := by simpa using fun h' => h (.inl h')
      simp [endsWell, h1, h3, h4, hd]
  case pushImageDma =>
    unfold planPushImageDma at hp
    simp only [] at hp
    repeat' split at hp
    all_goals cases hp
    · exact none
    · exact none
    · exact none
    · rename_i h _ _ _
      have hd : s.dmaEn = true := by simpa using h
      unfold windowOps
      simp only [h3, h4, hd, List.append_assoc, List.cons_append, List.nil_append, endsWell]
      rw [keepsCounts_blocks.stage]
      simp [endsWell, windowTx, h1]

/-! ## The order of the bus accesses -/

/-- The lines left touch the serial bus only while it is free, start only transfers of whole bytes,
and find room in a queue of depth `d`: `b` is `BUSY`, `v` says that `BITLEN + 1` is a whole number
of bytes, `q` is the number of transactions queued at most. -/
def busFit (d : Nat) : List MicroOp → Bool → Bool → Nat → Bool
  | [], _, _, _ => true
  | op :: ops, b, v, q =>
    match op with
    | .waitIdle => busFit d ops false v q
    | .loadReg _ _ => !b && busFit d ops b v q
    | .loadPair _ _ _ => !b && busFit d ops b v q
    | .loadHalf _ _ _ => !b && busFit d ops b v q
    | .loadPixel _ => !b && busFit d ops b v q
    | .setBitlen n => !b && busFit d ops b (decide ((n.toNat + 1) % 8 = 0)) q
    | .startTransfer => !b && v && busFit d ops true v q
    | .drain => busFit d ops b v 0
    | .queueTx _ => decide (q < d) && busFit d ops b v (q + 1)
    | .fetchPixel _ => busFit d ops b v q
    | .driveByte _ => busFit d ops b v q
    | .drivePixelByte _ _ => busFit d ops b v q
    | .strobeLow => busFit d ops b v q
    | .strobeHigh => busFit d ops b v q
    | .copyCell _ _ _ => busFit d ops b v q
    | .clearNperf => busFit d ops b v q
    | .setPending _ => busFit d ops b v q
    | .acquire => busFit d ops b v q
    | .release => busFit d ops b v q
    | .writeSwap _ => busFit d ops b v q

/-- The lines may stand before any lines that fit an idle bus. -/
def FitsBus (d : Nat) (a : List MicroOp) : Prop :=
  ∀ b v q, (∀ v', busFit d b false v' q = true) → busFit d (a ++ b) false v q = true

theorem fitsBus_blocks (d : Nat) : Blocks (FitsBus d) where
  nil := fun _ v _ h => h v
  append := fun ha hb c v q h => by
    rw [List.append_assoc]
    exact ha _ _ _ fun v' => hb _ _ _ h
  waitIdle := fun _ v _ h => h v
  loadReg := fun _ _ _ v _ h => h v
  loadPair := fun _ _ _ _ v _ h => h v
  loadHalf := fun _ _ _ _ v _ h => h v
  fetchPixel := fun _ _ v _ h => h v
  loadPixel := fun _ _ v _ h => h v
  transfer := fun n hn b v q h => by simp [busFit, hn, h]
  driveByte := fun _ _ v _ h => h v
  drivePixel := fun _ _ _ v _ h => h v
  strobe := fun _ v _ h => h v
  copyCell := fun _ _ _ _ v _ h => h v

/-- The lines of every plan fit an idle bus, whatever is queued. -/
theorem plan_busFit {s : State} {i : Instr} {ops : List MicroOp} {ret : Option Bool}
    (hp : planOf i s = .run ops ret) (v : Bool) (q : Nat) :
    busFit s.cfg.queueDepth ops false v q = true := by
  have h := fitsBus_blocks s.cfg.queueDepth
  have fits : ∀ {a}, FitsBus s.cfg.queueDepth a → busFit s.cfg.queueDepth a false v q = true := by
    intro a ha
    have := ha [] v q fun _ => rfl
    rwa [List.append_nil] at this
  have seq : ∀ {src len sw ops ret}, planPushSeq src len sw s = .run ops ret →
      busFit s.cfg.queueDepth ops false v q = true := by
    intro src len sw ops ret hp
    unfold planPushSeq at hp
    repeat' split at hp
    all_goals cases hp
    · rfl
    · exact fits (h.pushSeq _ _ _ _)
  have hd : ∃ e, s.cfg.queueDepth = 6 + e := ⟨_, rfl⟩
  obtain ⟨e, hd⟩ := hd
  cases i <;> simp only [planOf] at hp
  case pushBlock color count =>
    unfold planPushBlock at hp
    repeat' split at hp
    all_goals cases hp
    · rfl
    · exact fits (h.blockSerial _ _ _)
    · exact fits (h.blockParallel _ _ _)
  case pushPixels => exact seq hp
  case pushSwapPixels => exact seq hp
  case setSwap =>
    cases hp
    rfl
  case initDma =>
    unfold planInitDma at hp
    split at hp <;> cases hp <;> rfl
  case deinitDma =>
    unfold planDeinitDma at hp
    split at hp <;> cases hp <;> rfl
  case dmaBusy =>
    cases hp
    rfl
  case dmaWait =>
    cases hp
    rfl
  case pushPixelsDma =>
    unfold planPushPixelsDma at hp
    repeat' split at hp
    all_goals cases hp
    · rfl
    · simp [busFit, hd]
  case pushImageDma =>
    unfold planPushImageDma at hp
    simp only [] at hp
    repeat' split at hp
    all_goals cases hp
    · rfl
    · rfl
    · rfl
    · unfold windowOps
      simp only [List.append_assoc, List.cons_append, List.nil_append, busFit]
      refine h.stage _ _ _ _ _ _ _ _ _ fun v' => ?_
      simp [busFit, windowTx, hd]
      omega

end Sys2Proof.Machine
end

