-- ==== Sys2Proof/Laws/Run.lean ====
section
/-! SUPPORT. Runs: one more step, what every state reached has, and runs that come to a state that
steps to itself. -/

namespace Sys2Proof.Machine

/-- A run of the machine, in the model's own types. -/
def runFor (n : Nat) (s : State) : Result := Host.Core.run Sys2Proof.core n s

@[simp] theorem runFor_zero (s : State) : runFor 0 s = .next s := rfl

theorem runFor_next {s t : State} (h : step s = .next t) (n : Nat) :
    runFor (n + 1) s = runFor n t := by
  simp only [runFor, Host.Core.run]
  rw [show Sys2Proof.core.step s = .next t from h]

theorem runFor_fault {s : State} {f : Fault} (h : step s = .fault f) (n : Nat) :
    runFor (n + 1) s = .fault f := by
  simp only [runFor, Host.Core.run]
  rw [show Sys2Proof.core.step s = .fault f from h]
  rfl

theorem runFor_refused {s : State} {r : Refusal} (h : step s = .refused r) (n : Nat) :
    runFor (n + 1) s = .refused r := by
  simp only [runFor, Host.Core.run]
  rw [show Sys2Proof.core.step s = .refused r from h]
  rfl

/-- A run of at least one step goes through a next state. -/
theorem runFor_succ_next {n : Nat} {s t : State} (h : runFor (n + 1) s = .next t) :
    ∃ u, step s = .next u ∧ runFor n u = .next t := by
  cases hs : step s with
  | next u => exact ⟨u, rfl, by rwa [runFor_next hs] at h⟩
  | fault f => rw [runFor_fault hs] at h; cases h
  | refused r => rw [runFor_refused hs] at h; cases h

theorem runFor_add {m n : Nat} {s t : State} (h : runFor m s = .next t) :
    runFor (m + n) s = runFor n t := by
  induction m generalizing s with
  | zero =>
    cases h
    rw [Nat.zero_add]
  | succ m ih =>
    obtain ⟨u, hu, h⟩ := runFor_succ_next h
    rw [Nat.succ_add, runFor_next hu, ih h]

/-- What every step keeps, every state reached has. -/
theorem reaches_keeps {P : State → Prop} (hk : ∀ u v, P u → step u = .next v → P v) {s t : State}
    (h : Reaches s t) (hp : P s) : P t := by
  obtain ⟨n, h⟩ := h
  change runFor n s = .next t at h
  induction n generalizing s with
  | zero =>
    cases h
    exact hp
  | succ n ih =>
    obtain ⟨u, hu, h⟩ := runFor_succ_next h
    exact ih (hk _ _ hp hu) h

theorem reaches_step {s t u : State} (h : Reaches s t) (hu : step t = .next u) : Reaches s u := by
  obtain ⟨n, h⟩ := h
  change runFor n s = .next t at h
  refine ⟨n + 1, ?_⟩
  show runFor (n + 1) s = .next u
  rw [runFor_add h, runFor_next hu]
  rfl

/-- A state that steps to itself is where its runs stay. -/
theorem runFor_fixed {s : State} (h : step s = .next s) (n : Nat) : runFor n s = .next s := by
  induction n with
  | zero => rfl
  | succ n ih => rw [runFor_next h, ih]

/-- A run that comes to a state that steps to itself reaches only the states on the way. -/
theorem reaches_on_the_way {N : Nat} {s f t : State} (hf : runFor N s = .next f)
    (hs : step f = .next f) (h : Reaches s t) : ∃ k, k ≤ N ∧ runFor k s = .next t := by
  obtain ⟨n, h⟩ := h
  change runFor n s = .next t at h
  by_cases hn : n ≤ N
  · exact ⟨n, hn, h⟩
  · obtain ⟨d, rfl⟩ := Nat.exists_eq_add_of_le (Nat.le_of_not_le hn)
    rw [runFor_add hf, runFor_fixed hs] at h
    cases h
    exact ⟨N, Nat.le_refl _, hf⟩

/-- A run that comes to rest in a state that steps to itself is fair. -/
theorem fair_of_fixed {N : Nat} {s f : State} (hf : runFor N s = .next f) (hs : step f = .next f)
    (hb : f.busy = false) (hd : dmacReady f = false) : Fair s := by
  intro t ht
  obtain ⟨k, hk, ht⟩ := reaches_on_the_way hf hs ht
  have h : ∀ u, Host.Core.run Sys2Proof.core N t = .next u → u = f := by
    intro u hu
    change runFor N t = .next u at hu
    have h1 : runFor (k + N) s = .next u := by rw [runFor_add ht, hu]
    rw [Nat.add_comm, runFor_add hf, runFor_fixed hs] at h1
    cases h1
    rfl
  exact ⟨⟨N, fun u hu => h u hu ▸ hb⟩, N, fun u hu => .inl (h u hu ▸ hd)⟩

end Sys2Proof.Machine
end

