-- ==== Sys2Proof/Laws/Steps.lean ====
section
/-! SUPPORT. What each agent's step can answer, said once: the other proofs take a step apart with
these lemmas and do not unfold it. -/

namespace Sys2Proof.Machine

/-- All that the SBU's step can do. -/
theorem sbuStep_next {s t : State} (h : sbuStep s = .next t) :
    (s.busy = false ∧ t = s)
      ∨ (s.busy = true ∧ (s.bitlen.toNat + 1) % 8 = 0
          ∧ t = { emit s (shiftedBytes s) with busy := false }) := by
  unfold sbuStep at h
  split at h
  · cases h
    exact .inl ⟨‹_›, rfl⟩
  · rename_i hb
    split at h <;> cases h
    rename_i hw
    exact .inr ⟨by simpa using hb, by omega, rfl⟩

/-- After its step the SBU is not enabled. -/
theorem sbuStep_busy {s t : State} (h : sbuStep s = .next t) : t.busy = false := by
  rcases sbuStep_next h with ⟨hb, rfl⟩ | ⟨_, _, rfl⟩
  · exact hb
  · rfl

/-- All that the DMAC's step can do. -/
theorem dmacStep_next {s t : State} (h : dmacStep s = .next t) :
    (dmacReady s = false ∧ t = s)
      ∨ ∃ x q, dmacReady s = true ∧ s.queue = x :: q ∧ txInvalid s.cfg x.body = none
          ∧ t = performTx x { s with queue := q } := by
  unfold dmacStep at h
  split at h
  · rename_i hr
    split at h
    · rename_i hq
      simp [dmacReady, hq] at hr
    · rename_i x q hq
      split at h <;> cases h
      exact .inr ⟨x, q, hr, hq, ‹_›, rfl⟩
  · rename_i hr
    cases h
    exact .inl ⟨by simpa using hr, rfl⟩

/-- All that the step a blocked drain waits for can do. -/
theorem helpDrain_next {s t : State} (h : helpDrain s = .next t) :
    (s.busy = true ∧ sbuStep s = .next t) ∨ (dmacReady s = true ∧ dmacStep s = .next t) := by
  unfold helpDrain at h
  split at h
  · rename_i hb
    simp only [Bool.and_eq_true] at hb
    exact .inl ⟨hb.2, h⟩
  · split at h
    · exact .inr ⟨‹_›, h⟩
    · cases h

/-- What the SBU's and the DMAC's steps keep, waiting for an event keeps. -/
theorem awaitEvent_keeps {P : State → Prop} (hs : ∀ u v, P u → sbuStep u = .next v → P v)
    (hd : ∀ u v, P u → dmacStep u = .next v → P v) {s t : State} (hp : P s)
    (h : awaitEvent s = .next t) : P t := by
  have help : ∀ u, P u → helpDrain u = .next t → P t := by
    intro u hu h
    rcases helpDrain_next h with ⟨_, h⟩ | ⟨_, h⟩
    · exact hs _ _ hu h
    · exact hd _ _ hu h
  unfold awaitEvent at h
  split at h
  · cases h
    exact hp
  · split at h
    · split at h
      · exact help _ (hs _ _ hp ‹_›) h
      · cases h
      · cases h
    · exact help _ hp h

/-- What the SBU's and the DMAC's steps and the taking of an event keep, a drain keeps. -/
theorem drainLoop_keeps {P : State → Prop} (hs : ∀ u v, P u → sbuStep u = .next v → P v)
    (hd : ∀ u v, P u → dmacStep u = .next v → P v) (hc : ∀ u, P u → P (takeCompletion u)) :
    ∀ (n : Nat) {s t : State}, P s → drainLoop n s = .next t → P t := by
  intro n
  induction n with
  | zero =>
    intro s t hp h
    cases h
    exact hp
  | succ n ih =>
    intro s t hp h
    simp only [drainLoop] at h
    split at h
    · exact ih (hc _ (awaitEvent_keeps hs hd hp ‹_›)) h
    · cases h
    · cases h

/-- A sample of `Q_OK`: one answer fewer listed, or one more drawn; the answer is the listed one. -/
theorem drawQ_eq (s : State) : ∃ (ok : Bool) (d : Nat),
    drawQ s = (ok, { s with qIn := s.qIn.tail, draws := d })
      ∧ ((s.qIn = [] ∧ d = s.draws + 1) ∨ (s.qIn = ok :: s.qIn.tail ∧ d = s.draws)) := by
  unfold drawQ
  split
  · rename_i b rest hq
    exact ⟨b, s.draws, by simp [hq], .inr ⟨by simp [hq], rfl⟩⟩
  · rename_i hq
    exact ⟨Config.qOk s.draws, s.draws + 1, by simp [hq], .inl ⟨hq, rfl⟩⟩

/-- A sample of `ACQ_OK`. -/
theorem drawAcq_eq (s : State) : ∃ (ok : Bool) (d : Nat),
    drawAcq s = (ok, { s with acqIn := s.acqIn.tail, draws := d })
      ∧ ((s.acqIn = [] ∧ d = s.draws + 1) ∨ (s.acqIn = ok :: s.acqIn.tail ∧ d = s.draws)) := by
  unfold drawAcq
  split
  · rename_i b rest hq
    exact ⟨b, s.draws, by simp [hq], .inr ⟨by simp [hq], rfl⟩⟩
  · rename_i hq
    exact ⟨Config.acqOk s.draws, s.draws + 1, by simp [hq], .inl ⟨hq, rfl⟩⟩

/-- All that `queue_tx` can do. -/
theorem queueTx_go {t : Transaction} {s u : State} (h : queueTx t s = .go u) :
    ∃ (ok : Bool) (d : Nat),
      ((s.qIn = [] ∧ d = s.draws + 1) ∨ (s.qIn = ok :: s.qIn.tail ∧ d = s.draws))
        ∧ ((ok = true ∧ s.queue.length < s.cfg.queueDepth
              ∧ u = appendTx t { s with qIn := s.qIn.tail, draws := d })
          ∨ (ok = false
              ∧ u = raiseFatal .queueFault { s with qIn := s.qIn.tail, draws := d })) := by
  obtain ⟨ok, d, he, hd⟩ := drawQ_eq s
  refine ⟨ok, d, hd, ?_⟩
  simp only [queueTx, he] at h
  split at h
  · cases h
  · rename_i hr
    cases h
    cases ok
    · exact .inr ⟨rfl, rfl⟩
    · exact .inl ⟨rfl, by simpa using hr, rfl⟩

/-- All that `acquireBus` can do. -/
theorem acquireBus_cases (s : State) : ∃ (ok : Bool) (d : Nat),
    ((s.acqIn = [] ∧ d = s.draws + 1) ∨ (s.acqIn = ok :: s.acqIn.tail ∧ d = s.draws))
      ∧ ((ok = true ∧ acquireBus s =
            { s with acqIn := s.acqIn.tail, draws := d, qHandle := some (), dmaEn := true })
        ∨ (ok = false
            ∧ acquireBus s = raiseFatal .acquireFail { s with acqIn := s.acqIn.tail, draws := d })) := by
  obtain ⟨ok, d, he, hd⟩ := drawAcq_eq s
  refine ⟨ok, d, hd, ?_⟩
  simp only [acquireBus, he]
  cases ok
  · exact .inr ⟨rfl, rfl⟩
  · exact .inl ⟨rfl, rfl⟩

/-- What a line's wait keeps. -/
theorem settle_keeps {P : State → Prop} (hs : ∀ u v, P u → sbuStep u = .next v → P v)
    (hd : ∀ u v, P u → dmacStep u = .next v → P v) (hc : ∀ u, P u → P (takeCompletion u))
    {op : MicroOp} {s t : State} (hp : P s) (h : settle op s = .next t) : P t := by
  cases op <;>
    first
    | (cases h; exact hp)
    | exact hs _ _ hp h
    | exact drainLoop_keeps hs hd hc _ hp h

/-- What the agents' steps, the taking of an event and the effect of every line keep, lines
executed one after another keep. -/
theorem runLines_keeps {P : State → Prop} (hs : ∀ u v, P u → sbuStep u = .next v → P v)
    (hd : ∀ u v, P u → dmacStep u = .next v → P v) (hc : ∀ u, P u → P (takeCompletion u))
    (ops : List MicroOp) :
    (∀ op ∈ ops, ∀ u v, P u → act op u = .go v → P v) →
    ∀ {s t : State}, P s → runLines ops s = .go t → P t := by
  induction ops with
  | nil =>
    intro _ s t hp h
    cases h
    exact hp
  | cons op ops ih =>
    intro ha s t hp h
    rw [runLines_cons] at h
    split at h
    · rename_i u hu
      refine ih (fun o ho => ha o (.tail _ ho)) ?_ h
      unfold runLine at hu
      split at hu
      · cases hu
        exact hp
      · split at hu
        · exact ha op (.head _) _ _ (settle_keeps hs hd hc hp ‹_›) hu
        · cases hu
        · cases hu
    · cases h

/-- What an operation keeps, executed in one step. -/
theorem exec_keeps {P : State → Prop} (hs : ∀ u v, P u → sbuStep u = .next v → P v)
    (hd : ∀ u v, P u → dmacStep u = .next v → P v) (hc : ∀ u, P u → P (takeCompletion u))
    (ha : ∀ op u v, P u → act op u = .go v → P v)
    (hb : ∀ i ops ret u, P u → P (beginOp i ops ret u)) (hf : ∀ ret u, P u → P (complete ret u))
    {i : Instr} {s t : State} (hp : P s) (h : exec i s = .next t) : P t := by
  rw [exec_eq_perform] at h
  by_cases he : s.eng = .idle
  · obtain ⟨ops, ret, u, _, hu, rfl⟩ := perform_next he h
    exact hf _ _ (runLines_keeps hs hd hc ops (fun op _ => ha op) (hb _ _ _ _ hp) hu)
  · rw [perform_not_idle he] at h
    cases h
    exact hp

/-- All that one step of the engine can do with an operation in progress. -/
theorem engineStep_next {s t : State} {k : Nat} {op : MicroOp} {ops : List MicroOp}
    {ret : Option Bool} (he : s.eng = .run k (op :: ops) ret) (h : engineStep s = .next t) :
    (blocked op s = true ∧ t = s)
      ∨ (blocked op s = false ∧ op = .drain ∧ s.pending ≠ 0 ∧ t = takeCompletion s)
      ∨ ∃ u, blocked op s = false ∧ (op = .drain → s.pending = 0) ∧ act op s = .go u
          ∧ t = if halted u then u else { u with eng := .run (k + 1) ops ret } := by
  unfold engineStep at h
  simp only [he] at h
  split at h
  · cases h
    exact .inl ⟨‹_›, rfl⟩
  · rename_i hb
    have hb' : blocked op s = false := by simpa using hb
    split at h
    · rename_i hd
      cases h
      simp only [Bool.and_eq_true, decide_eq_true_eq] at hd
      exact .inr (.inl ⟨hb', hd.1, hd.2, rfl⟩)
    · rename_i hd
      split at h
      · cases h
        exact .inr (.inr ⟨_, hb', by simpa using hd, ‹_›, rfl⟩)
      · rename_i r hr
        subst h
        exact absurd hr (act_stop_ne_next _ _ _)

/-- The effect of a line leaves the host's side and the configuration alone, and the engine where it
was unless it halts. -/
theorem act_keeps_inputs {op : MicroOp} {s t : State} (h : act op s = .go t) :
    t.cfg = s.cfg ∧ t.sched = s.sched ∧ t.port = s.port ∧ t.rdata = s.rdata ∧ t.mdata = s.mdata
      ∧ (t.eng = s.eng ∨ t.eng = .halt) := by
  cases op
  case queueTx x =>
    obtain ⟨ok, d, _, ⟨_, _, rfl⟩ | ⟨_, rfl⟩⟩ := queueTx_go h
    · simp
    · simp
  case acquire =>
    cases h
    obtain ⟨ok, d, _, ⟨_, e⟩ | ⟨_, e⟩⟩ := acquireBus_cases s <;> simp [e]
  case copyCell src dst sw =>
    simp only [act] at h
    repeat' split at h
    all_goals cases h
    rename_i hu
    unfold memWrite at hu
    split at hu <;> cases hu
    simp
  all_goals
    simp only [act, whenFree] at h
    repeat' split at h
    all_goals cases h
    all_goals simp

/-- No step of the engine, of the SBU or of the DMAC touches the schedule: a step takes its head. -/
theorem moveStep_sched {m : Move} {s t : State} (h : moveStep m s = .next t) : t.sched = s.sched := by
  have hs : ∀ u v : State, u.sched = s.sched → sbuStep u = .next v → v.sched = s.sched := by
    intro u v hu h
    rcases sbuStep_next h with ⟨_, rfl⟩ | ⟨_, _, rfl⟩ <;> exact hu
  have hd : ∀ u v : State, u.sched = s.sched → dmacStep u = .next v → v.sched = s.sched := by
    intro u v hu h
    rcases dmacStep_next h with ⟨_, rfl⟩ | ⟨_, _, _, _, _, rfl⟩ <;> exact hu
  have hf : ∀ ret (u : State), u.sched = s.sched → (complete ret u).sched = s.sched := by
    intro ret u hu
    unfold complete
    split <;> exact hu
  cases m <;> simp only [moveStep] at h
  case command =>
    unfold takeCommand at h
    repeat' split at h
    · rename_i i rest _
      exact exec_keeps (P := fun u => u.sched = s.sched) (s := { s with port := rest }) hs hd (fun _ hu => hu)
        (fun _ _ _ hu ha => (act_keeps_inputs ha).2.1.trans hu) (fun _ _ _ _ hu => hu) hf
        rfl h
    all_goals
      cases h
      rfl
  case accept =>
    unfold acceptCommand acceptPlan at h
    repeat' split at h
    all_goals first | (cases h; rfl) | cases h
  case engine =>
    cases he : s.eng with
    | run k todo ret =>
      cases todo with
      | nil =>
        simp only [engineStep, he] at h
        cases h
        exact hf _ _ rfl
      | cons op ops =>
        obtain ⟨_, rfl⟩ | ⟨_, _, _, rfl⟩ | ⟨u, _, _, ha, rfl⟩ := engineStep_next he h
        · rfl
        · rfl
        · split <;> exact (act_keeps_inputs ha).2.1
    | idle =>
      simp only [engineStep, he] at h
      cases h
      rfl
    | halt =>
      simp only [engineStep, he] at h
      cases h
      rfl
  case sbu => exact hs _ _ rfl h
  case dmac => exact hd _ _ rfl h
  case hostWrite a v =>
    split at h
    · rename_i u hu
      cases h
      unfold memWrite at hu
      split at hu <;> cases hu
      rfl
    · cases h
  all_goals
    repeat' split at h
    all_goals cases h
    all_goals rfl

/-- What every part of a step keeps, a step keeps: the steps of the SBU and of the DMAC, the taking
of an event, the effect of a line, the start and the end of an operation, an illegal header, a reset,
and the moves of the host and of outside agents. -/
theorem step_keeps {P : State → Prop} (hs : ∀ u v, P u → sbuStep u = .next v → P v)
    (hd : ∀ u v, P u → dmacStep u = .next v → P v) (hc : ∀ u, P u → P (takeCompletion u))
    (ha : ∀ op u v, P u → act op u = .go v → P v)
    (hb : ∀ i ops ret u, P u → P (beginOp i ops ret u)) (hf : ∀ ret u, P u → P (complete ret u))
    (he : ∀ u e, P u → P { u with eng := e }) (hi : ∀ u, P u → P (takeIllegal u))
    (hr : ∀ u, P u → P (resetFrom u)) (hm : ∀ u m, P u → P { u with pmem := m })
    (hh : ∀ u d q p r m l, P u →
      P { u with done := d, sched := q, port := p, rdata := r, mdata := m, dc := l })
    {s t : State} (hp : P s) (h : step s = .next t) : P t := by
  have take : ∀ u v, P u → takeCommand u = .next v → P v := by
    intro u v hu h
    unfold takeCommand at h
    repeat' split at h
    · rename_i i rest _
      exact exec_keeps (s := { u with port := rest }) hs hd hc ha hb hf
        (hh u _ _ rest _ _ _ hu) h
    · cases h
      exact hi _ hu
    · cases h
      exact hu
    · cases h
      exact hu
  have engine : ∀ u v, P u → engineStep u = .next v → P v := by
    intro u v hu h
    cases hg : u.eng with
    | idle =>
      simp only [engineStep, hg] at h
      cases h
      exact hu
    | halt =>
      simp only [engineStep, hg] at h
      cases h
      exact hu
    | run k todo ret =>
      cases todo with
      | nil =>
        simp only [engineStep, hg] at h
        cases h
        exact hf _ _ hu
      | cons op ops =>
        obtain ⟨_, rfl⟩ | ⟨_, _, _, rfl⟩ | ⟨x, _, _, hx, rfl⟩ := engineStep_next hg h
        · exact hu
        · exact hc _ hu
        · split
          · exact ha _ _ _ hu hx
          · exact he _ _ (ha _ _ _ hu hx)
  have rest : ∀ u v, P u → restStep u = .next v → P v := by
    intro u v hu h
    unfold restStep at h
    split at h
    · exact hs _ _ hu h
    · exact hd _ _ hu h
  have progress : ∀ u v, P u → progressStep u = .next v → P v := by
    intro u v hu h
    unfold progressStep at h
    split at h
    · split at h
      · exact hs _ _ hu h
      · exact engine _ _ hu h
    · split at h
      · rcases helpDrain_next h with ⟨_, h⟩ | ⟨_, h⟩
        · exact hs _ _ hu h
        · exact hd _ _ hu h
      · exact engine _ _ hu h
    · exact engine _ _ hu h
  have default : ∀ u v, P u → defaultStep u = .next v → P v := by
    intro u v hu h
    unfold defaultStep at h
    split at h
    · split at h
      · exact rest _ _ hu h
      · exact take _ _ hu h
    · exact progress _ _ hu h
    · exact rest _ _ hu h
  have move : ∀ m u v, P u → moveStep m u = .next v → P v := by
    intro m u v hu h
    cases m <;> simp only [moveStep] at h
    case command => exact take _ _ hu h
    case engine => exact engine _ _ hu h
    case sbu => exact hs _ _ hu h
    case dmac => exact hd _ _ hu h
    case accept =>
      unfold acceptCommand acceptPlan at h
      repeat' split at h
      all_goals cases h
      · exact hb _ _ _ _ (hh u _ _ _ _ _ _ hu)
      · exact hi _ hu
      · exact hu
      · exact hu
    case hostWrite a x =>
      split at h
      · rename_i w hw
        cases h
        unfold memWrite at hw
        split at hw <;> cases hw
        exact hm _ _ hu
      · cases h
    case reset =>
      cases h
      exact hr _ hu
    all_goals
      repeat' split at h
      all_goals cases h
      all_goals exact hh u _ _ _ _ _ _ hu
  unfold step scheduledStep at h
  split at h
  · exact default _ _ (hh s _ _ _ _ _ _ hp) h
  · exact move _ _ _ (hh s _ _ _ _ _ _ hp) h

end Sys2Proof.Machine
end

