-- ==== Sys2Proof/Laws/Window.lean ====
section
/-! SUPPORT. The two tests that reject a window, one axis of the clipper as inequalities, and the
staging copy as a list of cells copied in order (spec/42_dma_engine.md R182, R183, R186). -/

namespace Sys2Proof.Machine

theorem originOutside_iff {c : Params} {x y : Int} :
    originOutside c x y = true ↔ (c.dispW : Int) ≤ x ∨ (c.dispH : Int) ≤ y := by
  simp [originOutside]

theorem emptyExtent_iff {k : Clipped} : emptyExtent k = true ↔ k.w < 1 ∨ k.h < 1 := by
  simp [emptyExtent]

theorem clipAxis_origin (x w b : Int) : (clipAxis x w b).1 = max x 0 := by
  simp only [clipAxis]
  split <;> omega

theorem clipAxis_extent (x w b : Int) : (clipAxis x w b).2.1 = min (x + w) b - max x 0 := by
  simp only [clipAxis]
  split <;> split <;> omega

theorem clipAxis_offset (x w b : Int) : (clipAxis x w b).2.2 = max (-x) 0 := by
  simp only [clipAxis]
  split <;> omega

/-- A window that the clip leaves whole has no source offset. -/
theorem clip_whole {c : Params} {x y w h : Int} (hw : (clip c x y w h).w = w)
    (hh : (clip c x y w h).h = h) : (clip c x y w h).dx = 0 ∧ (clip c x y w h).dy = 0 := by
  simp only [clip, clipAxis_extent, clipAxis_offset] at hw hh ⊢
  omega

/-- A block of rows, numbered row by row. -/
theorem range_mul {α : Type} (n m : Nat) (f : Nat → α) :
    ((List.range n).flatMap fun y => (List.range m).map fun x => f (y * m + x))
      = (List.range (n * m)).map f := by
  induction n with
  | zero => simp
  | succ n ih =>
    rw [List.range_succ, List.flatMap_append, ih, Nat.succ_mul, List.range_add]
    simp

/-- The lines of a copy of cells. -/
def copyLines (sw : Bool) (l : List (Nat × Nat)) : List MicroOp :=
  l.map fun p => .copyCell p.1 p.2 sw

/-- The staging copy of a window, where something is copied: the cells of `copyOrder`, in order. -/
theorem stageOps_copies {c : Params} {x y : Int} {w h img buf : Nat} {sw : Bool}
    (hn : ¬ CopiesNothing (clip c x y w h) img buf w h sw) :
    stageOps img buf w h (clip c x y w h) sw
      = copyLines sw (copyOrder (clip c x y w h) img buf w) := by
  unfold stageOps
  split
  · simp only [stageClippedOps, copyLines, copyOrder, List.map_flatMap, List.map_map,
      Function.comp_def]
  · rename_i hk
    have hw : (clip c x y w h).w = w := Decidable.byContradiction fun h => hk (.inl h)
    have hh : (clip c x y w h).h = h := Decidable.byContradiction fun h => hk (.inr h)
    obtain ⟨hx, hy⟩ := clip_whole hw hh
    rw [if_pos]
    · simp only [stageWholeOps, copyLines, copyOrder, hw, hh, hx, hy, imageAddr, stagingAddr,
        Int.toNat_natCast, Int.toNat_zero, Nat.zero_add, Nat.add_zero, List.map_flatMap,
        List.map_map, Function.comp_def, Nat.add_assoc]
      rw [Nat.mul_comm w h, ← range_mul h w fun i => MicroOp.copyCell (img + i) (buf + i) sw]
    · refine Decidable.byContradiction fun hc => hn ⟨hw, hh, ?_, ?_⟩
      · exact Decidable.byContradiction fun h => hc (.inl h)
      · cases sw
        · rfl
        · exact absurd (.inr rfl) hc

theorem stageOps_nothing {k : Clipped} {w h img buf : Nat} {sw : Bool}
    (hn : CopiesNothing k img buf w h sw) : stageOps img buf w h k sw = [] := by
  obtain ⟨hw, hh, hb, hs⟩ := hn
  simp [stageOps, hw, hh, hb, hs]

/-- Memory after a list of copies. -/
def copyMem (sw : Bool) : List (Nat × Nat) → List Host.Cell → List Host.Cell
  | [], m => m
  | p :: l, m => copyMem sw l (Memory.writeCell m p.2 (swapVal (Memory.readCell m p.1) sw))

theorem copyMem_wf (sw : Bool) (l : List (Nat × Nat)) {m : List Host.Cell}
    (hm : Memory.wf m = true) : Memory.wf (copyMem sw l m) = true := by
  induction l generalizing m with
  | nil => exact hm
  | cons p l ih => exact ih (Memory.writeCell_wf _ _ _ hm)

/-- What each cell holds after the copies. -/
theorem copyMem_readCell (sw : Bool) (l : List (Nat × Nat)) {m : List Host.Cell}
    (hm : Memory.wf m = true) (a : Nat) :
    Memory.readCell (copyMem sw l m) a = copyCells sw l (Memory.readCell m) a := by
  induction l generalizing m with
  | nil => rfl
  | cons p l ih =>
    rw [copyMem, ih (Memory.writeCell_wf _ _ _ hm), copyCells]
    congr 1
    funext b
    exact Memory.readCell_writeCell _ _ _ _ hm

/-- A copy whose cells all exist runs to its end. -/
theorem runLines_copyLines (sw : Bool) (l : List (Nat × Nat)) {s : State} (hs : halted s = false)
    (hl : ∀ p ∈ l, s.cfg.pmemValid p.1 = true ∧ s.cfg.pmemValid p.2 = true) :
    runLines (copyLines sw l) s = .go { s with pmem := copyMem sw l s.pmem } := by
  induction l generalizing s with
  | nil => rfl
  | cons p l ih =>
    obtain ⟨h1, h2⟩ := hl p (.head _)
    have ha : act (.copyCell p.1 p.2 sw) s = .go { s with
        pmem := Memory.writeCell s.pmem p.2 (swapVal (Memory.readCell s.pmem p.1) sw) } := by
      simp [act, memRead, memWrite, h1, h2]
    have hr : runLine (.copyCell p.1 p.2 sw) s = .go { s with
        pmem := Memory.writeCell s.pmem p.2 (swapVal (Memory.readCell s.pmem p.1) sw) } := by
      rw [runLine_plain hs (by simp) (by simp), ha]
    rw [copyLines, List.map_cons, runLines_cons_go hr]
    exact ih hs fun q hq => hl q (.tail _ hq)

/-- A copy is stuck at the first cell that does not exist. -/
theorem runLines_copyLines_stuck (sw : Bool) {pre post : List (Nat × Nat)} {src dst : Nat}
    {s : State} (hs : halted s = false)
    (hl : ∀ p ∈ pre, s.cfg.pmemValid p.1 = true ∧ s.cfg.pmemValid p.2 = true) :
    (s.cfg.pmemValid src = false → runLines (copyLines sw (pre ++ (src, dst) :: post)) s
        = .stop (.fault (.engineStuckAt src)))
      ∧ (s.cfg.pmemValid src = true → s.cfg.pmemValid dst = false →
        runLines (copyLines sw (pre ++ (src, dst) :: post)) s
          = .stop (.fault (.engineStuckAt dst))) := by
  have split : copyLines sw (pre ++ (src, dst) :: post)
      = copyLines sw pre ++ (.copyCell src dst sw :: copyLines sw post) := by
    simp [copyLines]
  rw [split, runLines_append_go (runLines_copyLines sw pre hs hl)]
  refine ⟨fun h1 => ?_, fun h1 h2 => ?_⟩
  all_goals
    refine runLines_cons_stop ?_
    rw [runLine_plain (by exact hs) (by simp) (by simp)]
    simp [act, memRead, memWrite, *]

end Sys2Proof.Machine
end

