-- ==== Sys2Proof/Tests/Slice0.lean ====
section
/-! SUPPORT. Tests of the model on the spec's own numbers (spec/95_test_vectors.md), and for every
obligation with hypotheses a state and operands that meet them. -/

namespace Sys2Proof.Tests

open Sys2Proof Sys2Proof.Machine

/-- What a function says of the next state, if there is one. -/
def after {α : Type} (r : Result) (f : State → α) : Option α :=
  match r with
  | .next s => some (f s)
  | .fault _ => none
  | .refused _ => none

/-- Reset, in a given configuration. -/
def inCfg (b : BusMode) (f : ColorFmt) : State :=
  State.resetWith { Params.examples with busMode := b, colorFmt := f }

/-- The three cells of 95_test_vectors.md section 3.3, at 0x2000. -/
def cells3 : List Host.Cell :=
  Memory.writeCell (Memory.writeCell (Memory.writeCell [] 0x2000 0x1234) 0x2001 0xABCD) 0x2002 0x00FF

/-- An initialised engine at rest. -/
def ready : State :=
  { State.reset with dmaEn := true, qHandle := some (), pmem := cells3, qIn := List.replicate 6 true }

/-- An initialised engine with one payload of two pixels queued. -/
def queued : State :=
  { ready with queue := [⟨.data, .payload 0x2000 2, 32⟩], pending := 1 }

/-! ## Well-formedness and decoding (30_encoding.md R94 to R99, 95_test_vectors.md section 6) -/

theorem test_wellFormed_accepts :
    (Header.ofWord 0xF8000001).wellFormed = true ∧ (Header.ofWord 0x00000115).wellFormed = true := by
  decide

theorem test_wellFormed_unknown_opcode :
    (Header.ofWord 0x00000005).fault? = some .unknownOpcode := by decide

theorem test_wellFormed_reserved_bits :
    (Header.ofWord 0x00000201).fault? = some .reservedBits := by decide

theorem test_wellFormed_flag :
    (Header.ofWord 0x00000110).fault? = some .flagNotAllowed := by decide

theorem test_wellFormed_immediate :
    (Header.ofWord 0x00010002).fault? = some .immediateNotAllowed := by decide

theorem test_decode_pushBlock :
    decode [0xF8000001, 40, 9] = .instr (.pushBlock 0xF800 40) [9] := by decide

theorem test_decode_pushPixels :
    decode [0x00000002, 0x2000, 3] = .instr (.pushPixels 0x2000 3) [] := by decide

theorem test_decode_pushSwapPixels :
    decode [0x00000003, 0x2000, 3] = .instr (.pushSwapPixels 0x2000 3) [] := by decide

theorem test_decode_setSwap :
    decode [0x00000104] = .instr (.setSwap true) []
      ∧ decode [0x00000004] = .instr (.setSwap false) [] := by decide

theorem test_decode_initDma : decode [0x00000010] = .instr .initDma [] := by decide

theorem test_decode_deinitDma : decode [0x00000011] = .instr .deinitDma [] := by decide

theorem test_decode_dmaBusy : decode [0x00000012] = .instr .dmaBusy [] := by decide

theorem test_decode_dmaWait : decode [0x00000013] = .instr .dmaWait [] := by decide

theorem test_decode_pushPixelsDma :
    decode [0x00000014, 0x3000, 2] = .instr (.pushPixelsDma 0x3000 2) [] := by decide

theorem test_decode_pushImageDma :
    decode [0x00000015, 0xFFFFFFFB, 0, 20, 10, 0x1000, 0] =
      .instr (.pushImageDma false 0xFFFFFFFB 0 20 10 0x1000 0) [] := by decide

theorem test_decode_waits : decode [0x00000002, 0x2000] = .more := by decide

theorem test_encode_program :
    encode (.pushImageDma true 2 0xFFFFFFFF 3 3 0x400 0x500) =
      [0x00000115, 2, 0xFFFFFFFF, 3, 3, 0x400, 0x500] := by decide

/-! ## The packer (95_test_vectors.md section 2) -/

theorem test_bytes565 : bytes565 .hi 0xABCD true = [0xCD, 0xAB] := by decide

theorem test_bytes666 : bytes666 0xABCD true = [0xC8, 0xB4, 0x58] := by decide

theorem test_group666 : group666 0x1234 false = [0x10A04410, 0x4410A044, 0xA04410A0] := by decide

theorem test_word565 : word565 .hi 0x1234 0xABCD true = 0xABCD1234 := by decide

theorem test_word666 : word666 0x00FF false = 0x00F81C00 := by decide

/-! ## One step of each operation -/

/-- 95_test_vectors.md section 3.1, RGB565, 33 pixels. -/
theorem test_pushBlock_serial :
    after (exec (.pushBlock 0xF800 33) (inCfg .serial .rgb565))
      (fun s => (s.xlog, s.wire.length, s.bitlen)) = some ([511, 15], 66, 15) := by decide

/-- 95_test_vectors.md section 3.4. -/
theorem test_pushBlock_parallel :
    after (exec (.pushBlock 0xFFFF 2) (inCfg .parallel .rgb666))
      (fun s => (s.wire.map Prod.snd, s.data, s.wr)) =
      some ([0xF8, 0xFC, 0xF8, 0xF8, 0xFC, 0xF8], 0xF8, true) := by decide

/-- 95_test_vectors.md section 3.3, first row. -/
theorem test_pushPixels_serial565 :
    after (exec (.pushPixels 0x2000 3) { inCfg .serial .rgb565 with pmem := cells3 })
      (fun s => (s.wire.map Prod.snd, s.xlog, s.w[0], s.w[1])) =
      some ([0x12, 0x34, 0xAB, 0xCD, 0x00, 0xFF], [47], 0xCDAB3412, 0x0000FF00) := by decide

/-- 95_test_vectors.md section 3.3, seventh row. -/
theorem test_pushPixels_serial666 :
    after (exec (.pushPixels 0x2000 3) { inCfg .serial .rgb666 with pmem := cells3 })
      (fun s => (s.wire.map Prod.snd, s.xlog, s.w[0])) =
      some ([0x10, 0x44, 0xA0, 0xA8, 0x78, 0x68, 0x00, 0x1C, 0xF8], [23, 23, 23], 0x00F81C00) := by
  decide

/-- 95_test_vectors.md section 3.3, third row: whatever `SWAP` is. -/
theorem test_pushSwapPixels_serial565 :
    after (exec (.pushSwapPixels 0x2000 3) { inCfg .serial .rgb565 with pmem := cells3 })
      (fun s => (s.wire.map Prod.snd, s.w[0], s.w[1])) =
      some ([0x34, 0x12, 0xCD, 0xAB, 0xFF, 0x00], 0xABCD1234, 0x000000FF) := by decide

/-- 95_test_vectors.md section 3.5. -/
theorem test_setSwap :
    after (exec (.setSwap true) State.reset) (fun s => statusReg s 0x0C) = some (some 1) := by decide

/-- 95_test_vectors.md section 4, steps 3 and 4. -/
theorem test_initDma :
    after (exec .initDma { State.reset with acqIn := [true] }) statusWord = some 0x7C1
      ∧ after (exec .initDma ready) statusWord = some 0x741 := by decide

/-- 95_test_vectors.md section 7, first row. -/
theorem test_initDma_fault :
    after (exec .initDma { State.reset with acqIn := [false] })
      (fun s => (statusWord s, s.faultCause, s.done)) = some (0x248, 1, false) := by decide

/-- 95_test_vectors.md section 4, step 8. -/
theorem test_deinitDma : after (exec .deinitDma ready) statusWord = some 0x340 := by decide

/-- 95_test_vectors.md section 4, steps 6 and 7. -/
theorem test_dmaBusy :
    statusWord queued = 0x753 ∧ after (exec .dmaBusy queued) statusWord = some 0x741 := by decide

theorem test_dmaWait :
    after (exec .dmaWait queued) (fun s => (s.wire.map Prod.snd, s.pending, s.queue)) =
      some ([0x12, 0x34, 0xAB, 0xCD], 0, []) := by decide

/-- 95_test_vectors.md section 4, step 6: two pixels of RGB565 are 32 bits. -/
theorem test_pushPixelsDma :
    after (exec (.pushPixelsDma 0x3000 2) ready) (fun s => (statusWord s, s.queue)) =
      some (0x753, [⟨.data, .payload 0x3000 2, 32⟩]) := by decide

/-- 95_test_vectors.md section 7, second row. -/
theorem test_pushImageDma_fault :
    after (exec (.pushImageDma false 0 0 2 2 0x100 0) { ready with result := true, qIn := [true, true, false] })
      (fun s => (statusWord s, s.faultCause, s.queue.length)) = some (0x6D9, 2, 2) := by decide

/-- 95_test_vectors.md section 5, the row 15, 15, 5, 5: one pixel, 16 bits. -/
theorem test_pushImageDma :
    after (exec (.pushImageDma false 15 15 5 5 0x2000 0) ready)
      (fun s => (s.pending, s.queue.map Transaction.bits, (s.queue.map Transaction.body)[1]?)) =
      some (6, [8, 32, 8, 32, 8, 16], some (.inline [0x00, 0x0F, 0x00, 0x0F])) := by decide

/-! ## The clipper (95_test_vectors.md section 5) -/

theorem test_clip_left : clip Params.examples (-5) 0 20 10 = ⟨0, 0, 15, 10, 5, 0⟩ := by decide

theorem test_clip_right : clip Params.examples 10 12 10 10 = ⟨10, 12, 6, 4, 0, 0⟩ := by decide

theorem test_clip_empty : emptyExtent (clip Params.examples (-20) 0 20 10) = true := by decide

/-! ## Illegal commands, reset, presenting an instruction -/

/-- 95_test_vectors.md section 6: after an illegal header. -/
theorem test_illegal :
    after (step { State.reset with port := [0x00000005, 7] })
      (fun s => (statusWord s, s.faultCause, s.port)) = some (0x248, 3, [7]) := by decide

theorem test_reset_leaves_halt :
    after (step { State.reset with fatal := true, eng := .halt, faultCause := 3, sched := [.reset] })
      statusWord = some 0x340 := by decide

theorem test_withFetchWord :
    after (step (State.reset.withFetchWord 32 0x00000104)) State.swap = some true := by decide

theorem test_decodeTableWord :
    decodeTableWord 224 0x15 = some (.pushImageDma false 0 0 0 0 0 0)
      ∧ decodeTableWord 32 0x15 = some (.pushImageDma false 0 0 0 0 0 0) := by decide

/-! ## States and operands that meet the hypotheses of the obligations -/

/-- The invariant of an idle engine, from facts that can be evaluated. -/
theorem inv_of_idle {s : State} (he : s.eng = .idle) (hm : Memory.wf s.pmem = true)
    (hf : s.fatal = false) (hc : s.faultCause = 0) (hh : s.qHandle.isSome = s.dmaEn)
    (hd : s.dmaEn = false → s.pending = 0 ∧ s.queue = [] ∧ s.compl = [])
    (hr : s.queue.length ≤ s.cfg.queueDepth)
    (hw : endsWell [] s.pending.toNat (s.queue.length + s.compl.length) s.busy s.wr s.dmaEn = true) :
    Inv s := by
  refine ⟨hm, by simp [hf, he], by simp [hf, hc], hh, hd, hr, ?_⟩
  intro todo h
  rw [he] at h
  cases h
  exact hw

/-- Every cell exists in the configuration of the examples. -/
theorem cells_valid (a n : Nat) (h : a + n ≤ 2 ^ 32) : CellsValid Params.examples a n := by
  intro k hk
  have h1 : a + k < 2 ^ 32 := by omega
  simp [Params.pmemValid, Params.examples]
  omega

theorem cells_valid_in (b : BusMode) (f : ColorFmt) (a n : Nat) (h : a + n ≤ 2 ^ 32) :
    CellsValid (inCfg b f).cfg a n := cells_valid a n h

theorem inv_reset : Inv State.reset :=
  inv_of_idle rfl (by decide) rfl rfl rfl (fun _ => ⟨rfl, rfl, rfl⟩) (by decide) (by decide)

theorem inv_ready : Inv ready :=
  inv_of_idle rfl (by decide) rfl rfl rfl (by decide) (by decide) (by decide)

theorem inv_queued : Inv queued :=
  inv_of_idle rfl (by decide) rfl rfl rfl (by decide) (by decide) (by decide)

theorem queueValid_ready : QueueValid ready := by
  intro t ht
  cases ht

theorem queueValid_queued : QueueValid queued := by
  intro t ht
  rw [List.mem_singleton.1 ht]
  decide

/-- A window's six transactions, two of them performed and none taken. -/
def halfPerformed : State :=
  { ready with
    queue := (windowTx .rgb565 1 2 1 1 0x2000).drop 2
    compl := (windowTx .rgb565 1 2 1 1 0x2000).take 2, nperf := 2, pending := 6 }

theorem inv_halfPerformed : Inv halfPerformed :=
  inv_of_idle rfl (by decide) rfl rfl rfl (by decide) (by decide) (by decide)

theorem queueValid_halfPerformed : QueueValid halfPerformed := by
  show ∀ t ∈ (windowTx .rgb565 1 2 1 1 0x2000).drop 2, txInvalid Params.examples t.body = none
  decide

/-- Two states in the middle of an operation: a transfer started, and a window with one
transaction queued. -/
def transferring : State :=
  { State.reset with
    eng := .run 18 [.waitIdle] none, busy := true, bitlen := 15, xlog := [15] }

def submitting : State :=
  { ready with
    eng := .run 3 ((windowTx .rgb565 1 2 1 1 0x2000).tail.map .queueTx ++ [.setPending 6]) none
    queue := [commandTx 0x2A] }

theorem test_hyps_EncodeOfDecode :
    decode [0x00000003, 5, 6, 7] = .instr (.pushSwapPixels 5 6) [7] := by decide

theorem test_hyps_LengthFollowsFromOpcode :
    ¬ IllegalHeader 0x00000115 ∧ ([0, 0, 0, 0, 0] : List Word).length < 6
      ∧ 6 ≤ ([0, 0, 0, 0, 0, 0] : List Word).length := by
  unfold IllegalHeader
  decide

theorem test_hyps_IllegalHeaderHalts :
    IllegalHeader 0x00000016 ∧ IllegalHeader 0x00008004 ∧ IllegalHeader 0x00000102
      ∧ IllegalHeader 0xF8000104
      ∧ { State.reset with port := [0x00000016, 1], sched := [.accept, .sbu] }.eng = .idle
      ∧ { State.reset with port := [0x00000016, 1], sched := [.command] }.sched = .command :: []
      ∧ State.reset.sched = [] := by
  unfold IllegalHeader
  decide

theorem test_hyps_SwapLaws : hiByte 0x5555 = loByte 0x5555 := by decide

theorem test_quiet_reset (b : BusMode) (f : ColorFmt) : Quiet (inCfg b f) := ⟨rfl, rfl, rfl, rfl⟩

theorem test_hyps_PushBlockSerialResult :
    Quiet (inCfg .serial .rgb666) ∧ (inCfg .serial .rgb666).cfg.busMode = .serial
      ∧ (20 : Word) ≠ 0 ∧ Quiet (inCfg .serial .rgb565) := by
  exact ⟨test_quiet_reset _ _, rfl, by decide, test_quiet_reset _ _⟩

theorem test_hyps_PushBlockParallelResult :
    Quiet (inCfg .parallel .rgb565) ∧ (inCfg .parallel .rgb565).cfg.busMode = .parallel
      ∧ (1 : Word) ≠ 0 := by
  exact ⟨test_quiet_reset _ _, rfl, by decide⟩

theorem test_hyps_SequenceSerial565Result :
    Quiet (inCfg .serial .rgb565) ∧ (inCfg .serial .rgb565).cfg.busMode = .serial
      ∧ (inCfg .serial .rgb565).cfg.colorFmt = .rgb565 ∧ (35 : Word) ≠ 0
      ∧ CellsValid (inCfg .serial .rgb565).cfg (0x2000 : Word).toNat (35 : Word).toNat := by
  exact ⟨test_quiet_reset _ _, rfl, rfl, by decide, cells_valid_in _ _ _ _ (by decide)⟩

theorem test_hyps_SequenceSerial666Result :
    Quiet (inCfg .serial .rgb666) ∧ (inCfg .serial .rgb666).cfg.busMode = .serial
      ∧ (inCfg .serial .rgb666).cfg.colorFmt = .rgb666 ∧ (1 : Word) ≠ 0
      ∧ CellsValid (inCfg .serial .rgb666).cfg (0xFFFFFFFF : Word).toNat (1 : Word).toNat := by
  exact ⟨test_quiet_reset _ _, rfl, rfl, by decide, cells_valid_in _ _ _ _ (by decide)⟩

theorem test_hyps_SequenceParallelResult :
    Quiet (inCfg .parallel .rgb666) ∧ (inCfg .parallel .rgb666).cfg.busMode = .parallel
      ∧ (3 : Word) ≠ 0
      ∧ CellsValid (inCfg .parallel .rgb666).cfg (0x2000 : Word).toNat (3 : Word).toNat := by
  exact ⟨test_quiet_reset _ _, rfl, by decide, cells_valid_in _ _ _ _ (by decide)⟩

theorem test_hyps_SyncPushUnderDmaRefused :
    queued.eng = .idle ∧ (1 : Word) ≠ 0 ∧ queued.queue ≠ []
      ∧ { ready with pending := 1, compl := [commandTx 0] }.pending ≠ 0 := by decide

/-- Addresses 0x10 to 0x12 exist and 0x13 does not. -/
def smallMemory : State := State.resetWith { Params.examples with regions := [⟨0x10, 3⟩] }

theorem test_hyps_SequenceStuckAtInvalidCell :
    Quiet smallMemory ∧ 3 < (5 : Word).toNat ∧ CellsValid smallMemory.cfg (0x10 : Word).toNat 3
      ∧ smallMemory.cfg.pmemValid ((0x10 : Word).toNat + 3) = false
      ∧ smallMemory.cfg.pmemValid (0x13 + 0) = false := by
  refine ⟨⟨rfl, rfl, rfl, rfl⟩, by decide, ?_, by decide, by decide⟩
  show ∀ k, k < 3 → smallMemory.cfg.pmemValid (0x10 + k) = true
  decide

theorem test_hyps_SetSwapResult : State.reset.eng = .idle := rfl

/-- The conditions of the last three clauses at their boundaries. -/
theorem test_hyps_SilentNoOps :
    State.reset.eng = .idle ∧ State.reset.dmaEn = false
      ∧ (ready.cfg.dispW : Int) ≤ (16 : Word).toInt ∧ (ready.cfg.dispH : Int) ≤ (16 : Word).toInt
      ∧ (clip ready.cfg (0xFFFFFFEC : Word).toInt 0 20 10).w < 1
      ∧ (clip ready.cfg 0 (0xFFFFFFF6 : Word).toInt 4 10).h < 1
      ∧ ready.eng = .idle ∧ ready.dmaEn = true := by decide

theorem test_hyps_InitDmaResult :
    ready.eng = .idle ∧ ready.dmaEn = true ∧ State.reset.dmaEn = false ∧ State.reset.acqIn = []
      ∧ { State.reset with acqIn := [true] }.acqIn = true :: []
      ∧ { State.reset with acqIn := [false, true] }.acqIn = false :: [true] := by decide

theorem test_hyps_InitDmaFreeAnswer :
    State.reset.eng = .idle ∧ State.reset.dmaEn = false ∧ State.reset.acqIn = [] := by decide

theorem test_hyps_DmaWaitDrains :
    Inv halfPerformed ∧ halfPerformed.eng = .idle ∧ QueueValid halfPerformed
      ∧ Inv State.reset ∧ QueueValid State.reset :=
  ⟨inv_halfPerformed, rfl, queueValid_halfPerformed, inv_reset, by intro t ht; cases ht⟩

theorem test_hyps_DmaBusyDrainsAndReturnsZero :
    Inv queued ∧ queued.eng = .idle ∧ QueueValid queued :=
  ⟨inv_queued, rfl, queueValid_queued⟩

theorem test_hyps_DeinitDmaDrainsAndReleases :
    Inv halfPerformed ∧ halfPerformed.eng = .idle ∧ halfPerformed.dmaEn = true
      ∧ QueueValid halfPerformed ∧ Inv State.reset ∧ State.reset.eng = .idle
      ∧ State.reset.dmaEn = false ∧ QueueValid State.reset :=
  ⟨inv_halfPerformed, rfl, rfl, queueValid_halfPerformed, inv_reset, rfl, rfl,
    by intro t ht; cases ht⟩

/-- A payload whose second cell does not exist, behind five transactions that can be performed. -/
def badPayload : State :=
  { State.resetWith { Params.examples with regions := [⟨0x10, 3⟩] } with
    dmaEn := true, qHandle := some ()
    queue := windowTx .rgb565 0 0 2 1 0x12, pending := 6 }

theorem test_hyps_DrainStuckAtInvalidPayload :
    Inv badPayload ∧ badPayload.eng = .idle
      ∧ badPayload.queue = (windowTx .rgb565 0 0 2 1 0x12).take 5
          ++ payloadTx .rgb565 0x12 2 :: []
      ∧ (∀ u ∈ (windowTx .rgb565 0 0 2 1 0x12).take 5, txInvalid badPayload.cfg u.body = none)
      ∧ txInvalid badPayload.cfg (payloadTx .rgb565 0x12 2).body = some 0x13 := by
  refine ⟨?_, rfl, by decide, by decide, by decide⟩
  exact inv_of_idle rfl (by decide) rfl rfl rfl (by decide) (by decide) (by decide)

theorem test_hyps_PushPixelsDmaQueuesOne :
    Inv ready ∧ ready.eng = .idle ∧ ready.dmaEn = true ∧ QueueValid ready ∧ (1 : Word) ≠ 0
      ∧ (32767 : Word).toNat < 32768 ∧ ready.qIn = true :: List.replicate 5 true
      ∧ (0 : Word).toNat < 32768 ∧ Inv State.reset ∧ State.reset.dmaEn = false :=
  ⟨inv_ready, rfl, rfl, queueValid_ready, by decide, by decide, by decide, by decide, inv_reset,
    rfl⟩

theorem test_hyps_PushPixelsDmaQueuesOne_fault :
    Inv { queued with qIn := [false] } ∧ QueueValid { queued with qIn := [false] }
      ∧ { queued with qIn := [false] }.eng = .idle ∧ { queued with qIn := [false] }.dmaEn = true
      ∧ (2 : Word) ≠ 0 ∧ (2 : Word).toNat < 32768
      ∧ { queued with qIn := [false] }.qIn = false :: [] :=
  ⟨inv_of_idle rfl (by decide) rfl rfl rfl (by decide) (by decide) (by decide), queueValid_queued,
    rfl, rfl, by decide, by decide, rfl⟩

theorem test_hyps_PreconditionsRefused :
    ready.eng = .idle ∧ ready.dmaEn = true ∧ 32768 ≤ (32768 : Word).toNat
      ∧ (0 : Word).toInt < (ready.cfg.dispW : Int) ∧ (15 : Word).toInt < (ready.cfg.dispH : Int)
      ∧ 1 ≤ (clip ready.cfg (0 : Word).toInt (15 : Word).toInt 65536 1).w
      ∧ 1 ≤ (clip ready.cfg (0 : Word).toInt (15 : Word).toInt 65536 1).h
      ∧ 65536 ≤ (65536 : Word).toNat * (1 : Word).toNat := by decide

/-- A clipped window, two columns and one row of it on the display, staged elsewhere. -/
theorem test_window_valid :
    WindowValid ready.cfg (clip ready.cfg (-1) 15 3 2) 0x2000 0x3000 3
      ∧ StagingSound (clip ready.cfg (-1) 15 3 2) 0x2000 0x3000 3 := by
  have hk : clip ready.cfg (-1) 15 3 2 = ⟨0, 15, 2, 1, 1, 0⟩ := by decide
  rw [hk]
  refine ⟨?_, .inr ?_⟩
  · intro xx yy h
    obtain ⟨h1, h2⟩ := h
    simp only [imageAddr, stagingAddr] at h1 h2 ⊢
    have h1' : xx < 2 := h1
    have h3 : yy = 0 := Nat.lt_one_iff.1 h2
    subst h3
    simp only [Params.pmemValid, ready, State.reset, State.resetWith, Params.examples,
      List.any_cons, List.any_nil, Bool.and_eq_true, Bool.or_eq_true, decide_eq_true_eq]
    refine ⟨⟨?_, .inl ⟨?_, ?_⟩⟩, ?_, .inl ⟨?_, ?_⟩⟩ <;> simp <;> omega
  · intro xx yy xx' yy' h h'
    obtain ⟨h1, h2⟩ := h
    obtain ⟨h3, h4⟩ := h'
    simp only [imageAddr, stagingAddr] at h1 h2 h3 h4 ⊢
    simp at h1 h2 h3 h4 ⊢
    omega

/-- The hypotheses shared by the statements about a window that is carried out. -/
def WindowHyps (s : State) (hasStg : Bool) (x y w h img stg : Word) : Prop :=
  Inv s ∧ s.eng = .idle ∧ s.dmaEn = true ∧ QueueValid s
    ∧ originOutside s.cfg x.toInt y.toInt = false
    ∧ emptyExtent (clip s.cfg x.toInt y.toInt w.toNat h.toNat) = false
    ∧ w.toNat * h.toNat < 65536
    ∧ WindowValid s.cfg (clip s.cfg x.toInt y.toInt w.toNat h.toNat) img.toNat
        (stagingBuffer hasStg img stg) w.toNat

theorem windowHyps_ready (q : List Bool) :
    WindowHyps { ready with qIn := q } true 0xFFFFFFFF 15 3 2 0x2000 0x3000 := by
  have h1 : originOutside ready.cfg (0xFFFFFFFF : Word).toInt (15 : Word).toInt = false := by
    decide
  have h2 : emptyExtent (clip ready.cfg (0xFFFFFFFF : Word).toInt (15 : Word).toInt
      (3 : Word).toNat (2 : Word).toNat) = false := by decide
  obtain ⟨a, b, c, d, e, f, g⟩ := inv_ready
  exact ⟨⟨a, b, c, d, e, f, g⟩, rfl, rfl, queueValid_ready, h1, h2, by decide,
    test_window_valid.1⟩

theorem test_hyps_PushImageDmaQueuesSix :
    WindowHyps ready true 0xFFFFFFFF 15 3 2 0x2000 0x3000
      ∧ ready.qIn = List.replicate 6 true ++ [] :=
  ⟨windowHyps_ready _, by decide⟩

theorem test_hyps_PushImageDmaQueueFault :
    WindowHyps { ready with qIn := [true, true, false, true] } true 0xFFFFFFFF 15 3 2 0x2000 0x3000
      ∧ 2 < 6 ∧ [true, true, false, true] = List.replicate 2 true ++ false :: [true]
      ∧ WindowHyps { ready with qIn := [false] } true 0xFFFFFFFF 15 3 2 0x2000 0x3000
      ∧ 0 < 6 ∧ [false] = List.replicate 0 true ++ false :: [] :=
  ⟨windowHyps_ready _, by decide, by decide, windowHyps_ready _, by decide, by decide⟩

theorem test_hyps_ClipGivesIntersection :
    originOutside Params.examples (-5) 0 = false
      ∧ emptyExtent (clip Params.examples (-5) 0 20 10) = false
      ∧ originOutside Params.examples 15 15 = false
      ∧ emptyExtent (clip Params.examples 15 15 1 1) = false := by decide

theorem test_hyps_WindowReachesTheWire :
    WindowHyps ready true 0xFFFFFFFF 15 3 2 0x2000 0x3000
      ∧ StagingSound (clip ready.cfg (0xFFFFFFFF : Word).toInt (15 : Word).toInt
        (3 : Word).toNat (2 : Word).toNat) (0x2000 : Word).toNat
        (stagingBuffer true 0x2000 0x3000) (3 : Word).toNat
      ∧ ready.qIn = List.replicate 6 true ++ []
      ∧ StagingSound (clip ready.cfg 0 0 2 2) 0x2000 (stagingBuffer false 0x2000 7) 2 :=
  ⟨windowHyps_ready _, test_window_valid.2, by decide, .inl rfl⟩

theorem test_hyps_BufferReachesTheWire :
    Inv ready ∧ ready.eng = .idle ∧ ready.dmaEn = true ∧ QueueValid ready
      ∧ (2 : Word) ≠ 0 ∧ (2 : Word).toNat < 32768
      ∧ ready.qIn = true :: List.replicate 5 true
      ∧ CellsValid ready.cfg (0x2000 : Word).toNat (2 : Word).toNat :=
  ⟨inv_ready, rfl, rfl, queueValid_ready, by decide, by decide, by decide, cells_valid _ _ (by decide)⟩

theorem test_hyps_SbuSendsTheTransfer :
    { transferring with sched := [.sbu] }.sched = .sbu :: []
      ∧ transferring.busy = true ∧ (transferring.bitlen.toNat + 1) % 8 = 0
      ∧ { ready with sched := [.sbu] }.busy = false := by decide

theorem test_hyps_DmacPerformsTheHead :
    { queued with sched := [.dmac] }.sched = .dmac :: []
      ∧ queued.queue = ⟨.data, .payload 0x2000 2, 32⟩ :: [] ∧ queued.fatal = false
      ∧ queued.dmaEn = true ∧ queued.busy = false
      ∧ txInvalid queued.cfg (.payload 0x2000 2) = none
      ∧ ready.queue = [] ∧ { queued with fatal := true }.fatal = true
      ∧ { queued with dmaEn := false }.dmaEn = false
      ∧ { queued with busy := true }.cfg.busMode = .serial := by decide

theorem test_hyps_HostWriteChangesOneCell :
    { ready with sched := [.hostWrite 0x2001 7] }.sched = .hostWrite 0x2001 7 :: []
      ∧ ready.cfg.pmemValid 0x2001 = true ∧ Memory.wf ready.pmem = true := by decide

theorem test_hyps_NotReadyTakesNoCommand :
    transferring.eng ≠ .idle
      ∧ { transferring with sched := [.command] }.sched = .command :: []
      ∧ { transferring with sched := [.accept] }.sched = .accept :: [] := by decide

theorem test_hyps_FatalFaultIsPermanent :
    let s := { queued with fatal := true, faultCause := 2, eng := .halt, sched := [.dmac] }
    s.fatal = true ∧ s.eng = .halt ∧ s.busy = false ∧ s.sched.head? ≠ some .reset
      ∧ after (step s) State.sched = some [] := by decide

theorem test_hyps_OperationCompletesOrHalts :
    State.reset.eng = .idle
      ∧ after (exec .dmaWait State.reset) State.done = some true
      ∧ after (exec .initDma { State.reset with acqIn := [false] }) State.done = some false := by
  decide

theorem test_hyps_OperationsWriteOnlyTheirOwnState :
    Inv queued ∧ after (exec .dmaWait queued) State.pending = some 0 :=
  ⟨inv_queued, by decide⟩

theorem inv_transferring : Inv transferring := by
  refine ⟨by decide, by decide, by decide, rfl, by decide, by decide, ?_⟩
  intro todo h
  cases h
  decide

theorem inv_submitting : Inv submitting := by
  refine ⟨by decide, by decide, by decide, rfl, by decide, by decide, ?_⟩
  intro todo h
  cases h
  decide

/-- The invariant in the middle of an operation, with the step that each agent takes next. -/
theorem test_hyps_EveryStepKeepsInv :
    Inv transferring ∧ after (step transferring) State.busy = some false
      ∧ Inv submitting ∧ after (step submitting) (fun s => s.queue.length) = some 2
      ∧ Inv { submitting with sched := [.dmac] } :=
  ⟨inv_transferring, by decide, inv_submitting, by decide, by
    obtain ⟨a, b, c, d, e, f, g⟩ := inv_submitting
    exact ⟨a, b, c, d, e, f, g⟩⟩

theorem test_hyps_LineByLineEqualsOneStep :
    let s := { queued with sched := [.accept], port := [0x00000011, 5] }
    s.eng = .idle ∧ s.sched = [.accept] ∧ decode s.port = .instr .deinitDma [5] := by decide

theorem test_hyps_ConfigurationNeverChanges :
    after (step { queued with sched := [.reset] }) State.cfg = some queued.cfg := by decide

theorem test_hyps_StepRunsTheDecodedOperation :
    let s := { ready with port := [0x00000014, 0x2000, 2, 0x13], sched := [.command, .dmac] }
    s.eng = .idle ∧ decode s.port = .instr (.pushPixelsDma 0x2000 2) [0x13]
      ∧ Instr.wellFormed (.pushPixelsDma 0x2000 2) = true
      ∧ s.sched = .command :: [.dmac] ∧ ready.sched = [] := by decide

theorem test_hyps_PresentedInstructionIsRun :
    State.reset.eng = .idle ∧ decodeTableWord 32 0x00000013 = some .dmaWait := by decide

theorem test_hyps_ResetGivesTheStatedValues :
    { queued with sched := [.reset, .sbu] }.sched = .reset :: [.sbu] := by decide

theorem test_hyps_StatusPortHasNoEffect :
    { transferring with sched := [.statusRead 0x10] }.sched = .statusRead 0x10 :: []
      ∧ statusReg transferring 0x10 = some 0x244
      ∧ { transferring with sched := [.statusWrite 0x10 1] }.sched = .statusWrite 0x10 1 :: [] := by
  decide

theorem test_hyps_DstateFollowsTheQueue :
    (State.reset.pending = 0 ∧ State.reset.queue = [] ∧ State.reset.compl = [])
      ∧ (queued.queue ≠ [] ∧ queued.compl = [] ∧ queued.nperf = 0)
      ∧ ¬ (halfPerformed.pending = 0 ∧ halfPerformed.queue = [] ∧ halfPerformed.compl = [])
      ∧ ¬ (halfPerformed.queue ≠ [] ∧ halfPerformed.compl = [] ∧ halfPerformed.nperf = 0) := by
  decide

theorem test_hyps_DmaBusyDoesNotFallByItself :
    { queued with sched := [.dmac] }.sched = .dmac :: []
      ∧ after (step { queued with sched := [.dmac] }) statusWord = some 0x763
      ∧ queued.sched = [] ∧ queued.eng = .idle ∧ decode queued.port = .more
      ∧ after (step queued) statusWord = some 0x763 := by decide

/-- Also with events never taken, and not while a word of the stream is still to come. -/
theorem test_hyps_RunEndIsStable :
    RunOver ready ∧ ready.sched = []
      ∧ RunOver { ready with compl := [commandTx 0x2C], pending := 1, sched := [.dmac, .statusRead 0] }
      ∧ ¬ RunOver { State.reset with sched := [.hostWord 0x10, .command] } := by
  refine ⟨?_, rfl, ?_, fun h => h.2.1 0x10 (.head _)⟩ <;>
    simp [RunOver, ready, State.reset, State.resetWith]

/-- A stream of three commands at reset: `INITDMA`, `PUSHPIXELSDMA`, `DMAWAIT`, with a host read and
a status read between. -/
def launch : State :=
  { State.reset with
    port := [0x10, 0x14, 0x2000], acqIn := [true], qIn := [true], pmem := cells3
    sched := [.command, .hostWord 2, .accept, .hostRead 0x2001, .engine, .statusRead 0x10,
      .hostWord 0x13, .hostWrite 0x2002 5] }

/-- What the launch premises ask at every state of a run, in one test. -/
def launchTest (d : Nat) (t : State) : Bool :=
  decide (t.draws = d) && hostDuty t && match nextCommand t with
    | some i => cellsTouchedExist i t && withinLimits i
    | none => true

/-- The states of a run of at most `n` steps all pass. -/
def allPass (d : Nat) : Nat → State → Bool
  | 0, s => launchTest d s
  | n + 1, s => launchTest d s && match step s with
    | .next t => allPass d n t
    | .fault _ => true
    | .refused _ => true

theorem allPass_runFor {d : Nat} : ∀ {n : Nat} {s : State}, allPass d n s = true → ∀ k, k ≤ n →
    ∀ t, runFor k s = .next t → launchTest d t = true := by
  intro n
  induction n with
  | zero =>
    intro s h k hk t ht
    obtain rfl : k = 0 := by omega
    cases ht
    exact h
  | succ n ih =>
    intro s h k hk t ht
    simp only [allPass, Bool.and_eq_true] at h
    cases k with
    | zero =>
      cases ht
      exact h.1
    | succ k =>
      obtain ⟨u, hu, ht⟩ := runFor_succ_next ht
      have h2 := h.2
      rw [hu] at h2
      exact ih h2 k (by omega) t ht

/-- The launch premises of a run that comes to rest, from facts that can be evaluated. -/
theorem launchPremises_of {N : Nat} {s f : State} (hr : resetFrom s = s) (ha : AnswersOk s)
    (hf : runFor N s = .next f) (hs : step f = .next f) (hb : f.busy = false)
    (hd : dmacReady f = false) (hp : allPass s.draws N s = true) : LaunchPremises s := by
  have hall : ∀ t, Reaches s t → launchTest s.draws t = true := fun t ht =>
    let ⟨k, hk, ht⟩ := reaches_on_the_way hf hs ht
    allPass_runFor hp k hk t ht
  refine ⟨hr, ha, ?_, ?_, ?_, ?_, fair_of_fixed hf hs hb hd⟩
  · intro t ht
    have := hall t ht
    simp only [launchTest, Bool.and_eq_true, decide_eq_true_eq] at this
    exact this.1.1
  · intro t i ht hi
    have := hall t ht
    simp only [launchTest, hi, Bool.and_eq_true] at this
    exact this.2.1
  · intro t i ht hi
    have := hall t ht
    simp only [launchTest, hi, Bool.and_eq_true] at this
    exact this.2.2
  · intro t ht
    have := hall t ht
    simp only [launchTest, Bool.and_eq_true] at this
    exact this.1.2

/-- Where the run of `launch` comes to rest. -/
def launched : State := (after (runFor 16 launch) id).getD launch

theorem next_of_after {r : Result} {t : State} (h : after r id = some t) : r = .next t := by
  cases r <;> cases h
  rfl

/-- Also the hypotheses of `LaunchedRunNeverStops`. -/
theorem test_hyps_LaunchPremisesExcludeTheFault :
    LaunchPremises launch ∧ Memory.wf launch.pmem = true
      ∧ launched.wire.map Prod.snd = [0x12, 0x34, 0xAB, 0xCD]
      ∧ launched.mdata = 0xABCD ∧ RunOver launched := by
  refine ⟨launchPremises_of (N := 16) (f := launched) (by decide) ?_
    (next_of_after (by decide)) (next_of_after (by decide)) (by decide) (by decide) (by decide),
    by decide, by decide, by decide, ?_⟩
  · unfold AnswersOk
    decide
  · refine ⟨by decide, ?_, by decide, by decide, by decide, by decide⟩
    rw [show launched.sched = [] from by decide]
    simp

/-- The operation-level half. -/
theorem test_hyps_LaunchPremisesExcludeTheFault_operation :
    let s := { ready with acqIn := [true], dmaEn := false, qHandle := none }
    AnswersOk s ∧ s.eng = .idle ∧ 1 ≤ s.acqIn.length ∧ 6 ≤ s.qIn.length
      ∧ after (exec .initDma s) State.dmaEn = some true := by
  unfold AnswersOk
  decide

/-- Addresses 0x10 to 0x17 exist: the image's last cell does not, then the buffer's last. -/
def smallReady : State :=
  { State.resetWith { Params.examples with regions := [⟨0x10, 8⟩] } with
    dmaEn := true, qHandle := some (), swap := true, qIn := List.replicate 6 true }

theorem inv_smallReady : Inv smallReady :=
  inv_of_idle rfl (by decide) rfl rfl rfl (by decide) (by decide) (by decide)

theorem test_hyps_StagingStuckAtInvalidCell :
    let k := clip smallReady.cfg 0 0 2 2
    Inv smallReady ∧ smallReady.eng = .idle ∧ smallReady.dmaEn = true ∧ QueueValid smallReady
      ∧ originOutside smallReady.cfg 0 0 = false ∧ emptyExtent k = false ∧ 2 * 2 < 65536
      ∧ ¬ CopiesNothing k 0x15 (stagingBuffer true 0x15 0x10) 2 2 smallReady.swap
      ∧ ¬ CopiesNothing k 0x15 (stagingBuffer false 0x15 0x10) 2 2 smallReady.swap
      ∧ copyOrder k 0x15 0x10 2 = [(0x15, 0x10), (0x16, 0x11), (0x17, 0x12)] ++ (0x18, 0x13) :: []
      ∧ smallReady.cfg.pmemValid 0x18 = false
      ∧ copyOrder k 0x10 0x15 2 = [(0x10, 0x15), (0x11, 0x16), (0x12, 0x17)] ++ (0x13, 0x18) :: []
      ∧ smallReady.cfg.pmemValid 0x13 = true
      ∧ (match exec (.pushImageDma true 0 0 2 2 0x15 0x10) smallReady with
          | .fault f => some f
          | _ => none) = some (.engineStuckAt 0x18)
      ∧ (match exec (.pushImageDma true 0 0 2 2 0x10 0x15) smallReady with
          | .fault f => some f
          | _ => none) = some (.engineStuckAt 0x18) := by
  refine ⟨inv_smallReady, rfl, rfl, ?_, ?_⟩
  · intro t ht
    cases ht
  unfold CopiesNothing
  decide

/-- An unswapped whole image in place, its last two cells missing. -/
theorem test_hyps_WholeImageInPlaceIsNotCopied :
    let s := { smallReady with swap := false }
    let k := clip s.cfg 0 0 2 2
    Inv s ∧ s.eng = .idle ∧ s.dmaEn = true ∧ QueueValid s ∧ originOutside s.cfg 0 0 = false
      ∧ emptyExtent k = false ∧ 2 * 2 < 65536
      ∧ CopiesNothing k 0x16 (stagingBuffer false 0x16 0) 2 2 s.swap
      ∧ CopiesNothing k 0x16 (stagingBuffer true 0x16 0x16) 2 2 s.swap
      ∧ s.qIn = List.replicate 6 true ++ []
      ∧ after (exec (.pushImageDma false 0 0 2 2 0x16 0) s) State.pending = some 6 := by
  refine ⟨inv_of_idle rfl (by decide) rfl rfl rfl (by decide) (by decide) (by decide), rfl, rfl,
    ?_, ?_⟩
  · intro t ht
    cases ht
  unfold CopiesNothing
  decide

/-- A buffer one cell above the image: the copy reads what it wrote (70_reset_and_hazards.md R274). -/
theorem test_hyps_StagingFollowsTheAscendingOrder :
    WindowHyps ready true 0xFFFFFFFF 15 3 2 0x2000 0x3000
      ∧ ready.qIn = List.replicate 6 true ++ []
      ∧ after (exec (.pushImageDma true 0 0 3 1 0x2000 0x2001) { ready with swap := true })
          (fun t => (List.range 4).map fun a => Memory.readCell t.pmem (0x2000 + a))
        = some [0x1234, 0x3412, 0x1234, 0x3412] :=
  ⟨windowHyps_ready _, by decide, by decide⟩

theorem test_hyps_HostReadGivesTheCell :
    { queued with sched := [.hostRead 0x2001] }.sched = .hostRead 0x2001 :: []
      ∧ queued.cfg.pmemValid 0x2001 = true ∧ queued.cfg.pmemValid (2 ^ 32) = false
      ∧ after (step { queued with sched := [.hostRead 0x2001] }) State.mdata = some 0xABCD := by
  decide

end Sys2Proof.Tests
end

section
/-! The statements of spec/00_scope.md. -/

namespace Sys2Proof.Machine

/-- The SBU's step moves bytes and clears `BUSY`; the configuration it only reads. -/
theorem sbuStep_cfg {s t : State} (h : sbuStep s = .next t) : t.cfg = s.cfg := by
  obtain ⟨_, rfl⟩ | ⟨_, _, rfl⟩ := sbuStep_next h
  · rfl
  · rfl

/-- The DMAC's step performs the head of the queue; the configuration it only reads. -/
theorem dmacStep_cfg {s t : State} (h : dmacStep s = .next t) : t.cfg = s.cfg := by
  obtain ⟨_, rfl⟩ | ⟨_, _, _, _, _, rfl⟩ := dmacStep_next h
  · rfl
  · rfl

theorem act_cfg {op : MicroOp} {s t : State} (h : act op s = .go t) : t.cfg = s.cfg :=
  (act_keeps_inputs h).left

@[simp] theorem complete_cfg (ret : Option Bool) (s : State) : (complete ret s).cfg = s.cfg := by
  unfold complete
  split
  · rfl
  · rfl

/-- Every part of a step keeps a given configuration, a reset included, so a step does. -/
theorem step_cfg {s t : State} (h : step s = .next t) : t.cfg = s.cfg := by
  refine @step_keeps (fun u => u.cfg = s.cfg) ?sbu ?dmac ?takeCompletion ?line ?begin ?complete
    ?engine ?illegal ?reset ?memory ?host s t rfl h
  case sbu => exact fun _ _ hu hv => (sbuStep_cfg hv).trans hu
  case dmac => exact fun _ _ hu hv => (dmacStep_cfg hv).trans hu
  case line => exact fun _ _ _ hu hv => (act_cfg hv).trans hu
  case complete => exact fun ret u hu => (complete_cfg ret u).trans hu
  case begin => exact fun _ _ _ _ hu => hu
  case host => exact fun _ _ _ _ _ _ _ hu => hu
  case takeCompletion | illegal | reset => exact fun _ hu => hu
  case engine | memory => exact fun _ _ hu => hu

/-- Settles O45: no part of a step writes the configuration. -/
theorem configurationNeverChanges : Obligations.ConfigurationNeverChanges := by
  unfold Obligations.ConfigurationNeverChanges
  intro s t h
  exact step_cfg h

end Sys2Proof.Machine
end

section
/-! The statements of spec/10_state.md. -/

namespace Sys2Proof.Machine

/-- A step makes the move at the head of the schedule, after the pulse of `DONE` ends. -/
theorem step_of_sched_cons {s : State} {m : Move} {ms : List Move} (h : s.sched = m :: ms) :
    step s = moveStep m { s with sched := ms, done := false } := by
  simp only [step, scheduledStep, h]

/-- Settles O48: the step is `resetFrom`, whose fields the laws of the state give one by one. -/
theorem resetGivesTheStatedValues : Obligations.ResetGivesTheStatedValues := by
  unfold Obligations.ResetGivesTheStatedValues
  intro s ms h
  refine ⟨resetFrom { s with sched := ms, done := false }, ?_, ?_⟩
  · rw [step_of_sched_cons h, moveStep]
  · simp

/-- Settles O51: the cases are the branches of `dstate`; the first two exclude each other, for one
asks for an empty queue and the other for one that is not. -/
theorem dstateFollowsTheQueue : Obligations.DstateFollowsTheQueue := by
  unfold Obligations.DstateFollowsTheQueue
  intro s
  refine ⟨fun idle => if_pos idle, fun queued => ?_, fun notIdle notQueued => ?_⟩
  · have notIdle : ¬ (s.pending = 0 ∧ s.queue = [] ∧ s.compl = []) :=
      fun ⟨_, empty, _⟩ => queued.left empty
    exact (if_neg notIdle).trans (if_pos queued)
  · exact (if_neg notIdle).trans (if_neg notQueued)

/-! ## The bits and fields of the registers as numbers (R34) -/

/-- In a word put together from fields, what stands above `n` bits weighs `2 ^ n`. -/
theorem toNat_append_eq_add {m n : Nat} (x : BitVec m) (y : BitVec n) :
    (x ++ y).toNat = 2 ^ n * x.toNat + y.toNat := by
  rw [BitVec.toNat_append, ← Nat.shiftLeft_add_eq_or_of_lt y.isLt, Nat.shiftLeft_eq, Nat.mul_comm]

theorem toNat_decide (p : Prop) [Decidable p] : (decide p).toNat = if p then 1 else 0 :=
  Bool.cond_decide p 1 0

theorem busModeBit_eq_decide (b : BusMode) : busModeBit b = decide (b = .parallel) := by
  cases b <;> rfl

theorem colorFmtBit_eq_decide (f : ColorFmt) : colorFmtBit f = decide (f = .rgb666) := by
  cases f <;> rfl

theorem nativeFirstBit_eq_decide (n : NativeFirst) : nativeFirstBit n = decide (n = .lo) := by
  cases n <;> rfl

theorem Level.bit_eq_decide (l : Level) : l.bit = decide (l = .data) := by
  cases l <;> rfl

theorem dmaBusyBit_eq_decide (s : State) : dmaBusyBit s = decide (s.pending ≠ 0) := by
  have pos_iff : 0 < s.pending.toNat ↔ s.pending ≠ 0 := by bv_omega
  exact decide_eq_decide.2 pos_iff

theorem isSome_eq_decide_ne_none (q : Option Unit) : q.isSome = decide (q ≠ none) := by
  cases q <;> rfl

theorem queueDepth_lt (c : Params) : c.queueDepth < 2 ^ 4 := by
  unfold Params.queueDepth
  omega

theorem dispW_lt (c : Params) : c.dispW < 2 ^ 32 := by
  unfold Params.dispW
  omega

theorem dispH_lt (c : Params) : c.dispH < 2 ^ 32 := by
  unfold Params.dispH
  omega

/-! ## The registers of the status port (R34) -/

theorem toNat_cfgWord (c : Params) :
    (cfgWord c).toNat =
      (if c.busMode = .parallel then 1 else 0) + (if c.colorFmt = .rgb666 then 2 else 0)
        + (if c.nativeFirst = .lo then 4 else 0) + 16 * c.queueDepth := by
  simp only [cfgWord, toNat_append_eq_add, BitVec.toNat_ofBool, busModeBit_eq_decide,
    colorFmtBit_eq_decide, nativeFirstBit_eq_decide, toNat_decide, BitVec.ofNat_eq_ofNat,
    BitVec.toNat_ofNat, Nat.zero_mod, Nat.mod_eq_of_lt (queueDepth_lt c), mul_ite, mul_one,
    mul_zero]
  ring_nf

theorem toNat_statusWord (s : State) :
    (statusWord s).toNat =
      s.dmaEn.toNat + (if s.pending = 0 then 0 else 2) + 4 * s.busy.toNat + 8 * s.fatal.toNat
        + 16 * (dstate s).toNat + (if s.dc = .data then 64 else 0) + 128 * s.result.toNat
        + (if s.eng = .idle then 256 else 0) + 512 * s.wr.toNat
        + (if s.qHandle = none then 0 else 1024) := by
  simp only [statusWord, cmdReady, toNat_append_eq_add, BitVec.toNat_ofBool, dmaBusyBit_eq_decide,
    Level.bit_eq_decide, isSome_eq_decide_ne_none, toNat_decide, BitVec.ofNat_eq_ofNat,
    BitVec.toNat_ofNat, ite_not, mul_ite, mul_one, mul_zero]
  ring_nf

/-- From 0x40 on every aligned offset is a word of the FIFO: none of the nine registers below it. -/
theorem statusReg_of_ge {off : Nat} (s : State) (fifo : 0x40 ≤ off) (aligned : off % 4 = 0) :
    statusReg s off = s.w[(off - 0x40) / 4]? := by
  unfold statusReg
  iterate 9 rw [if_neg (by omega)]
  rw [if_pos ⟨fifo, aligned⟩]

theorem statusReg_fifo (s : State) (i : Fin 16) :
    statusReg s (0x40 + 4 * i.val) = some s.w[i] := by
  have index : (0x40 + 4 * i.val - 0x40) / 4 = i.val := by omega
  rw [statusReg_of_ge s (by omega) (by omega), index]
  exact Vector.getElem?_eq_getElem i.isLt

/-- Settles O49: each register's value is its word's fields added up by weight, and the step of a
status write touches no field that a register shows. -/
theorem statusRegistersRead : Obligations.StatusRegistersRead := by
  unfold Obligations.StatusRegistersRead
  intro s
  refine ⟨⟨_, rfl, toNat_cfgWord s.cfg⟩, ⟨_, rfl, Nat.mod_eq_of_lt (dispW_lt s.cfg)⟩,
    ⟨_, rfl, Nat.mod_eq_of_lt (dispH_lt s.cfg)⟩, ⟨_, rfl, ?swap⟩,
    ⟨_, rfl, toNat_statusWord s⟩, ⟨_, rfl, BitVec.toNat_setWidth_of_le (by decide)⟩,
    ⟨_, rfl, BitVec.toNat_setWidth_of_le (by decide)⟩,
    ⟨_, rfl, BitVec.toNat_setWidth_of_le (by decide)⟩,
    ⟨_, rfl, BitVec.toNat_setWidth_of_le (by decide)⟩, statusReg_fifo s, ?write⟩
  case swap => rw [BitVec.toNat_setWidth_of_le (by decide), BitVec.toNat_ofBool]
  case write =>
    intro off v ms h
    refine ⟨{ s with sched := ms, done := false }, ?_, rfl, fun _ => rfl⟩
    rw [step_of_sched_cons h, moveStep]

end Sys2Proof.Machine
end

section
/-! The statements of spec/30_encoding.md. -/

namespace Sys2Proof

/-! ## The header word of a command (R95) -/

/-- The fields cut out of an operation's header word are the fields of its header. -/
theorem Instr.fields_of_header_toWord (i : Instr) :
    i.header.toWord.extractLsb' 0 8 = i.header.opc
      ∧ i.header.toWord.getLsbD 8 = i.header.flag
      ∧ i.header.toWord.extractLsb' 9 7 = i.header.rsv
      ∧ i.header.toWord.extractLsb' 16 16 = i.header.imm :=
  Header.mk.inj (Header.ofWord_toWord i.header)

theorem Instr.header_rsv (i : Instr) : i.header.rsv = 0 := by
  cases i <;> rfl

/-- Settles O3: the header word keeps the fields of the header, which every operation lists. -/
theorem commandLayout : Obligations.CommandLayout := by
  unfold Obligations.CommandLayout
  intro i
  obtain ⟨opc, flag, rsv, imm⟩ := i.fields_of_header_toWord
  refine ⟨i.header.toWord, ?operands, ?opcode, ?flag, rsv.trans i.header_rsv, ?colour⟩
  case operands => cases i <;> rfl
  case opcode =>
    rw [opc]
    cases i <;> rfl
  case flag =>
    rw [flag]
    cases i <;> rfl
  case colour =>
    rw [imm]
    cases i <;> rfl

/-! ## Legal headers (R98) -/

/-- The ten values of R94 are the opcodes' bytes. -/
theorem Opcode.mem_bytes_iff (b : Byte) :
    b ∈ ([0x01, 0x02, 0x03, 0x04, 0x10, 0x11, 0x12, 0x13, 0x14, 0x15] : List Byte)
      ↔ ∃ op : Opcode, b = op.code := by
  change b ∈ Opcode.all.map Opcode.code ↔ _
  have every : ∀ op : Opcode, op ∈ Opcode.all := fun op => by cases op <;> decide
  simp [every, eq_comm]

theorem Opcode.usesFlag_iff (op : Opcode) :
    op.format.usesFlag = true ↔ op.code ∈ ([0x04, 0x15] : List Byte) := by
  cases op <;> decide

theorem Opcode.usesImm_iff (op : Opcode) : op.format.usesImm = true ↔ op.code = 0x01 := by
  cases op <;> decide

/-- A header word that R98 does not call illegal has an opcode, and the check finds no fault. -/
theorem Machine.opcode_of_not_illegalHeader {w : Word} (legal : ¬ Machine.IllegalHeader w) :
    ∃ op : Opcode, (Header.ofWord w).opc = op.code ∧ (Header.ofWord w).fault? = none := by
  simp only [Machine.IllegalHeader, not_or, not_and, not_not] at legal
  obtain ⟨known, rsv, flag, imm⟩ := legal
  obtain ⟨op, opc⟩ := (Opcode.mem_bytes_iff _).1 known
  rw [opc] at flag imm
  have noFault := (Header.fault?_none (h := Header.ofWord w) opc).2
    ⟨rsv, fun set => op.usesFlag_iff.2 (flag set), fun set => op.usesImm_iff.2 (imm set)⟩
  exact ⟨op, opc, noFault⟩

theorem decode_cons_of_legal {w : Word} {op : Opcode} (ws : List Word)
    (opc : (Header.ofWord w).opc = op.code) (legal : (Header.ofWord w).fault? = none) :
    decode (w :: ws) = decodeOperands op (Header.ofWord w) ws := by
  simp only [decode, legal, opc, Opcode.ofByte_code]

/-! ## The length of a command (R97) -/

/-- Of the words after a legal header the decoder takes the operand words of the opcode's format, or
asks for more where they are too few. -/
theorem decodeOperands_takes_operandWords (op : Opcode) (h : Header) (ws : List Word) :
    (ws.length < op.format.operandWords → decodeOperands op h ws = .more)
      ∧ (op.format.operandWords ≤ ws.length →
        ∃ i, decodeOperands op h ws = .instr i (ws.drop op.format.operandWords)) := by
  cases op
  case setSwap | initDma | deinitDma | dmaBusy | dmaWait =>
    exact ⟨fun short => absurd short (Nat.not_lt_zero _), fun _ => ⟨_, rfl⟩⟩
  case pushBlock =>
    match ws with
    | [] | _ :: _ => simp [decodeOperands, Opcode.format, Format.operandWords]
  case pushPixels | pushSwapPixels | pushPixelsDma =>
    match ws with
    | [] | [_] | _ :: _ :: _ => simp [decodeOperands, Opcode.format, Format.operandWords]
  case pushImageDma =>
    match ws with
    | [] | [_] | [_, _] | [_, _, _] | [_, _, _, _] | [_, _, _, _, _]
    | _ :: _ :: _ :: _ :: _ :: _ :: _ => simp [decodeOperands, Opcode.format, Format.operandWords]

/-- The number of operand words as a function of the opcode's byte (R94, R95). -/
theorem Opcode.operandWords_eq (op : Opcode) :
    op.format.operandWords =
      if op.code.toNat = 0x01 then 1
      else if op.code.toNat = 0x02 ∨ op.code.toNat = 0x03 ∨ op.code.toNat = 0x14 then 2
      else if op.code.toNat = 0x15 then 6 else 0 := by
  cases op <;> rfl

/-- Settles O5: a legal header's byte is an opcode's, and the decoder takes the operand words of
that opcode's format. -/
theorem lengthFollowsFromOpcode : Obligations.LengthFollowsFromOpcode := by
  unfold Obligations.LengthFollowsFromOpcode
  intro w ws notIllegal
  obtain ⟨op, opc, legal⟩ := Machine.opcode_of_not_illegalHeader notIllegal
  have byte : w.extractLsb' 0 8 = op.code := opc
  simp only [byte, ← op.operandWords_eq, decode_cons_of_legal ws opc legal]
  exact decodeOperands_takes_operandWords op (Header.ofWord w) ws

end Sys2Proof
end

section
/-! The statements of spec/40_pixel_packer.md. -/

namespace Sys2Proof.Machine

/-! ## The fields of a pixel as numbers (R121) -/

theorem toNat_hiByte (p : Pixel) : (hiByte p).toNat = p.toNat / 256 := by
  rw [hiByte, BitVec.extractLsb'_toNat, Nat.shiftRight_eq_div_pow]
  omega

theorem toNat_loByte (p : Pixel) : (loByte p).toNat = p.toNat % 256 := by
  rw [loByte, BitVec.extractLsb'_toNat, Nat.shiftRight_zero]

theorem toNat_red5 (p : Pixel) : (red5 p).toNat = p.toNat / 2048 := by
  rw [red5, BitVec.extractLsb'_toNat, Nat.shiftRight_eq_div_pow]
  omega

theorem toNat_green6 (p : Pixel) : (green6 p).toNat = p.toNat / 32 % 64 := by
  rw [green6, BitVec.extractLsb'_toNat, Nat.shiftRight_eq_div_pow]

theorem toNat_blue5 (p : Pixel) : (blue5 p).toNat = p.toNat % 32 := by
  rw [blue5, BitVec.extractLsb'_toNat, Nat.shiftRight_zero]

/-! ## The swap of the two bytes (R122) -/

theorem swap16_eq_append (p : Pixel) : swap16 p = loByte p ++ hiByte p := by
  rw [BitVec.append_def, BitVec.shiftLeftZeroExtend_eq, BitVec.setWidth'_eq]
  rfl

/-- In the swapped pixel the low byte weighs 256 and the high byte 1. -/
theorem toNat_swapVal (p : Pixel) (s : Bool) :
    (swapVal p s).toNat = if s then p.toNat % 256 * 256 + p.toNat / 256 else p.toNat := by
  cases s with
  | false => rfl
  | true =>
    calc (swap16 p).toNat = 2 ^ 8 * (loByte p).toNat + (hiByte p).toNat := by
          rw [swap16_eq_append, toNat_append_eq_add]
      _ = p.toNat % 256 * 256 + p.toNat / 256 := by
          rw [toNat_loByte, toNat_hiByte]
          omega

/-! ## The bytes of the two formats (R123, R125) -/

/-- A field moved to the top of a word that is `n` bits wider loses no bit. -/
theorem toNat_setWidth_add_shiftLeft {m : Nat} (x : BitVec m) (n : Nat) :
    (x.setWidth (m + n) <<< n).toNat = x.toNat * 2 ^ n := by
  rw [← BitVec.shiftLeftZeroExtend_eq, BitVec.toNat_shiftLeftZeroExtend, Nat.shiftLeft_eq]

theorem toNat_red8 (q : Pixel) : (red8 q).toNat = q.toNat / 2048 * 8 := by
  rw [← toNat_red5]
  exact toNat_setWidth_add_shiftLeft (red5 q) 3

theorem toNat_green8 (q : Pixel) : (green8 q).toNat = q.toNat / 32 % 64 * 4 := by
  rw [← toNat_green6]
  exact toNat_setWidth_add_shiftLeft (green6 q) 2

theorem toNat_blue8 (q : Pixel) : (blue8 q).toNat = q.toNat % 32 * 8 := by
  rw [← toNat_blue5]
  exact toNat_setWidth_add_shiftLeft (blue5 q) 3

theorem map_toNat_bytes565_hi (p : Pixel) (s : Bool) :
    (bytes565 .hi p s).map BitVec.toNat =
      [(swapVal p s).toNat / 256, (swapVal p s).toNat % 256] := by
  rw [← toNat_hiByte, ← toNat_loByte]
  rfl

theorem map_toNat_bytes565_lo (p : Pixel) (s : Bool) :
    (bytes565 .lo p s).map BitVec.toNat =
      [(swapVal p s).toNat % 256, (swapVal p s).toNat / 256] := by
  rw [← toNat_hiByte, ← toNat_loByte]
  rfl

theorem map_toNat_bytes666 (p : Pixel) (s : Bool) :
    (bytes666 p s).map BitVec.toNat =
      [(swapVal p s).toNat / 2048 * 8, (swapVal p s).toNat / 32 % 64 * 4,
        (swapVal p s).toNat % 32 * 8] := by
  rw [← toNat_red8, ← toNat_green8, ← toNat_blue8]
  rfl

/-- Settles O8: the format chooses between the two lists of bytes, each known by value in terms of
the pixel after the swap. -/
theorem packedBytesByValue : Obligations.PackedBytesByValue := by
  unfold Obligations.PackedBytesByValue
  intro c p s
  rw [← toNat_swapVal]
  unfold pack
  cases c.colorFmt with
  | rgb565 =>
    cases c.nativeFirst with
    | hi => exact map_toNat_bytes565_hi p s
    | lo => exact map_toNat_bytes565_lo p s
  | rgb666 => exact map_toNat_bytes666 p s

end Sys2Proof.Machine
end

section
/-! The statements of spec/41_sync_push.md. -/

namespace Sys2Proof.Machine

/-- An idle engine whose operation has a plan executes the plan's lines and completes (R92, R93). -/
theorem exec_run_go {i : Instr} {ops : List MicroOp} {ret : Option Bool} {s t : State}
    (idle : s.eng = .idle) (plan : planOf i s = .run ops ret)
    (lines : runLines ops (beginOp i ops ret s) = .go t) : exec i s = .next (complete ret t) := by
  rw [exec_eq_perform, plan, perform_run idle, runOps_go lines]

theorem runLine_writeSwap {s : State} (h : halted s = false) (v : Bool) :
    runLine (.writeSwap v) s = .go { s with swap := v } :=
  runLine_plain h nofun nofun

/-- Settles O19: the operation's one line writes `SWAP`, and completing returns no value. -/
theorem setSwapResult : Obligations.SetSwapResult := by
  unfold Obligations.SetSwapResult
  intro s v idle
  have line := runLine_writeSwap (halted_beginOp (.setSwap v) [.writeSwap v] none s) v
  rw [exec_run_go idle rfl (runLines_cons_go line)]
  rfl

end Sys2Proof.Machine
end

section
/-! The statements of spec/42_dma_engine.md. -/

namespace Sys2Proof.Machine

/-! ## The lines of the DMA operations -/

theorem runLine_clearNperf {s : State} (h : halted s = false) :
    runLine .clearNperf s = .go { s with nperf := 0 } :=
  runLine_plain h nofun nofun

theorem runLine_setPending {s : State} (h : halted s = false) (n : BitVec 3) :
    runLine (.setPending n) s = .go { s with pending := n } :=
  runLine_plain h nofun nofun

theorem runLine_release {s : State} (h : halted s = false) :
    runLine .release s = .go { s with qHandle := none, dmaEn := false } :=
  runLine_plain h nofun nofun

/-- A listed answer of the controller is taken from the list (R44). -/
theorem drawQ_of_listed {s : State} {b : Bool} {r : List Bool} (listed : s.qIn = b :: r) :
    drawQ s = (b, { s with qIn := r }) := by
  simp only [drawQ, listed]

/-- A listed answer of the bus is taken from the list (R44). -/
theorem drawAcq_of_listed {s : State} {b : Bool} {r : List Bool} (listed : s.acqIn = b :: r) :
    drawAcq s = (b, { s with acqIn := r }) := by
  simp only [drawAcq, listed]

/-- The controller answers ok and the queue has room: one transaction more is queued (R177). -/
theorem runLine_queueTx_ok {s : State} {r : List Bool} (h : halted s = false)
    (ok : s.qIn = true :: r) (room : s.queue.length < s.cfg.queueDepth) (t : Transaction) :
    runLine (.queueTx t) s = .go (appendTx t { s with qIn := r }) := by
  rw [runLine_plain (op := .queueTx t) h nofun nofun]
  simp [act, queueTx, drawQ_of_listed ok, room]

/-- The controller answers fault: nothing is queued and the engine halts (R177). -/
theorem runLine_queueTx_fault {s : State} {r : List Bool} (h : halted s = false)
    (fault : s.qIn = false :: r) (t : Transaction) :
    runLine (.queueTx t) s = .go (raiseFatal .queueFault { s with qIn := r }) := by
  rw [runLine_plain (op := .queueTx t) h nofun nofun]
  simp [act, queueTx, drawQ_of_listed fault]

/-- The bus answers ok: the handle is bound and the engine is initialised (R171). -/
theorem runLine_acquire_ok {s : State} {r : List Bool} (h : halted s = false)
    (ok : s.acqIn = true :: r) :
    runLine .acquire s = .go { s with acqIn := r, qHandle := some (), dmaEn := true } := by
  rw [runLine_plain (op := .acquire) h nofun nofun]
  simp [act, acquireBus, drawAcq_of_listed ok]

/-- The bus answers fault: nothing is bound and the engine halts (R171). -/
theorem runLine_acquire_fault {s : State} {r : List Bool} (h : halted s = false)
    (fault : s.acqIn = false :: r) :
    runLine .acquire s = .go (raiseFatal .acquireFail { s with acqIn := r }) := by
  rw [runLine_plain (op := .acquire) h nofun nofun]
  simp [act, acquireBus, drawAcq_of_listed fault]

theorem halted_raiseFatal (c : Cause) (s : State) : halted (raiseFatal c s) = true := rfl

theorem queueDepth_pos (c : Params) : 0 < c.queueDepth := by
  unfold Params.queueDepth
  omega

/-! ## Operations with no line, and operations that drain first -/

/-- Accepting an operation and completing it without a line changes the frame and `RESULT` only. -/
theorem complete_beginOp (i : Instr) (ops : List MicroOp) (ret : Option Bool) (s : State) :
    complete ret (beginOp i ops ret s) = { finished i s with result := ret.getD s.result } :=
  complete_running (halted_beginOp i ops ret s)

theorem exec_of_no_line {i : Instr} {ret : Option Bool} {s : State} (idle : s.eng = .idle)
    (plan : planOf i s = .run [] ret) :
    exec i s = .next { finished i s with result := ret.getD s.result } := by
  rw [exec_run_go idle plan (runLines_nil _), complete_beginOp]

/-- An operation whose first line is the drain executes its other lines from the drained state
(R176). -/
theorem exec_of_drain_first {i : Instr} {ops : List MicroOp} {ret : Option Bool} {s t : State}
    (inv : Inv s) (idle : s.eng = .idle) (valid : QueueValid s)
    (plan : planOf i s = .run (.drain :: ops) ret)
    (lines : runLines ops (beginOp i (.drain :: ops) ret (drained s)) = .go t) :
    exec i s = .next (complete ret t) := by
  refine exec_run_go idle plan ?_
  rw [runLines_cons_go (runLine_drain inv idle valid i (.drain :: ops) ret), lines]

/-- An operation that does nothing but drain. -/
theorem exec_of_drain_only {i : Instr} {ret : Option Bool} {s : State} (inv : Inv s)
    (idle : s.eng = .idle) (valid : QueueValid s) (plan : planOf i s = .run [.drain] ret) :
    exec i s = .next { finished i (drained s) with result := ret.getD s.result } := by
  rw [exec_of_drain_first inv idle valid plan (runLines_nil _), complete_beginOp]
  rfl

/-- Settles O23: the one line is the drain, which by induction on `PENDING` performs the queue and
takes every event, and no value is returned. -/
theorem dmaWaitDrains : Obligations.DmaWaitDrains := by
  unfold Obligations.DmaWaitDrains
  intro s inv idle valid
  exact exec_of_drain_only (i := .dmaWait) (ret := none) inv idle valid rfl

/-- Settles O24: the one line is the drain, and the value returned is 0. -/
theorem dmaBusyDrainsAndReturnsZero : Obligations.DmaBusyDrainsAndReturnsZero := by
  unfold Obligations.DmaBusyDrainsAndReturnsZero
  intro s inv idle valid
  exact exec_of_drain_only (i := .dmaBusy) (ret := some false) inv idle valid rfl

/-- Settles O25: the plan has no line or two, the drain and the release, as `DMA_EN` says. -/
theorem deinitDmaDrainsAndReleases : Obligations.DeinitDmaDrainsAndReleases := by
  unfold Obligations.DeinitDmaDrainsAndReleases
  intro s inv idle valid
  refine ⟨fun disabled => ?_, fun enabled => ?_⟩
  · have plan : planOf .deinitDma s = .run [] none := if_pos disabled
    exact exec_of_no_line idle plan
  · have plan : planOf .deinitDma s = .run [.drain, .release] none := if_neg (by simp [enabled])
    have release := runLine_release (halted_beginOp .deinitDma [.drain, .release] none (drained s))
    rw [exec_of_drain_first inv idle valid plan (runLines_cons_go release)]
    rfl

/-! ## `PUSHPIXELSDMA` (R181) -/

/-- The lines of `PUSHPIXELSDMA` after its drain. -/
def submitPixelsOps (t : Transaction) : List MicroOp := [.clearNperf, .queueTx t, .setPending 1]

theorem planOf_pushPixelsDma_run {s : State} {src len : Word} (enabled : s.dmaEn = true)
    (nonzero : len ≠ 0) (short : len.toNat < 32768) :
    planOf (.pushPixelsDma src len) s
      = .run (.drain :: submitPixelsOps (payloadTx s.cfg.colorFmt src.toNat len.toNat)) none := by
  simp only [planOf, planPushPixelsDma]
  rw [if_neg (not_or.2 ⟨by simp [enabled], nonzero⟩), if_neg (Nat.not_le.2 short)]
  rfl

theorem runLines_submitPixels_ok {s : State} {r : List Bool} (h : halted s = false)
    (ok : s.qIn = true :: r) (empty : s.queue = []) (t : Transaction) :
    runLines (submitPixelsOps t) s
      = .go { s with qIn := r, nperf := 0, queue := [t], pending := 1 } := by
  have room : s.queue.length < s.cfg.queueDepth := by
    rw [empty]
    exact queueDepth_pos s.cfg
  calc runLines (submitPixelsOps t) s
      = runLines [.queueTx t, .setPending 1] { s with nperf := 0 } :=
        runLines_cons_go (runLine_clearNperf h)
    _ = runLines [.setPending 1] { s with qIn := r, nperf := 0, queue := s.queue ++ [t] } :=
        runLines_cons_go (runLine_queueTx_ok (s := { s with nperf := 0 }) h ok room t)
    _ = .go { s with qIn := r, nperf := 0, queue := s.queue ++ [t], pending := 1 } :=
        runLines_cons_go (runLine_setPending (by exact h) 1)
    _ = .go { s with qIn := r, nperf := 0, queue := [t], pending := 1 } := by
        rw [empty, List.nil_append]

/-- After a fault of the controller the line that sets `PENDING` is not executed. -/
theorem runLines_submitPixels_fault {s : State} {r : List Bool} (h : halted s = false)
    (fault : s.qIn = false :: r) (t : Transaction) :
    runLines (submitPixelsOps t) s
      = .go (raiseFatal .queueFault { s with qIn := r, nperf := 0 }) := by
  calc runLines (submitPixelsOps t) s
      = runLines [.queueTx t, .setPending 1] { s with nperf := 0 } :=
        runLines_cons_go (runLine_clearNperf h)
    _ = runLines [.setPending 1] (raiseFatal .queueFault { s with qIn := r, nperf := 0 }) :=
        runLines_cons_go (runLine_queueTx_fault (s := { s with nperf := 0 }) h fault t)
    _ = .go (raiseFatal .queueFault { s with qIn := r, nperf := 0 }) :=
        runLines_halted (halted_raiseFatal _ _) _

/-- Settles O27: the plan has no line, or it drains and submits one payload to the emptied queue,
which ends with `PENDING` set or with the engine halted as the controller answers. -/
theorem pushPixelsDmaQueuesOne : Obligations.PushPixelsDmaQueuesOne := by
  unfold Obligations.PushPixelsDmaQueuesOne
  intro s src len r inv idle valid short
  refine ⟨fun noOp => ?_, fun enabled nonzero ok => ?_, fun enabled nonzero fault => ?_⟩
  · have plan : planOf (.pushPixelsDma src len) s = .run [] none := if_pos noOp
    exact exec_of_no_line idle plan
  · have plan := planOf_pushPixelsDma_run (src := src) enabled nonzero short
    rw [exec_of_drain_first inv idle valid plan
      (runLines_submitPixels_ok (s := beginOp _ _ _ (drained s)) (halted_beginOp ..) ok rfl _)]
    rfl
  · have plan := planOf_pushPixelsDma_run (src := src) enabled nonzero short
    rw [exec_of_drain_first inv idle valid plan
      (runLines_submitPixels_fault (s := beginOp _ _ _ (drained s)) (halted_beginOp ..) fault _),
      complete_halted (halted_raiseFatal _ _)]
    rfl

/-! ## `INITDMA` (R171) -/

theorem planOf_initDma_acquire {s : State} (disabled : s.dmaEn = false) :
    planOf .initDma s = .run [.acquire] (some true) :=
  if_neg (by simp [disabled])

/-- Settles O21: the plan has no line on an initialised engine, else the one that samples the
answer; a fault halts the engine, which then does not complete. -/
theorem initDmaResult : Obligations.InitDmaResult := by
  unfold Obligations.InitDmaResult
  intro s r idle
  refine ⟨fun enabled => ?_, fun disabled ok => ?_, fun disabled fault => ?_⟩
  · have plan : planOf .initDma s = .run [] (some false) := if_pos enabled
    exact exec_of_no_line idle plan
  · have bound := runLine_acquire_ok (halted_beginOp .initDma [.acquire] (some true) s) ok
    rw [exec_run_go idle (planOf_initDma_acquire disabled) (runLines_cons_go bound)]
    rfl
  · have halts := runLine_acquire_fault (halted_beginOp .initDma [.acquire] (some true) s) fault
    rw [exec_run_go idle (planOf_initDma_acquire disabled) (runLines_cons_go halts),
      complete_halted (halted_raiseFatal _ _)]
    rfl

end Sys2Proof.Machine
end

section
/-! The statements of spec/43_bus_agents.md. -/

namespace Sys2Proof.Machine

/-! ## The SBU's step (R214) -/

theorem sbuStep_of_idle {s : State} (idle : s.busy = false) : sbuStep s = .next s :=
  if_pos idle

theorem sbuStep_of_wholeBytes {s : State} (busy : s.busy = true)
    (whole : (s.bitlen.toNat + 1) % 8 = 0) :
    sbuStep s = .next { emit s (shiftedBytes s) with busy := false } :=
  (if_neg (by simp [busy])).trans (if_neg (not_not_intro whole))

theorem toNat_lane (v : Word) (k : Nat) : (lane v k).toNat = v.toNat / 2 ^ (8 * k) % 256 := by
  rw [lane, BitVec.extractLsb'_toNat, Nat.shiftRight_eq_div_pow]

theorem toNat_fifoByte (w : Vector Word 16) (k : Nat) :
    (fifoByte w k).toNat = (w.toList.getD (k / 4) 0).toNat / 2 ^ (8 * (k % 4)) % 256 := by
  rw [fifoByte, toNat_lane, List.getD_eq_getElem?_getD, Vector.getElem?_toList]

theorem map_toNat_shiftedBytes (s : State) :
    (shiftedBytes s).map BitVec.toNat = (List.range ((s.bitlen.toNat + 1) / 8)).map fun k =>
      (s.w.toList.getD (k / 4) 0).toNat / 2 ^ (8 * (k % 4)) % 256 := by
  rw [shiftedBytes, List.map_map]
  exact List.map_congr_left fun k _ => toNat_fifoByte s.w k

/-- Settles O35: the move is the SBU's step, and each byte it shifts out is a lane by value. -/
theorem sbuSendsTheTransfer : Obligations.SbuSendsTheTransfer := by
  unfold Obligations.SbuSendsTheTransfer
  intro s ms sched
  rw [step_of_sched_cons sched, moveStep]
  refine ⟨fun busy whole => ⟨shiftedBytes s, ?_, map_toNat_shiftedBytes s⟩, fun idle => ?_⟩
  · exact sbuStep_of_wholeBytes (s := { s with sched := ms, done := false }) busy whole
  · exact sbuStep_of_idle idle

end Sys2Proof.Machine
end

section
/-! The statements of spec/70_reset_and_hazards.md. -/

namespace Sys2Proof.Machine

theorem exec_of_refuse {i : Instr} {r : Refusal} {s : State} (idle : s.eng = .idle)
    (plan : planOf i s = .refuse r) : exec i s = .refused r := by
  rw [exec_eq_perform, plan, perform_refuse idle]

/-! ## Synchronous pushes while transactions are outstanding (R271) -/

theorem dmaOutstanding_iff (s : State) :
    dmaOutstanding s = true ↔ s.queue ≠ [] ∨ s.pending ≠ 0 := by
  have pending : 0 < s.pending.toNat ↔ s.pending ≠ 0 := by bv_omega
  simp only [dmaOutstanding, Bool.or_eq_true, decide_eq_true_eq, pending]

theorem planPushBlock_refuse {s : State} {count : Word} (nonzero : count ≠ 0)
    (outstanding : dmaOutstanding s = true) (color : Pixel) :
    planPushBlock color count s = .refuse .syncPushUnderDma :=
  (if_neg nonzero).trans (if_pos outstanding)

theorem planPushSeq_refuse {s : State} {len : Word} (nonzero : len ≠ 0)
    (outstanding : dmaOutstanding s = true) (src : Word) (sw : Bool) :
    planPushSeq src len sw s = .refuse .syncPushUnderDma :=
  (if_neg nonzero).trans (if_pos outstanding)

/-- Settles O17: the plan of a block and the plan of a sequence, with either swap bit, test for
outstanding transactions once there is a pixel to push. -/
theorem syncPushUnderDmaRefused : Obligations.SyncPushUnderDmaRefused := by
  unfold Obligations.SyncPushUnderDmaRefused
  intro s color src n idle nonzero queuedOrPending
  have outstanding := (dmaOutstanding_iff s).mpr queuedOrPending
  refine ⟨exec_of_refuse idle ?block, exec_of_refuse idle ?sequence, exec_of_refuse idle ?swapped⟩
  case block => exact planPushBlock_refuse nonzero outstanding color
  case sequence => exact planPushSeq_refuse nonzero outstanding src s.swap
  case swapped => exact planPushSeq_refuse nonzero outstanding src true

end Sys2Proof.Machine
end

section
/-! The command decoder and the encoder: they invert each other, and the decoder rejects exactly the
illegal headers (spec/30_encoding.md). -/

namespace Sys2Proof

/-! ## Decoding the words of an operation (R95, R97) -/

theorem decodeOperands_operands (i : Instr) (rest : List Word) :
    decodeOperands i.opcode i.header (i.operands ++ rest) = .instr i rest := by
  cases i <;> rfl

theorem decode_encode (i : Instr) (rest : List Word) : decode (encode i ++ rest) = .instr i rest := by
  have header : Header.ofWord i.header.toWord = i.header := Header.ofWord_toWord _
  have opc : (Header.ofWord i.header.toWord).opc = i.opcode.code := by
    rw [header, i.header_opc]
  have legal : (Header.ofWord i.header.toWord).fault? = none := by
    rw [header, i.header_legal]
  calc decode (encode i ++ rest)
      = decodeOperands i.opcode (Header.ofWord i.header.toWord) (i.operands ++ rest) :=
        decode_cons_of_legal _ opc legal
    _ = .instr i rest := by rw [header, decodeOperands_operands]

/-- Settles O1: the header word reads back as the header, which is legal, and the operand words are
taken in the order they were put. -/
theorem decodeOfEncode : Obligations.DecodeOfEncode := by
  unfold Obligations.DecodeOfEncode
  exact decode_encode

/-! ## Words that decode to an operation (R98) -/

/-- The check of a header finds its opcode, or it finds a fault. -/
theorem Header.opc_of_legal {h : Header} (legal : h.fault? = none) :
    ∃ op : Opcode, h.opc = op.code := by
  cases found : Opcode.ofByte h.opc with
  | none => simp [Header.fault?, found] at legal
  | some op => exact ⟨op, Opcode.ofByte_some found⟩

/-- A list of words decodes to an operation by way of a legal header and its operand words. -/
theorem decode_eq_instr {ws : List Word} {i : Instr} {rest : List Word}
    (decoded : decode ws = .instr i rest) :
    ∃ w tail, ∃ op : Opcode, ws = w :: tail ∧ (Header.ofWord w).opc = op.code
      ∧ (Header.ofWord w).fault? = none
      ∧ decodeOperands op (Header.ofWord w) tail = .instr i rest := by
  cases ws with
  | nil => cases decoded
  | cons w tail =>
    cases legal : (Header.ofWord w).fault? with
    | some why => simp [decode, legal] at decoded
    | none =>
      obtain ⟨op, opc⟩ := Header.opc_of_legal legal
      rw [decode_cons_of_legal tail opc legal] at decoded
      exact ⟨w, tail, op, rfl, opc, legal, decoded⟩

theorem decodeOperands_eq_instr {op : Opcode} {h : Header} {ws : List Word} {i : Instr}
    {rest : List Word} (decoded : decodeOperands op h ws = .instr i rest) :
    ws = i.operands ++ rest ∧ i.opcode = op
      ∧ (op.format.usesFlag = true → i.header.flag = h.flag)
      ∧ (op.format.usesImm = true → i.header.imm = h.imm) := by
  cases op <;> simp only [decodeOperands] at decoded
  case setSwap | initDma | deinitDma | dmaBusy | dmaWait =>
    cases decoded
    simp [Instr.operands, Instr.opcode, Instr.header, Opcode.format, Format.usesFlag,
      Format.usesImm]
  case pushBlock | pushPixels | pushSwapPixels | pushPixelsDma | pushImageDma =>
    split at decoded
    · cases decoded
      simp [Instr.operands, Instr.opcode, Instr.header, Opcode.format, Format.usesFlag,
        Format.usesImm]
    · cases decoded

/-- A legal header has no bit beyond its opcode and the fields its format uses. -/
theorem Header.eq_of_legal {g h : Header} {op : Opcode} (opcG : g.opc = op.code)
    (opcH : h.opc = op.code) (legalG : g.fault? = none) (legalH : h.fault? = none)
    (flag : op.format.usesFlag = true → g.flag = h.flag)
    (imm : op.format.usesImm = true → g.imm = h.imm) : g = h := by
  obtain ⟨rsvG, flagG, immG⟩ := (Header.fault?_none opcG).1 legalG
  obtain ⟨rsvH, flagH, immH⟩ := (Header.fault?_none opcH).1 legalH
  have sameFlag : g.flag = h.flag := by
    cases used : op.format.usesFlag with
    | true => exact flag used
    | false => simp_all
  have sameImm : g.imm = h.imm := by
    cases used : op.format.usesImm with
    | true => exact imm used
    | false => simp_all
  cases g
  cases h
  simp_all

/-- Settles O2: a legal header keeps no bit that the operation it decodes to does not give back, and
the operand words are taken whole. -/
theorem encodeOfDecode : Obligations.EncodeOfDecode := by
  unfold Obligations.EncodeOfDecode
  intro ws i rest decoded
  obtain ⟨w, tail, op, rfl, opc, legal, taken⟩ := decode_eq_instr decoded
  obtain ⟨rfl, rfl, flag, imm⟩ := decodeOperands_eq_instr taken
  have header : i.header = Header.ofWord w :=
    Header.eq_of_legal i.header_opc opc i.header_legal legal flag imm
  rw [encode, header, Header.toWord_ofWord, List.cons_append]

/-! ## Illegal headers (R98) -/

theorem decodeOperands_ne_illegal (op : Opcode) (h : Header) (ws : List Word) (why : HeaderFault) :
    decodeOperands op h ws ≠ .illegal why := by
  by_cases enough : op.format.operandWords ≤ ws.length
  · obtain ⟨i, taken⟩ := (decodeOperands_takes_operandWords op h ws).2 enough
    simp [taken]
  · have short := (decodeOperands_takes_operandWords op h ws).1 (Nat.not_le.1 enough)
    simp [short]

/-- The check of a header word finds a fault exactly when R98 calls the word illegal. -/
theorem Machine.illegalHeader_iff_fault (w : Word) :
    Machine.IllegalHeader w ↔ (Header.ofWord w).fault? ≠ none := by
  constructor
  · intro illegal legal
    obtain ⟨op, opc⟩ := Header.opc_of_legal legal
    obtain ⟨rsv, flag, imm⟩ := (Header.fault?_none opc).1 legal
    change w.extractLsb' 0 8 = op.code at opc
    rw [op.usesFlag_iff] at flag
    rw [op.usesImm_iff] at imm
    obtain unknown | reserved | ⟨set, noFlag⟩ | ⟨nonzero, noImm⟩ := illegal
    · exact unknown ((Opcode.mem_bytes_iff _).2 ⟨op, opc⟩)
    · exact reserved rsv
    · exact noFlag (opc ▸ flag set)
    · exact noImm (opc.trans (imm nonzero))
  · intro fault
    by_contra notIllegal
    obtain ⟨_, _, legal⟩ := Machine.opcode_of_not_illegalHeader notIllegal
    exact fault legal

theorem decode_cons_illegal_iff (w : Word) (ws : List Word) :
    (∃ why, decode (w :: ws) = .illegal why) ↔ Machine.IllegalHeader w := by
  rw [Machine.illegalHeader_iff_fault]
  cases fault : (Header.ofWord w).fault? with
  | some why => simp [decode, fault]
  | none =>
    obtain ⟨op, opc⟩ := Header.opc_of_legal fault
    simp [decode_cons_of_legal ws opc fault, decodeOperands_ne_illegal]

/-- Settles O4: the decoder rejects a header word exactly when its check finds a fault, and that is
when R98 calls the word illegal. -/
theorem illegalHeadersRejected : Obligations.IllegalHeadersRejected := by
  unfold Obligations.IllegalHeadersRejected
  exact decode_cons_illegal_iff

/-- Settles O7: each list of words is what the encoder gives for the operation. -/
theorem sampleWordsDecode : Obligations.SampleWordsDecode := by
  unfold Obligations.SampleWordsDecode
  exact ⟨decode_encode (.pushBlock 0xF800 40) [], decode_encode (.pushPixels 0x2000 3) [],
    decode_encode (.setSwap true) [], decode_encode .initDma [],
    decode_encode (.pushPixelsDma 0x3000 2) [],
    decode_encode (.pushImageDma true 2 0xFFFFFFFF 3 3 0x400 0x500) []⟩

end Sys2Proof
end

section
/-! The pixel packer: the lanes of the packed words, and the swap of a pixel's two bytes
(spec/40_pixel_packer.md). -/

namespace Sys2Proof.Machine

/-! ## Lanes of the packed words (R124, R126 to R129) -/

theorem lane_shiftLeft_8 (a : Word) {k : Nat} (hk : k < 4) :
    lane (a <<< 8) k = if 1 ≤ k then lane a (k - 1) else 0 :=
  lane_shiftLeft a 1 k hk

theorem lane_shiftLeft_16 (a : Word) {k : Nat} (hk : k < 4) :
    lane (a <<< 16) k = if 2 ≤ k then lane a (k - 2) else 0 :=
  lane_shiftLeft a 2 k hk

theorem lane_shiftLeft_24 (a : Word) {k : Nat} (hk : k < 4) :
    lane (a <<< 24) k = if 3 ≤ k then lane a (k - 3) else 0 :=
  lane_shiftLeft a 3 k hk

theorem lane_shiftRight_8 (a : Word) (k : Nat) : lane (a >>> 8) k = lane a (k + 1) :=
  lane_shiftRight a 1 k

/-- A word has four lanes. -/
theorem lane_of_ge (a : Word) {k : Nat} (hk : 4 ≤ k) : lane a k = 0 := by
  ext i hi
  have outside : 32 ≤ 8 * k + i := by omega
  simp [lane, BitVec.getLsbD_of_ge _ _ outside]

theorem lane_redLane (q : Pixel) (k : Nat) : lane (redLane q) k = if k = 0 then red8 q else 0 :=
  lane_setWidth _ _

theorem lane_greenLane (q : Pixel) {k : Nat} (hk : k < 4) :
    lane (greenLane q) k = if k = 1 then green8 q else 0 := by
  rw [greenLane, lane_shiftLeft_8 _ hk, lane_setWidth]
  grind

theorem lane_blueLane (q : Pixel) {k : Nat} (hk : k < 4) :
    lane (blueLane q) k = if k = 2 then blue8 q else 0 := by
  rw [blueLane, lane_shiftLeft_16 _ hk, lane_setWidth]
  grind

/-- The four lanes of a word, the lowest first. -/
def lanes (a : Word) : List Byte := [lane a 0, lane a 1, lane a 2, lane a 3]

theorem lanes_group0 (p : Pixel) (s : Bool) :
    lanes (group0 p s) = [red8 (swapVal p s), green8 (swapVal p s), blue8 (swapVal p s),
      red8 (swapVal p s)] := by
  simp [lanes, group0, lane_or, lane_shiftLeft_24, lane_redLane, lane_greenLane, lane_blueLane]

theorem lanes_group1 (p : Pixel) (s : Bool) :
    lanes (group1 p s) = [green8 (swapVal p s), blue8 (swapVal p s), red8 (swapVal p s),
      green8 (swapVal p s)] := by
  have below := lanes_group0 p s
  simp only [lanes, List.cons.injEq] at below
  simp [lanes, group1, lane_or, lane_shiftLeft_16, lane_shiftRight_8, lane_greenLane, lane_of_ge,
    below]

theorem lanes_group2 (p : Pixel) (s : Bool) :
    lanes (group2 p s) = [blue8 (swapVal p s), red8 (swapVal p s), green8 (swapVal p s),
      blue8 (swapVal p s)] := by
  have below := lanes_group1 p s
  simp only [lanes, List.cons.injEq] at below
  simp [lanes, group2, lane_or, lane_shiftLeft_8, lane_shiftRight_8, lane_blueLane, lane_of_ge,
    below]

/-- Settles O9: the lanes of each group word, end to end. -/
theorem groupIsFourPixels : Obligations.GroupIsFourPixels := by
  unfold Obligations.GroupIsFourPixels
  intro p s
  change (group666 p s).flatMap lanes = _
  simp [group666, lanes_group0, lanes_group1, lanes_group2, bytes666]

/-- A half word alone in a register: the pixel's two bytes in the low lanes. -/
theorem half565_setWidth (nf : NativeFirst) (p : Pixel) (s : Bool) :
    (half565 nf p s).setWidth 32
      = (first565 nf p s).setWidth 32 ||| ((second565 nf p s).setWidth 32 <<< 8) := by
  ext i hi
  simp only [half565, BitVec.getElem_setWidth, BitVec.getLsbD_or, BitVec.getLsbD_setWidth,
    BitVec.getLsbD_shiftLeft, BitVec.getElem_or, BitVec.getElem_shiftLeft]
  grind

theorem lanes_half565 (nf : NativeFirst) (p : Pixel) (s : Bool) :
    lanes ((half565 nf p s).setWidth 32) = bytes565 nf p s ++ [0, 0] := by
  simp [lanes, half565_setWidth, lane_or, lane_shiftLeft_8, lane_setWidth, bytes565]

theorem lanes_word565 (nf : NativeFirst) (pa pb : Pixel) (s : Bool) :
    lanes (word565 nf pa pb s) = bytes565 nf pa s ++ bytes565 nf pb s := by
  simp [lanes, word565, half565_setWidth, lane_or, lane_shiftLeft_8, lane_shiftLeft_16,
    lane_setWidth, bytes565]

theorem lanes_word666 (p : Pixel) (s : Bool) : lanes (word666 p s) = bytes666 p s ++ [0] := by
  simp [lanes, word666, lane_or, lane_redLane, lane_greenLane, lane_blueLane, bytes666]

/-- Settles O10: the lanes of each packed word. -/
theorem packedWordLanes : Obligations.PackedWordLanes := by
  unfold Obligations.PackedWordLanes
  intro nf pa pb s
  exact ⟨lanes_word565 nf pa pb s, lanes_half565 nf pa s, lanes_word666 pa s⟩

/-! ## The swap (R122, R131, R148) -/

theorem hiByte_swap16 (p : Pixel) : hiByte (swap16 p) = loByte p := by
  apply BitVec.eq_of_toNat_eq
  have swapped := toNat_swapVal p true
  simp only [swapVal, if_true] at swapped
  rw [toNat_hiByte, toNat_loByte, swapped]
  omega

theorem loByte_swap16 (p : Pixel) : loByte (swap16 p) = hiByte p := by
  apply BitVec.eq_of_toNat_eq
  have swapped := toNat_swapVal p true
  simp only [swapVal, if_true] at swapped
  rw [toNat_loByte, toNat_hiByte, swapped]
  omega

theorem hiByte_append_loByte (p : Pixel) : hiByte p ++ loByte p = p := Memory.bytes_append p

theorem swap16_swap16 (p : Pixel) : swap16 (swap16 p) = p := by
  rw [swap16_eq_append, hiByte_swap16, loByte_swap16, hiByte_append_loByte]

theorem swap16_of_hiByte_eq_loByte {p : Pixel} (same : hiByte p = loByte p) : swap16 p = p := by
  conv_rhs => rw [← hiByte_append_loByte p]
  rw [swap16_eq_append, same]

/-- Packing with a swap bit is packing the swapped value without. -/
theorem pack_swapVal (c : Params) (p : Pixel) (s : Bool) :
    pack c (swapVal p s) false = pack c p s := by
  unfold pack
  cases c.colorFmt with
  | rgb565 => cases c.nativeFirst <;> rfl
  | rgb666 => rfl

theorem bytes565_true (nf : NativeFirst) (p : Pixel) :
    bytes565 nf p true = (bytes565 nf p false).reverse := by
  cases nf <;>
    simp [bytes565, first565, second565, swapVal, hiByte_swap16, loByte_swap16]

/-- Settles O11: every law follows from what the swap does to the two bytes and from packing a
swapped value. -/
theorem swapLaws : Obligations.SwapLaws := by
  unfold Obligations.SwapLaws
  intro c p
  refine ⟨swap16_swap16 p, (pack_swapVal c p true).symm, ?_, bytes565_true _ p, fun same => ?_⟩
  · calc pack c (swap16 p) true = pack c (swap16 (swap16 p)) false := (pack_swapVal c _ true).symm
      _ = pack c p false := by rw [swap16_swap16]
  · calc pack c p true = pack c (swap16 p) false := (pack_swapVal c p true).symm
      _ = pack c p false := by rw [swap16_of_hiByte_eq_loByte same]

end Sys2Proof.Machine
end

section
/-! The command port: what the step that takes a command does, and which engine takes none
(spec/30_encoding.md R91, R92, 60_exceptions.md R236). -/

namespace Sys2Proof.Machine

/-- With no move scheduled the step is the default one, after the pulse of `DONE` ends. -/
theorem step_of_sched_nil {s : State} (h : s.sched = []) :
    step s = defaultStep { s with done := false } := by
  simp only [step, scheduledStep, h]

/-! ## Commands and illegal headers at an idle engine -/

theorem takeCommand_of_instr {s : State} {i : Instr} {rest : List Word} (idle : s.eng = .idle)
    (decoded : decode s.port = .instr i rest) : takeCommand s = exec i { s with port := rest } := by
  simp only [takeCommand, idle, decoded, if_true]

theorem takeCommand_of_illegal {s : State} {why : HeaderFault} (idle : s.eng = .idle)
    (decoded : decode s.port = .illegal why) : takeCommand s = .next (takeIllegal s) := by
  simp only [takeCommand, idle, decoded, if_true]

theorem acceptCommand_of_instr {s : State} {i : Instr} {rest : List Word} (idle : s.eng = .idle)
    (decoded : decode s.port = .instr i rest) :
    acceptCommand s = acceptPlan i (planOf i s) { s with port := rest } := by
  simp only [acceptCommand, idle, decoded, if_true]

theorem acceptCommand_of_illegal {s : State} {why : HeaderFault} (idle : s.eng = .idle)
    (decoded : decode s.port = .illegal why) : acceptCommand s = .next (takeIllegal s) := by
  simp only [acceptCommand, idle, decoded, if_true]

/-- An idle engine with a command or an illegal header before it takes it. -/
theorem defaultStep_of_port {s : State} (idle : s.eng = .idle) (port : decode s.port ≠ .more) :
    defaultStep s = takeCommand s := by
  simp only [defaultStep, idle, if_neg port]

/-- Settles O6: whichever move takes it, an illegal header is one word off the port and the fatal
fault. -/
theorem illegalHeaderHalts : Obligations.IllegalHeaderHalts := by
  unfold Obligations.IllegalHeaderHalts
  intro s w ws ms idle port illegal sched
  obtain ⟨why, decoded⟩ := (decode_cons_illegal_iff w ws).2 illegal
  rw [← port] at decoded
  have tail : ws = s.port.tail := by rw [port, List.tail_cons]
  have taken := fun ms => takeCommand_of_illegal (s := { s with sched := ms, done := false })
    idle decoded
  rw [tail]
  obtain command | accept | ⟨none, rfl⟩ := sched
  · exact (step_of_sched_cons command).trans (taken ms)
  · exact (step_of_sched_cons accept).trans
      (acceptCommand_of_illegal (s := { s with sched := ms, done := false }) idle decoded)
  · rw [← none]
    have noMore : decode s.port ≠ .more := by simp [decoded]
    calc step s = defaultStep { s with done := false } := step_of_sched_nil none
      _ = takeCommand { s with done := false } := defaultStep_of_port idle noMore
      _ = _ := taken s.sched

/-- Settles O46: the step is `takeCommand`, scheduled or as the default of an idle engine. -/
theorem stepRunsTheDecodedOperation : Obligations.StepRunsTheDecodedOperation := by
  unfold Obligations.StepRunsTheDecodedOperation
  intro s i rest idle decoded _
  have noMore : decode s.port ≠ .more := by simp [decoded]
  refine ⟨fun none => ?_, fun ms command => ?_⟩
  · calc step s = defaultStep { s with done := false } := step_of_sched_nil none
      _ = takeCommand { s with done := false } := defaultStep_of_port idle noMore
      _ = _ := takeCommand_of_instr idle decoded
  · calc step s = takeCommand { s with sched := ms, done := false } := step_of_sched_cons command
      _ = _ := takeCommand_of_instr idle decoded

/-! ## A command presented as a table number (log entry 18) -/

theorem commandWords_encode (i : Instr) (rest : List Word) :
    commandWords (encode i ++ rest) = encode i := by
  have legal : i.header.wellFormed = true := by
    rw [Header.wellFormed, i.header_legal]
    rfl
  have length : (encode i).length = 1 + i.opcode.format.operandWords := by
    cases i <;> rfl
  simp only [encode, List.cons_append, commandWords, Header.ofWord_toWord, legal, if_true,
    i.header_opc, Opcode.ofByte_code]
  rw [← length, ← List.cons_append]
  exact List.take_left

/-- Settles O47: the words presented are the operation's own, so the next step decodes it and leaves
the port as it was. -/
theorem presentedInstructionIsRun : Obligations.PresentedInstructionIsRun := by
  unfold Obligations.PresentedInstructionIsRun
  intro s nbits w i idle table
  cases decoded : decode (tableWords nbits w) with
  | illegal why => simp [decodeTableWord, decoded] at table
  | more => simp [decodeTableWord, decoded] at table
  | instr j rest =>
    obtain rfl : j = i := by simpa [decodeTableWord, decoded] using table
    have words : commandWords (tableWords nbits w) = encode j := by
      rw [encodeOfDecode _ _ _ decoded, commandWords_encode]
    have port : decode (commandWords (tableWords nbits w) ++ s.port) = .instr j s.port := by
      rw [words, decode_encode]
    exact (step_of_sched_cons (s := s.withFetchWord nbits w) rfl).trans
      (takeCommand_of_instr
        (s := { s.withFetchWord nbits w with sched := s.sched, done := false }) idle port)

/-! ## An engine that is not idle -/

theorem exec_of_not_idle (i : Instr) {s : State} (busy : s.eng ≠ .idle) : exec i s = .next s := by
  rw [exec_eq_perform, perform_not_idle busy]

theorem takeCommand_of_not_idle {s : State} (busy : s.eng ≠ .idle) : takeCommand s = .next s :=
  if_neg busy

theorem acceptCommand_of_not_idle {s : State} (busy : s.eng ≠ .idle) :
    acceptCommand s = .next s :=
  if_neg busy

/-- Settles O38: performing an operation and the two moves that take one each test for `IDLE`. -/
theorem notReadyTakesNoCommand : Obligations.NotReadyTakesNoCommand := by
  unfold Obligations.NotReadyTakesNoCommand
  intro s busy
  refine ⟨fun i => exec_of_not_idle i busy, fun ms sched => ?_⟩
  obtain command | accept := sched
  · exact (step_of_sched_cons command).trans (takeCommand_of_not_idle (by exact busy))
  · exact (step_of_sched_cons accept).trans (acceptCommand_of_not_idle (by exact busy))

end Sys2Proof.Machine
end

section
/-! The moves of the host and of the DMAC, and steps in which the engine does nothing
(spec/43_bus_agents.md, 70_reset_and_hazards.md). -/

namespace Sys2Proof.Machine

/-! ## The host (10_state.md R36, 70_reset_and_hazards.md R278) -/

/-- Settles O50: the two moves, as they stand. -/
theorem statusPortHasNoEffect : Obligations.StatusPortHasNoEffect := by
  unfold Obligations.StatusPortHasNoEffect
  intro s ms off v
  refine ⟨fun read register => ?_, fun write => ?_⟩
  · have shown : statusReg { s with sched := ms, done := false } off = some v := register
    simp only [step_of_sched_cons read, moveStep, shown]
  · rw [step_of_sched_cons write, moveStep]

/-- Settles O58: a host read is a memory read, answered exactly where the address exists. -/
theorem hostReadGivesTheCell : Obligations.HostReadGivesTheCell := by
  unfold Obligations.HostReadGivesTheCell
  intro s ms a sched
  rw [step_of_sched_cons sched]
  refine ⟨fun valid => ?_, fun invalid => ?_⟩
  · have read : memRead { s with sched := ms, done := false } a
        = some (Memory.readCell s.pmem a) := memRead_some.2 ⟨valid, rfl⟩
    simp only [moveStep, read]
  · have read : memRead { s with sched := ms, done := false } a = none := memRead_none.2 invalid
    simp only [moveStep, read]

/-- A cell write leaves the bytes of every other cell. -/
theorem Memory.readByte_writeCell {m : List Host.Cell} {a c : Nat} (v : Pixel)
    (wf : Memory.wf m = true) (other : c / 2 ≠ a) :
    Memory.readByte (Memory.writeCell m a v) c = Memory.readByte m c := by
  rw [Memory.writeCell, Memory.readByte_writeByte _ _ _ _ (Memory.writeByte_wf _ _ _ wf),
    if_neg (by omega), Memory.readByte_writeByte _ _ _ _ wf, if_neg (by omega)]

/-- Settles O37: the move is a cell write, and the laws of memory say what it changes. -/
theorem hostWriteChangesOneCell : Obligations.HostWriteChangesOneCell := by
  unfold Obligations.HostWriteChangesOneCell
  intro s ms a v sched valid wf
  refine ⟨Memory.writeCell s.pmem a v, ?_, ?_, fun c other => ?_⟩
  · have write : memWrite { s with sched := ms, done := false } a v
        = some { s with sched := ms, done := false, pmem := Memory.writeCell s.pmem a v } :=
      memWrite_some.2 ⟨valid, rfl⟩
    simp only [step_of_sched_cons sched, moveStep, write]
  · rw [Memory.readCell_writeCell _ _ _ _ wf, if_pos rfl]
  · exact Memory.readByte_writeCell v wf other

/-! ## The DMAC's step (R219, R221) -/

theorem dmacReady_iff (s : State) :
    dmacReady s = true ↔ s.queue ≠ [] ∧ s.fatal = false ∧ s.dmaEn = true
      ∧ (s.cfg.busMode = .serial → s.busy = false) := by
  simp [dmacReady, and_assoc, imp_iff_not_or]

theorem dmacStep_of_not_ready {s : State} (idle : dmacReady s = false) : dmacStep s = .next s := by
  simp only [dmacStep, idle, Bool.false_eq_true, if_false]

theorem dmacStep_of_ready {s : State} {t : Transaction} {q : List Transaction}
    (ready : dmacReady s = true) (queue : s.queue = t :: q)
    (valid : txInvalid s.cfg t.body = none) :
    dmacStep s = .next (performTx t { s with queue := q }) := by
  simp only [dmacStep, ready, queue, valid, if_true]

/-- Settles O36: an enabled step performs the head of the queue, and a step that is not enabled does
nothing. -/
theorem dmacPerformsTheHead : Obligations.DmacPerformsTheHead := by
  unfold Obligations.DmacPerformsTheHead
  intro s ms sched
  rw [step_of_sched_cons sched, moveStep]
  refine ⟨fun t q queue fatal enabled free valid => ?_, fun disabled => ?_⟩
  · have ready : dmacReady { s with sched := ms, done := false } = true :=
      (dmacReady_iff _).2 ⟨by simp [queue], fatal, enabled, free⟩
    rw [dmacStep_of_ready ready queue valid]
    obtain ⟨tag, body, bits⟩ := t
    cases body <;> rfl
  · refine dmacStep_of_not_ready (Bool.eq_false_iff.2 fun ready => ?_)
    obtain ⟨queued, alive, enabled, free⟩ := (dmacReady_iff _).1 ready
    obtain queue | fatal | off | ⟨serial, busy⟩ := disabled
    · exact queued queue
    · exact Bool.false_ne_true (alive.symm.trans fatal)
    · exact Bool.false_ne_true (off.symm.trans enabled)
    · exact Bool.false_ne_true ((free serial).symm.trans busy)

/-! ## Steps that leave `PENDING` alone (R35) -/

theorem sbuStep_pending {s t : State} (h : sbuStep s = .next t) : t.pending = s.pending := by
  obtain ⟨_, rfl⟩ | ⟨_, _, rfl⟩ := sbuStep_next h <;> rfl

theorem dmacStep_pending {s t : State} (h : dmacStep s = .next t) : t.pending = s.pending := by
  obtain ⟨_, rfl⟩ | ⟨_, _, _, _, _, rfl⟩ := dmacStep_next h <;> rfl

theorem restStep_pending {s t : State} (h : restStep s = .next t) : t.pending = s.pending := by
  unfold restStep at h
  split at h
  · exact sbuStep_pending h
  · exact dmacStep_pending h

/-- All that accepting a command can do. -/
theorem acceptCommand_next {s t : State} (h : acceptCommand s = .next t) :
    t = s ∨ (s.eng = .idle ∧ (∃ why, decode s.port = .illegal why) ∧ t = takeIllegal s)
      ∨ ∃ i rest ops ret, s.eng = .idle ∧ decode s.port = .instr i rest
          ∧ planOf i s = .run ops ret ∧ t = beginOp i ops ret { s with port := rest } := by
  by_cases idle : s.eng = .idle
  · cases decoded : decode s.port with
    | more =>
      simp only [acceptCommand, idle, decoded, if_true] at h
      cases h
      exact .inl rfl
    | illegal why =>
      rw [acceptCommand_of_illegal idle decoded] at h
      cases h
      exact .inr (.inl ⟨idle, ⟨why, rfl⟩, rfl⟩)
    | instr i rest =>
      rw [acceptCommand_of_instr idle decoded] at h
      cases plan : planOf i s with
      | refuse r =>
        simp only [plan, acceptPlan, idle, if_true] at h
        cases h
      | run ops ret =>
        simp only [plan, acceptPlan, idle, if_true] at h
        cases h
        exact .inr (.inr ⟨i, rest, ops, ret, idle, rfl, plan, rfl⟩)
  · rw [acceptCommand_of_not_idle idle] at h
    cases h
    exact .inl rfl

theorem moveStep_pending {m : Move} {s t : State} (command : m ≠ .command) (engine : m ≠ .engine)
    (reset : m ≠ .reset) (h : moveStep m s = .next t) : t.pending = s.pending := by
  cases m <;> simp only [moveStep] at h
  case command => exact absurd rfl command
  case engine => exact absurd rfl engine
  case reset => exact absurd rfl reset
  case accept =>
    obtain rfl | ⟨_, _, rfl⟩ | ⟨_, _, _, _, _, _, _, rfl⟩ := acceptCommand_next h <;> rfl
  case sbu => exact sbuStep_pending h
  case dmac => exact dmacStep_pending h
  case hostWord | statusWrite =>
    cases h
    rfl
  case hostRead | statusRead | outsideDc =>
    split at h <;> cases h
    rfl
  case hostWrite =>
    split at h
    · rename_i written
      cases h
      obtain ⟨_, rfl⟩ := memWrite_some.1 written
      rfl
    · cases h

/-- Nothing is scheduled and the engine has nothing to do: the SBU or the DMAC steps. -/
theorem step_eq_restStep {s : State} (sched : s.sched = [])
    (rest : s.eng = .halt ∨ (s.eng = .idle ∧ decode s.port = .more)) :
    step s = restStep { s with done := false } := by
  rw [step_of_sched_nil sched]
  obtain halt | ⟨idle, more⟩ := rest
  · simp only [defaultStep, halt]
  · simp only [defaultStep, idle, more, if_true]

/-- Settles O52: each of these moves, and the default one of an engine with nothing to do, leaves
`PENDING` alone. -/
theorem dmaBusyDoesNotFallByItself : Obligations.DmaBusyDoesNotFallByItself := by
  unfold Obligations.DmaBusyDoesNotFallByItself
  intro s t h cases
  have pending : t.pending = s.pending := by
    obtain ⟨m, ms, sched, command, engine, reset⟩ | ⟨sched, rest⟩ := cases
    · rw [step_of_sched_cons sched] at h
      have kept := moveStep_pending command engine reset h
      exact kept
    · rw [step_eq_restStep sched rest] at h
      have kept := restStep_pending h
      exact kept
  exact ⟨pending, by rw [dmaBusyBit, dmaBusyBit, pending]⟩

/-! ## The end of a run (70_reset_and_hazards.md R279) -/

/-- A step of the engine does nothing where no operation is in progress. -/
theorem engineStep_of_idle {s : State} (idle : s.eng = .idle) : engineStep s = .next s := by
  simp only [engineStep, idle]

theorem engineStep_of_halt {s : State} (halt : s.eng = .halt) : engineStep s = .next s := by
  simp only [engineStep, halt]

theorem dmacStep_of_empty {s : State} (empty : s.queue = []) : dmacStep s = .next s :=
  dmacStep_of_not_ready (by simp [dmacReady, empty])

theorem restStep_of_quiet {s : State} (free : s.busy = false) (rest : dmacReady s = false) :
    restStep s = .next s := by
  rw [restStep, if_neg (by simp [free]), dmacStep_of_not_ready rest]

/-- Settles O53: none of the agents has anything to do, and the moves left of the schedule issue no
word either. -/
theorem runEndIsStable : Obligations.RunEndIsStable := by
  unfold Obligations.RunEndIsStable
  intro s ms ended sched
  obtain ⟨port, words, idle, free, empty, alive⟩ := ended
  have more : decode s.port = .more := by rw [port]; rfl
  obtain ⟨none, rfl⟩ | ⟨m, agent, sched⟩ := sched
  · refine ⟨?_, port, nofun, idle, free, empty, alive⟩
    have rest : dmacReady { s with done := false } = false := by simp [dmacReady, empty]
    rw [step_eq_restStep none (.inr ⟨idle, more⟩), ← none]
    exact restStep_of_quiet free rest
  · refine ⟨?_, port, fun w later => words w (by simp [sched, later]), idle, free, empty, alive⟩
    rw [step_of_sched_cons sched]
    simp only [List.mem_cons, List.not_mem_nil, or_false] at agent
    obtain rfl | rfl | rfl | rfl | rfl := agent
    · simp [moveStep, takeCommand, more]
    · simp [moveStep, acceptCommand, more]
    · exact engineStep_of_idle idle
    · exact sbuStep_of_idle free
    · exact dmacStep_of_empty empty

/-! ## After the fatal fault (60_exceptions.md R233, R241) -/

/-- The two states differ at most in what is the host's, and in `DC` where an outside agent drives
it. -/
def OnlyHostSideDiffers (outside : Prop) (s t : State) : Prop :=
  ∃ d q p r m l mem,
    t = { s with done := d, sched := q, port := p, rdata := r, mdata := m, dc := l, pmem := mem }
      ∧ (¬ outside → l = s.dc)

theorem OnlyHostSideDiffers.refl (outside : Prop) (s : State) : OnlyHostSideDiffers outside s s :=
  ⟨_, _, _, _, _, _, _, rfl, fun _ => rfl⟩

theorem moveStep_of_halted {m : Move} {s t : State} (fatal : s.fatal = true) (halt : s.eng = .halt)
    (free : s.busy = false) (reset : m ≠ .reset) (h : moveStep m s = .next t) :
    OnlyHostSideDiffers (∃ l, m = .outsideDc l) s t := by
  have notIdle : s.eng ≠ .idle := by simp [halt]
  cases m <;> simp only [moveStep] at h
  case reset => exact absurd rfl reset
  case command =>
    rw [takeCommand_of_not_idle notIdle] at h
    cases h
    exact .refl _ _
  case accept =>
    rw [acceptCommand_of_not_idle notIdle] at h
    cases h
    exact .refl _ _
  case engine =>
    rw [engineStep_of_halt halt] at h
    cases h
    exact .refl _ _
  case sbu =>
    rw [sbuStep_of_idle free] at h
    cases h
    exact .refl _ _
  case dmac =>
    rw [dmacStep_of_not_ready (by simp [dmacReady, fatal])] at h
    cases h
    exact .refl _ _
  case hostWord | statusWrite =>
    cases h
    exact ⟨_, _, _, _, _, _, _, rfl, fun _ => rfl⟩
  case hostRead | statusRead =>
    split at h <;> cases h
    exact ⟨_, _, _, _, _, _, _, rfl, fun _ => rfl⟩
  case hostWrite =>
    split at h
    · rename_i written
      cases h
      obtain ⟨_, rfl⟩ := memWrite_some.1 written
      exact ⟨_, _, _, _, _, _, _, rfl, fun _ => rfl⟩
    · cases h
  case outsideDc l =>
    split at h <;> cases h
    exact ⟨_, _, _, _, _, _, _, rfl, fun inside => absurd ⟨l, rfl⟩ inside⟩

theorem step_of_halted {s t : State} (fatal : s.fatal = true) (halt : s.eng = .halt)
    (free : s.busy = false) (h : step s = .next t) (noReset : s.sched.head? ≠ some .reset) :
    OnlyHostSideDiffers (∃ l, s.sched.head? = some (.outsideDc l)) s t := by
  cases sched : s.sched with
  | nil =>
    have rest : dmacReady { s with done := false } = false := by simp [dmacReady, fatal]
    have same := (step_eq_restStep sched (.inl halt)).trans (restStep_of_quiet free rest)
    rw [same] at h
    cases h
    exact ⟨_, _, _, _, _, _, _, rfl, fun _ => rfl⟩
  | cons m ms =>
    rw [step_of_sched_cons sched] at h
    have reset : m ≠ .reset := fun hm => noReset (by simp [sched, hm])
    obtain ⟨_, _, _, _, _, _, _, rfl, level⟩ := moveStep_of_halted
      (s := { s with sched := ms, done := false }) fatal halt free reset h
    exact ⟨_, _, _, _, _, _, _, rfl, fun inside => level (by simpa using inside)⟩

/-- Settles O39: a step of a halted machine at rest differs in the host's side only. -/
theorem fatalFaultIsPermanent : Obligations.FatalFaultIsPermanent := by
  unfold Obligations.FatalFaultIsPermanent
  intro s t fatal halt free h noReset
  obtain ⟨_, _, _, _, _, _, _, rfl, level⟩ := step_of_halted fatal halt free h noReset
  exact ⟨fatal, halt, rfl, free, rfl, rfl, rfl, rfl, rfl, rfl, rfl, rfl, rfl, rfl, rfl, rfl, rfl,
    rfl, rfl, rfl, fun inside => level (not_exists.2 inside)⟩

/-! ## Reset (10_state.md R48, R49) -/

theorem inv_resetWith (p : Params) : Inv (State.resetWith p) := by
  refine ⟨Memory.reset_wf p, by simp [State.resetWith], by simp [State.resetWith], rfl,
    fun _ => ⟨rfl, rfl, rfl⟩, Nat.zero_le _, fun todo left => ?_⟩
  cases left
  rfl

/-- Settles O43: nothing is in progress, pending or queued in the state right after reset. -/
theorem resetHasInv : Obligations.ResetHasInv := by
  unfold Obligations.ResetHasInv
  exact ⟨inv_resetWith, inv_resetWith _⟩

end Sys2Proof.Machine
end

section
/-! Operations that complete at once or are refused, the free answer of `INITDMA`, and the clipper
(spec/60_exceptions.md R237, 42_dma_engine.md R171, R180, R183). -/

namespace Sys2Proof.Machine

/-! ## The plan of `PUSHIMAGEDMA` (R182) -/

section
variable {s : State} {x y w h : Word}

theorem planOf_pushImageDma_noOp (hasStg : Bool) (img stg : Word)
    (noOp : s.dmaEn = false ∨ originOutside s.cfg x.toInt y.toInt = true
      ∨ emptyExtent (clip s.cfg x.toInt y.toInt w.toNat h.toNat) = true) :
    planOf (.pushImageDma hasStg x y w h img stg) s = .noOp := by
  simp only [planOf, planPushImageDma]
  obtain off | outside | empty := noOp
  · rw [if_pos off]
  · simp only [outside, if_true, ite_self]
  · simp only [empty, if_true, ite_self]

theorem planOf_pushImageDma_refuse (hasStg : Bool) (img stg : Word) (enabled : s.dmaEn = true)
    (origin : originOutside s.cfg x.toInt y.toInt = false)
    (extent : emptyExtent (clip s.cfg x.toInt y.toInt w.toNat h.toNat) = false)
    (area : 65536 ≤ w.toNat * h.toNat) :
    planOf (.pushImageDma hasStg x y w h img stg) s = .refuse .areaLimit := by
  simp only [planOf, planPushImageDma]
  rw [if_neg (by simp [enabled]), if_neg (by simp [origin]), if_neg (by simp [extent]), if_pos area]

theorem planOf_pushImageDma_run (hasStg : Bool) (img stg : Word) (enabled : s.dmaEn = true)
    (origin : originOutside s.cfg x.toInt y.toInt = false)
    (extent : emptyExtent (clip s.cfg x.toInt y.toInt w.toNat h.toNat) = false)
    (area : w.toNat * h.toNat < 65536) :
    planOf (.pushImageDma hasStg x y w h img stg) s
      = .run (windowOps s.cfg (clip s.cfg x.toInt y.toInt w.toNat h.toNat) img.toNat
          (stagingBuffer hasStg img stg) w.toNat h.toNat s.swap) none := by
  simp only [planOf, planPushImageDma]
  rw [if_neg (by simp [enabled]), if_neg (by simp [origin]), if_neg (by simp [extent]),
    if_neg (Nat.not_le.2 area)]

end

/-! ## Silent no-ops (R237) and refusals (R180) -/

theorem exec_of_noOp {i : Instr} {s : State} (idle : s.eng = .idle) (plan : planOf i s = .noOp) :
    exec i s = .next (finished i s) :=
  exec_of_no_line idle plan

/-- Settles O20: under each of the conditions the plan is the no-op. -/
theorem silentNoOps : Obligations.SilentNoOps := by
  unfold Obligations.SilentNoOps
  intro s idle
  refine ⟨fun color => exec_of_noOp idle rfl, fun src => exec_of_noOp idle rfl,
    fun src => exec_of_noOp idle rfl, fun off => exec_of_noOp idle (if_pos off),
    fun src len noOp => exec_of_noOp idle (if_pos noOp),
    fun hasStg x y w h img stg noOp => exec_of_noOp idle (planOf_pushImageDma_noOp _ _ _ ?_)⟩
  rw [originOutside_iff, emptyExtent_iff]
  tauto

theorem originOutside_eq_false {c : Params} {x y : Int} :
    originOutside c x y = false ↔ x < c.dispW ∧ y < c.dispH := by
  rw [← Bool.not_eq_true, originOutside_iff, not_or, not_le, not_le]

theorem emptyExtent_eq_false {k : Clipped} : emptyExtent k = false ↔ 1 ≤ k.w ∧ 1 ≤ k.h := by
  rw [← Bool.not_eq_true, emptyExtent_iff, not_or, not_lt, not_lt]

/-- Settles O28: past the tests of the no-ops the plan of either push tests the precondition. -/
theorem preconditionsRefused : Obligations.PreconditionsRefused := by
  unfold Obligations.PreconditionsRefused
  intro s idle enabled
  refine ⟨fun src len long => exec_of_refuse idle ?_,
    fun hasStg x y w h img stg col row width height area => exec_of_refuse idle ?_⟩
  · have nonzero : len ≠ 0 := by
      rintro rfl
      exact absurd long (by decide)
    simp only [planOf, planPushPixelsDma]
    rw [if_neg (not_or.2 ⟨by simp [enabled], nonzero⟩), if_pos long]
  · exact planOf_pushImageDma_refuse _ _ _ enabled (originOutside_eq_false.2 ⟨col, row⟩)
      (emptyExtent_eq_false.2 ⟨width, height⟩) area

/-! ## `INITDMA` with no answer listed (log entry 9) -/

/-- With no answer listed the bus answers a free value, and one more is drawn (R44). -/
theorem runLine_acquire_free {s : State} (h : halted s = false) (free : s.acqIn = []) :
    ∃ ok : Bool, runLine .acquire s = .go (if ok then
      { s with draws := s.draws + 1, qHandle := some (), dmaEn := true }
      else raiseFatal .acquireFail { s with draws := s.draws + 1 }) := by
  refine ⟨Config.acqOk s.draws, ?_⟩
  rw [runLine_plain (op := .acquire) h nofun nofun]
  simp only [act, acquireBus, drawAcq, free]

/-- Settles O22: the answer is the free value drawn; the line binds or halts as it says. -/
theorem initDmaFreeAnswer : Obligations.InitDmaFreeAnswer := by
  unfold Obligations.InitDmaFreeAnswer
  intro s idle disabled free
  obtain ⟨ok, line⟩ :=
    runLine_acquire_free (s := beginOp .initDma [.acquire] (some true) s) rfl free
  refine ⟨ok, ?_⟩
  rw [exec_run_go idle (planOf_initDma_acquire disabled) (runLines_cons_go line)]
  cases ok
  · exact congrArg _ (complete_halted (halted_raiseFatal _ _))
  · rfl

/-! ## The clipper (R183) -/

/-- Settles O31: each axis is clipped as the three lemmas about `clipAxis` say; the bounds follow. -/
theorem clipGivesIntersection : Obligations.ClipGivesIntersection := by
  unfold Obligations.ClipGivesIntersection
  intro c x y w h k origin extent
  obtain ⟨col, row⟩ := originOutside_eq_false.1 origin
  obtain ⟨width, height⟩ := emptyExtent_eq_false.1 extent
  have kx : k.x = max x 0 := clipAxis_origin x w c.dispW
  have kdx : k.dx = max (-x) 0 := clipAxis_offset x w c.dispW
  have kw : k.w = min (x + w) c.dispW - max x 0 := clipAxis_extent x w c.dispW
  have ky : k.y = max y 0 := clipAxis_origin y h c.dispH
  have kdy : k.dy = max (-y) 0 := clipAxis_offset y h c.dispH
  have kh : k.h = min (y + h) c.dispH - max y 0 := clipAxis_extent y h c.dispH
  rw [kx, kdx, kw, ky, kdy, kh]
  rw [kw] at width
  rw [kh] at height
  refine ⟨rfl, rfl, rfl, rfl, rfl, rfl, ?_⟩
  omega

/-- On one axis: the window and the display share a coordinate exactly when the origin is not beyond
the display and something is left after the clip. -/
theorem clipAxis_meets_iff (x w b : Int) :
    (x < b ∧ 1 ≤ (clipAxis x w b).2.1) ↔ ∃ p, x ≤ p ∧ p < x + w ∧ 0 ≤ p ∧ p < b := by
  rw [clipAxis_extent]
  constructor
  · rintro ⟨_, _⟩
    exact ⟨max x 0, by omega⟩
  · rintro ⟨p, _⟩
    omega

/-- Settles O32: the two axes are tested apart, and a window meets the display when it does on each. -/
theorem rejectedExactlyWhenDisjoint : Obligations.RejectedExactlyWhenDisjoint := by
  unfold Obligations.RejectedExactlyWhenDisjoint
  intro c x y w h
  have columns := clipAxis_meets_iff x w c.dispW
  have rows := clipAxis_meets_iff y h c.dispH
  have kept : (originOutside c x y = false ∧ emptyExtent (clip c x y w h) = false) ↔
      (∃ px : Int, x ≤ px ∧ px < x + w ∧ 0 ≤ px ∧ px < c.dispW)
        ∧ ∃ py : Int, y ≤ py ∧ py < y + h ∧ 0 ≤ py ∧ py < c.dispH := by
    rw [originOutside_eq_false, emptyExtent_eq_false, ← columns, ← rows]
    exact and_and_and_comm
  rw [← not_iff_not, not_not, not_or, Bool.not_eq_true, Bool.not_eq_true, kept]
  constructor
  · rintro ⟨⟨px, h1, h2, h3, h4⟩, py, h5, h6, h7, h8⟩
    exact ⟨px, py, h1, h2, h5, h6, h3, h4, h7, h8⟩
  · rintro ⟨px, py, h1, h2, h5, h6, h3, h4, h7, h8⟩
    exact ⟨⟨px, h1, h2, h3, h4⟩, py, h5, h6, h7, h8⟩

end Sys2Proof.Machine
end

section
/-! An operation executed line by line ends as the operation executed in one step
(spec/43_bus_agents.md R223, R224). The one-step execution keeps the engine at `RUN(0)` until it
completes, so its states are those of the other execution up to the sequencer. -/

namespace Sys2Proof.Machine

/-! ## The effect of a line, whatever the sequencer holds -/

/-- The same state with the sequencer at `e`. -/
def withEng (e : Eng) (s : State) : State := { s with eng := e }

/-- The sequencer after a line: advanced to `e`, unless the line halted it. -/
def advance (e : Eng) (s : State) : State := if halted s then s else withEng e s

/-- A function applied to the next state, if there is one. -/
def onNext (f : State → State) : Result → Result
  | .next s => .next (f s)
  | .fault r => .fault r
  | .refused r => .refused r

theorem sbuStep_of_partialByte {s : State} (busy : s.busy = true)
    (part : (s.bitlen.toNat + 1) % 8 ≠ 0) : sbuStep s = .refused .partialByte :=
  (if_neg (by simp [busy])).trans (if_pos part)

theorem sbuStep_withEng (e : Eng) (s : State) :
    sbuStep (withEng e s) = onNext (withEng e) (sbuStep s) := by
  cases busy : s.busy with
  | false => rw [sbuStep_of_idle busy, sbuStep_of_idle (s := withEng e s) busy, onNext]
  | true =>
    by_cases whole : (s.bitlen.toNat + 1) % 8 = 0
    · rw [sbuStep_of_wholeBytes busy whole, sbuStep_of_wholeBytes (s := withEng e s) busy whole]
      rfl
    · rw [sbuStep_of_partialByte busy whole, sbuStep_of_partialByte (s := withEng e s) busy whole]
      rfl

theorem dmacStep_of_stuck {s : State} {t : Transaction} {q : List Transaction} {a : Nat}
    (ready : dmacReady s = true) (queue : s.queue = t :: q)
    (invalid : txInvalid s.cfg t.body = some a) : dmacStep s = .fault (.dmacStuckAt a) := by
  simp only [dmacStep, ready, queue, invalid, if_true]

theorem dmacStep_withEng (e : Eng) (s : State) :
    dmacStep (withEng e s) = onNext (withEng e) (dmacStep s) := by
  cases ready : dmacReady s with
  | false => rw [dmacStep_of_not_ready ready, dmacStep_of_not_ready (s := withEng e s) ready, onNext]
  | true =>
    obtain ⟨t, q, queue⟩ := List.exists_cons_of_ne_nil ((dmacReady_iff s).1 ready).1
    cases valid : txInvalid s.cfg t.body with
    | none =>
      rw [dmacStep_of_ready ready queue valid, dmacStep_of_ready (s := withEng e s) ready queue valid]
      rfl
    | some a =>
      rw [dmacStep_of_stuck ready queue valid, dmacStep_of_stuck (s := withEng e s) ready queue valid]
      rfl

/-- With the serial bus held the SBU steps first; else the DMAC steps where it can. -/
theorem helpDrain_of_held {s : State} (serial : s.cfg.busMode = .serial) (busy : s.busy = true) :
    helpDrain s = sbuStep s :=
  if_pos (by simp [serial, busy])

theorem helpDrain_of_free {s : State} (free : s.cfg.busMode = .serial → s.busy = false) :
    helpDrain s = if dmacReady s then dmacStep s else .fault .drainNeverEnds :=
  if_neg (by simpa using free)

theorem helpDrain_withEng (e : Eng) (s : State) :
    helpDrain (withEng e s) = onNext (withEng e) (helpDrain s) := by
  by_cases held : s.cfg.busMode = .serial ∧ s.busy = true
  · rw [helpDrain_of_held held.1 held.2, ← sbuStep_withEng]
    exact helpDrain_of_held (s := withEng e s) held.1 held.2
  · have free : s.cfg.busMode = .serial → s.busy = false := by simpa using held
    rw [helpDrain_of_free free, helpDrain_of_free (s := withEng e s) free, dmacStep_withEng]
    change (if dmacReady s then _ else _) = _
    cases dmacReady s <;> rfl

theorem advance_of_alive {e : Eng} {t : State} (alive : halted t = false) :
    advance e t = withEng e t :=
  if_neg (by simp [alive])

theorem advance_raiseFatal (e : Eng) (c : Cause) (s : State) :
    advance e (raiseFatal c s) = raiseFatal c s :=
  if_pos (halted_raiseFatal c s)

/-- The outcome of a line with the sequencer advanced. -/
def Flow.advance (e : Eng) : Flow → Flow
  | .go t => .go (Machine.advance e t)
  | .stop r => .stop r

theorem go_withEng {e : Eng} {t u : State} (alive : halted t = false) (same : u = withEng e t) :
    Flow.go u = (Flow.go t).advance e := by
  rw [same, Flow.advance, advance_of_alive alive]

theorem whenFree_withEng {e : Eng} {s t u : State} (alive : halted t = false)
    (same : u = withEng e t) : whenFree (withEng e s) u = (whenFree s t).advance e := by
  change (if s.busy = true then _ else _) = _
  unfold whenFree
  cases s.busy
  · exact go_withEng alive same
  · rfl

theorem drawAcq_withEng (e : Eng) (s : State) :
    drawAcq (withEng e s) = ((drawAcq s).1, withEng e (drawAcq s).2)
      ∧ (drawAcq s).2.eng = s.eng := by
  simp only [drawAcq, withEng]
  cases s.acqIn <;> exact ⟨rfl, rfl⟩

theorem drawQ_withEng (e : Eng) (s : State) :
    drawQ (withEng e s) = ((drawQ s).1, withEng e (drawQ s).2) ∧ (drawQ s).2.eng = s.eng := by
  simp only [drawQ, withEng]
  cases s.qIn <;> exact ⟨rfl, rfl⟩

theorem acquireBus_withEng (e : Eng) {s : State} (alive : halted s = false) :
    acquireBus (withEng e s) = advance e (acquireBus s) := by
  obtain ⟨drawn, eng⟩ := drawAcq_withEng e s
  simp only [acquireBus, drawn]
  cases (drawAcq s).1
  · exact (advance_raiseFatal e _ _).symm
  · simp only [if_true]
    rw [advance_of_alive]
    · rfl
    · simpa only [halted, eng] using alive

theorem queueTx_withEng (t : Transaction) (e : Eng) {s : State} (alive : halted s = false) :
    queueTx t (withEng e s) = (queueTx t s).advance e := by
  obtain ⟨drawn, eng⟩ := drawQ_withEng e s
  simp only [queueTx, drawn]
  change (if (drawQ s).1 = true ∧ s.cfg.queueDepth ≤ s.queue.length then _ else _) = _
  split
  · rfl
  · cases (drawQ s).1
    · exact congrArg Flow.go (advance_raiseFatal e _ _).symm
    · refine go_withEng ?_ rfl
      simpa only [halted, appendTx, eng, if_true] using alive

/-- A line has the same effect whatever the sequencer holds. -/
theorem act_withEng (op : MicroOp) (e : Eng) {s : State} (alive : halted s = false) :
    act op (withEng e s) = (act op s).advance e := by
  have read : ∀ a, memRead (withEng e s) a = memRead s a := fun _ => rfl
  cases op <;> simp only [act, read]
  case waitIdle | driveByte | drivePixelByte | strobeLow | strobeHigh | drain | clearNperf
      | setPending | release | writeSwap => exact go_withEng (by exact alive) rfl
  case loadReg | loadPixel | setBitlen | startTransfer =>
    exact whenFree_withEng (by exact alive) rfl
  case acquire => exact congrArg Flow.go (acquireBus_withEng e alive)
  case queueTx t => exact queueTx_withEng t e alive
  case loadPair i a sw =>
    cases memRead s a with
    | none => rfl
    | some p =>
      cases memRead s (a + 1) with
      | none => rfl
      | some q => exact whenFree_withEng (by exact alive) rfl
  case loadHalf i a sw =>
    cases memRead s a with
    | none => rfl
    | some p => exact whenFree_withEng (by exact alive) rfl
  case fetchPixel a =>
    cases memRead s a with
    | none => rfl
    | some p => exact go_withEng (by exact alive) rfl
  case copyCell src dst sw =>
    have write : ∀ v, memWrite (withEng e s) dst v = (memWrite s dst v).map (withEng e) := by
      intro v
      change (if s.cfg.pmemValid dst = true then _ else _) = _
      unfold memWrite
      split <;> rfl
    cases memRead s src with
    | none => rfl
    | some v =>
      simp only [write]
      cases written : memWrite s dst (swapVal v sw) with
      | none => rfl
      | some t =>
        obtain ⟨_, rfl⟩ := memWrite_some.1 written
        exact go_withEng (by exact alive) rfl

/-! ## Executing the lines one at a time -/

/-- An operation is in progress. -/
def Running (s : State) : Prop := ∃ k todo ret, s.eng = .run k todo ret

/-- From `s`, stepping whichever agent the operation in progress needs next, until it has completed or
halted or the machine stops, ends with `r`. -/
inductive Progresses : State → Result → Prop where
  | rest {s : State} : ¬ Running s → Progresses s (.next s)
  | step {s t : State} {r : Result} :
      Running s → progressStep s = .next t → Progresses t r → Progresses s r
  | stop {s : State} {r : Result} :
      Running s → progressStep s = r → (∀ t, r ≠ .next t) → Progresses s r

theorem Progresses.fault {s : State} {f : Fault} (running : Running s)
    (h : progressStep s = .fault f) : Progresses s (.fault f) :=
  .stop running h fun _ next => by cases next

theorem Progresses.refused {s : State} {x : Refusal} (running : Running s)
    (h : progressStep s = .refused x) : Progresses s (.refused x) :=
  .stop running h fun _ next => by cases next

theorem running_withEng (k : Nat) (todo : List MicroOp) (ret : Option Bool) (s : State) :
    Running (withEng (.run k todo ret) s) :=
  ⟨k, todo, ret, rfl⟩

/-- The lines left, executed in one step, and the return. -/
theorem runOps_cons_next {op : MicroOp} {ops : List MicroOp} {ret : Option Bool} {s t : State}
    (h : runLine op s = .go t) : runOps (op :: ops) ret s = runOps ops ret t := by
  rw [runOps, runLines_cons_go h, runOps]

theorem runOps_cons_stop {op : MicroOp} {ops : List MicroOp} {ret : Option Bool} {s : State}
    {r : Result} (h : runLine op s = .stop r) : runOps (op :: ops) ret s = r :=
  runOps_stop (runLines_cons_stop h)

theorem runOps_of_halted {ops : List MicroOp} {ret : Option Bool} {s : State}
    (halt : halted s = true) : runOps ops ret s = .next s := by
  rw [runOps_go (runLines_halted halt ops), complete_halted halt]

theorem blocked_withEng (op : MicroOp) (e : Eng) (s : State) :
    blocked op (withEng e s) = blocked op s := by
  cases op <;> rfl

/-- The engine executes the line at its head, whose wait is over. -/
theorem engineStep_act {k : Nat} {op : MicroOp} {ops : List MicroOp} {ret : Option Bool} {s : State}
    (alive : halted s = false) (free : blocked op s = false)
    (drained : op = .drain → s.pending = 0) :
    engineStep (withEng (.run k (op :: ops) ret) s) =
      match act op s with
      | .go t => .next (advance (.run (k + 1) ops ret) t)
      | .stop r => r := by
  have taken : (decide (op = .drain) && decide (s.pending ≠ 0)) = false := by simpa using drained
  have free' : blocked op (withEng (.run k (op :: ops) ret) s) = false :=
    (blocked_withEng _ _ _).trans free
  have step : engineStep (withEng (.run k (op :: ops) ret) s) =
      match act op (withEng (.run k (op :: ops) ret) s) with
      | .go t => .next (if halted t then t else withEng (.run (k + 1) ops ret) t)
      | .stop r => r := by
    simp only [engineStep]
    change (if blocked op (withEng (.run k (op :: ops) ret) s) = true then _
      else if (decide (op = .drain) && decide (s.pending ≠ 0)) = true then _ else _) = _
    rw [if_neg (by simp [free']), if_neg (by rw [taken]; exact Bool.false_ne_true)]
    rfl
  rw [step, act_withEng op _ alive]
  cases act op s with
  | stop r => rfl
  | go t =>
    simp only [Flow.advance, advance]
    cases halt : halted t
    · rfl
    · simp only [if_true, halt]

theorem progressStep_plain {s : State} {k : Nat} {op : MicroOp} {ops : List MicroOp}
    {ret : Option Bool} (eng : s.eng = .run k (op :: ops) ret) (noWait : op ≠ .waitIdle)
    (noDrain : op ≠ .drain) : progressStep s = engineStep s := by
  unfold progressStep
  split
  · rename_i wait
    rw [eng] at wait
    cases wait
    exact absurd rfl noWait
  · rename_i drain
    rw [eng] at drain
    cases drain
    exact absurd rfl noDrain
  · rfl

theorem progressStep_waitIdle {s : State} {k : Nat} {ops : List MicroOp} {ret : Option Bool}
    (eng : s.eng = .run k (.waitIdle :: ops) ret) :
    progressStep s = if s.busy then sbuStep s else engineStep s := by
  simp only [progressStep, eng]

theorem progressStep_drain {s : State} {k : Nat} {ops : List MicroOp} {ret : Option Bool}
    (eng : s.eng = .run k (.drain :: ops) ret) :
    progressStep s = if blocked .drain s then helpDrain s else engineStep s := by
  simp only [progressStep, eng]

/-- One more line: if it ends the operation or goes on to lines that progress, so does the whole. -/
theorem progresses_act {k : Nat} {op : MicroOp} {ops : List MicroOp} {ret : Option Bool} {s : State}
    (alive : halted s = false) (free : blocked op s = false)
    (drained : op = .drain → s.pending = 0)
    (progress : progressStep (withEng (.run k (op :: ops) ret) s)
      = engineStep (withEng (.run k (op :: ops) ret) s))
    (goesOn : ∀ t, act op s = .go t → halted t = false →
      Progresses (withEng (.run (k + 1) ops ret) t) (runOps ops ret t)) :
    Progresses (withEng (.run k (op :: ops) ret) s)
      (match act op s with
        | .go t => runOps ops ret t
        | .stop r => r) := by
  have running := running_withEng k (op :: ops) ret s
  rw [engineStep_act alive free drained] at progress
  cases effect : act op s with
  | stop r =>
    rw [effect] at progress
    exact .stop running progress fun t next => act_stop_ne_next op s t (next ▸ effect)
  | go t =>
    rw [effect] at progress
    refine .step running progress ?_
    cases halt : halted t with
    | true =>
      change Progresses _ (runOps ops ret t)
      rw [advance, if_pos halt, runOps_of_halted halt]
      refine .rest ?_
      rintro ⟨k', todo, ret', eng⟩
      simp [halted, eng] at halt
    | false =>
      rw [advance_of_alive halt]
      exact goesOn t effect halt

/-! ## Drains -/

/-- The lines after a drain, executed in one step, where the drain ends. -/
def afterDrain (ops : List MicroOp) (ret : Option Bool) : Result → Result
  | .next t => runOps ops ret t
  | .fault f => .fault f
  | .refused r => .refused r

theorem awaitEvent_of_free {s : State} (none : s.compl = [])
    (free : s.cfg.busMode = .serial → s.busy = false) : awaitEvent s = helpDrain s := by
  rw [awaitEvent, if_neg (by simp [none]), if_neg (by simpa using free)]

/-- The rest of a wait, after the SBU's step. -/
def helpOn : Result → Result
  | .next t => helpDrain t
  | .fault f => .fault f
  | .refused r => .refused r

theorem awaitEvent_of_held {s : State} (none : s.compl = []) (serial : s.cfg.busMode = .serial)
    (busy : s.busy = true) {r : Result} (sent : sbuStep s = r) :
    awaitEvent s = helpOn r := by
  rw [awaitEvent, if_neg (by simp [none]), if_pos (by simp [serial, busy]), sent]
  cases r <;> rfl

/-- The rest of a drain, after the wait for its next event. -/
def drainOn (n : Nat) : Result → Result
  | .next t => drainLoop n (takeCompletion t)
  | .fault f => .fault f
  | .refused r => .refused r

theorem drainLoop_succ (n : Nat) (s : State) : drainLoop (n + 1) s = drainOn n (awaitEvent s) := by
  rw [drainLoop]
  cases awaitEvent s <;> rfl

/-- Where the DMAC is what a drain waits for, its step reports an event and leaves the count. -/
theorem helpDrain_next_of_free {s t : State} (free : s.cfg.busMode = .serial → s.busy = false)
    (h : helpDrain s = .next t) :
    t.compl ≠ [] ∧ t.pending = s.pending ∧ t.eng = s.eng := by
  rw [helpDrain_of_free free] at h
  split at h
  · rename_i ready
    obtain ⟨idle, _⟩ | ⟨x, q, _, _, _, rfl⟩ := dmacStep_next h
    · exact absurd (ready.symm.trans idle) (by decide)
    · simp
  · cases h

theorem sbuStep_leaves {s t : State} (h : sbuStep s = .next t) :
    t.compl = s.compl ∧ t.pending = s.pending ∧ t.eng = s.eng := by
  obtain ⟨_, rfl⟩ | ⟨_, _, rfl⟩ := sbuStep_next h <;> exact ⟨rfl, rfl, rfl⟩

theorem engineStep_takesEvent {s : State} {k : Nat} {ops : List MicroOp} {ret : Option Bool}
    (eng : s.eng = .run k (.drain :: ops) ret) (event : s.compl ≠ []) (left : s.pending ≠ 0) :
    engineStep s = .next (takeCompletion s) := by
  have free : blocked .drain s = false := by simp [blocked, event]
  simp only [engineStep, eng, free, left, ne_eq, not_false_eq_true, decide_true, Bool.and_true,
    Bool.false_eq_true, if_true, if_false]

section
variable {k n : Nat} {ops : List MicroOp} {ret : Option Bool}

/-- The drain is blocked: whoever it waits for steps. -/
theorem progressStep_helpsDrain {s : State} (none : s.compl = []) (left : s.pending ≠ 0) :
    progressStep (withEng (.run k (.drain :: ops) ret) s)
      = onNext (withEng (.run k (.drain :: ops) ret)) (helpDrain s) := by
  rw [progressStep_drain rfl, if_pos (by simpa [blocked, withEng, none] using left),
    helpDrain_withEng]

/-- The drain finds an event. -/
theorem progressStep_takesEvent {s : State} (event : s.compl ≠ []) (left : s.pending ≠ 0) :
    progressStep (withEng (.run k (.drain :: ops) ret) s)
      = .next (withEng (.run k (.drain :: ops) ret) (takeCompletion s)) := by
  rw [progressStep_drain rfl, if_neg (by simp [blocked, withEng, event]),
    engineStep_takesEvent rfl (by exact event) (by exact left)]
  rfl

/-- Events taken one at a time are a drain. -/
theorem progresses_drain
    (goesOn : ∀ t, halted t = false →
      Progresses (withEng (.run (k + 1) ops ret) t) (runOps ops ret t)) :
    ∀ s, s.pending.toNat = n → halted s = false →
      Progresses (withEng (.run k (.drain :: ops) ret) s) (afterDrain ops ret (drainLoop n s)) := by
  induction n with
  | zero =>
    intro s count alive
    have nothingLeft : s.pending = 0 := BitVec.eq_of_toNat_eq count
    have free : blocked .drain s = false := by simp [blocked, nothingLeft]
    exact progresses_act (op := .drain) alive free (fun _ => nothingLeft)
      ((progressStep_drain rfl).trans (if_neg (by simp [blocked_withEng, free])))
      (fun t same => by cases same; exact goesOn s)
  | succ n ih =>
    have running := running_withEng k (.drain :: ops) ret
    have left : ∀ s : State, s.pending.toNat = n + 1 → s.pending ≠ 0 := by
      intro s count zero
      rw [zero] at count
      cases count
    have takes : ∀ s : State, s.pending.toNat = n + 1 → halted s = false → s.compl ≠ [] →
        Progresses (withEng (.run k (.drain :: ops) ret) s)
          (afterDrain ops ret (drainLoop n (takeCompletion s))) := fun s count alive event =>
      .step (running s) (progressStep_takesEvent event (left s count))
        (ih (takeCompletion s) (pending_pred count) alive)
    have performs : ∀ s : State, s.pending.toNat = n + 1 → halted s = false → s.compl = [] →
        (s.cfg.busMode = .serial → s.busy = false) →
        Progresses (withEng (.run k (.drain :: ops) ret) s)
          (afterDrain ops ret (drainOn n (helpDrain s))) := by
      intro s count alive none free
      have progress := progressStep_helpsDrain (k := k) (ops := ops) (ret := ret) none (left s count)
      cases help : helpDrain s with
      | next t =>
        rw [help] at progress
        obtain ⟨event, pending, eng⟩ := helpDrain_next_of_free free help
        exact .step (running s) progress (takes t (pending ▸ count)
          (by rw [halted, eng]; exact alive) event)
      | fault f =>
        rw [help] at progress
        exact Progresses.fault (running s) progress
      | refused r =>
        rw [help] at progress
        exact Progresses.refused (running s) progress
    intro s count alive
    rw [drainLoop_succ]
    by_cases none : s.compl = []
    · by_cases held : s.cfg.busMode = .serial ∧ s.busy = true
      · have progress := progressStep_helpsDrain (k := k) (ops := ops) (ret := ret) none (left s count)
        rw [helpDrain_of_held held.1 held.2] at progress
        cases sent : sbuStep s with
        | next t =>
          rw [awaitEvent_of_held none held.1 held.2 sent]
          rw [sent] at progress
          refine .step (running s) progress ?_
          obtain ⟨compl, pending, eng⟩ := sbuStep_leaves sent
          exact performs t (pending ▸ count) (by rw [halted, eng]; exact alive) (compl ▸ none)
            fun _ => sbuStep_busy sent
        | fault f =>
          rw [awaitEvent_of_held none held.1 held.2 sent]
          rw [sent] at progress
          exact Progresses.fault (running s) progress
        | refused r =>
          rw [awaitEvent_of_held none held.1 held.2 sent]
          rw [sent] at progress
          exact Progresses.refused (running s) progress
      · have free : s.cfg.busMode = .serial → s.busy = false := by simpa using held
        rw [awaitEvent_of_free none free]
        exact performs s count alive none free
    · rw [awaitEvent_ready none]
      exact takes s count alive none

end

/-! ## A whole operation -/

theorem runOps_drain {ops : List MicroOp} {ret : Option Bool} {s : State} (alive : halted s = false) :
    runOps (.drain :: ops) ret s = afterDrain ops ret (drainLoop s.pending.toNat s) := by
  have line := runLine_eq alive .drain
  rw [settle] at line
  cases drains : drainLoop s.pending.toNat s with
  | next t =>
    rw [drains] at line
    exact runOps_cons_next line
  | fault f =>
    rw [drains] at line
    exact runOps_cons_stop line
  | refused r =>
    rw [drains] at line
    exact runOps_cons_stop line

theorem runOps_plain {op : MicroOp} {ops : List MicroOp} {ret : Option Bool} {s : State}
    (alive : halted s = false) (noWait : op ≠ .waitIdle) (noDrain : op ≠ .drain) :
    runOps (op :: ops) ret s = match act op s with
      | .go t => runOps ops ret t
      | .stop r => r := by
  have line := runLine_plain alive noWait noDrain
  cases effect : act op s with
  | go t => exact runOps_cons_next (line.trans effect)
  | stop r => exact runOps_cons_stop (line.trans effect)

/-- A wait for the serial bus: the SBU's step where a transfer is in progress, then the line. -/
theorem progresses_waitIdle {k : Nat} {ops : List MicroOp} {ret : Option Bool}
    (goesOn : ∀ t, halted t = false →
      Progresses (withEng (.run (k + 1) ops ret) t) (runOps ops ret t)) (s : State)
    (alive : halted s = false) :
    Progresses (withEng (.run k (.waitIdle :: ops) ret) s) (runOps (.waitIdle :: ops) ret s) := by
  have free : ∀ t : State, t.busy = false → halted t = false →
      Progresses (withEng (.run k (.waitIdle :: ops) ret) t) (runOps ops ret t) :=
    fun t idle aliveT => progresses_act (op := .waitIdle) aliveT idle nofun
      ((progressStep_waitIdle rfl).trans (if_neg (by simpa [withEng] using idle)))
      (fun u same => by cases same; exact goesOn t)
  have line := runLine_eq alive .waitIdle
  rw [settle] at line
  cases busy : s.busy with
  | false =>
    rw [sbuStep_of_idle busy] at line
    rw [runOps_cons_next line]
    exact free s busy alive
  | true =>
    have running := running_withEng k (.waitIdle :: ops) ret s
    have progress : progressStep (withEng (.run k (.waitIdle :: ops) ret) s)
        = onNext (withEng (.run k (.waitIdle :: ops) ret)) (sbuStep s) := by
      rw [progressStep_waitIdle rfl, if_pos (by exact busy), sbuStep_withEng]
    cases sent : sbuStep s with
    | next t =>
      rw [sent] at line progress
      rw [runOps_cons_next line]
      obtain ⟨_, _, eng⟩ := sbuStep_leaves sent
      exact .step running progress (free t (sbuStep_busy sent) (by rw [halted, eng]; exact alive))
    | fault f =>
      rw [sent] at line progress
      rw [runOps_cons_stop line]
      exact Progresses.fault running progress
    | refused r =>
      rw [sent] at line progress
      rw [runOps_cons_stop line]
      exact Progresses.refused running progress

/-- The lines of an operation executed one at a time end as the lines executed in one step. -/
theorem progresses_runOps (ops : List MicroOp) (ret : Option Bool) :
    ∀ (k : Nat) (s : State), halted s = false →
      Progresses (withEng (.run k ops ret) s) (runOps ops ret s) := by
  induction ops with
  | nil =>
    intro k s alive
    have progress : progressStep (withEng (.run k [] ret) s) = .next (complete ret s) := by
      rw [complete_running alive]
      rfl
    refine .step (running_withEng _ _ _ _) progress (.rest ?_)
    rw [complete_running alive]
    rintro ⟨_, _, _, eng⟩
    cases eng
  | cons op ops ih =>
    intro k s alive
    have goesOn : ∀ t, act op s = .go t → halted t = false →
        Progresses (withEng (.run (k + 1) ops ret) t) (runOps ops ret t) := fun t _ => ih (k + 1) t
    by_cases wait : op = .waitIdle
    · subst wait
      exact progresses_waitIdle (ih (k + 1)) s alive
    · by_cases drain : op = .drain
      · subst drain
        rw [runOps_drain alive]
        exact progresses_drain (ih (k + 1)) s rfl alive
      · have free : blocked op s = false := by
          cases op <;> first | exact absurd rfl wait | exact absurd rfl drain | rfl
        have whole := progresses_act alive free (fun h => absurd h drain)
          (progressStep_plain rfl wait drain) goesOn
        rwa [← runOps_plain alive wait drain] at whole

end Sys2Proof.Machine
end

section
/-! All that a line can do, said once, and the run of the machine that executes an operation line by
line. -/

namespace Sys2Proof.Machine

/-! ## The effect of a line -/

/-- What each line does to the state, where it does not stop the machine. -/
inductive LineEffect (s : State) : MicroOp → State → Prop where
  | waitIdle : LineEffect s .waitIdle s
  | loadReg (i : Nat) (v : Word) : s.busy = false → LineEffect s (.loadReg i v) (setReg s i v)
  | loadPair (i a : Nat) (sw : Bool) : s.busy = false →
      LineEffect s (.loadPair i a sw) (setReg s i (word565 s.cfg.nativeFirst
        (Memory.readCell s.pmem a) (Memory.readCell s.pmem (a + 1)) sw))
  | loadHalf (i a : Nat) (sw : Bool) : s.busy = false →
      LineEffect s (.loadHalf i a sw)
        (setReg s i ((half565 s.cfg.nativeFirst (Memory.readCell s.pmem a) sw).setWidth 32))
  | fetchPixel (a : Nat) :
      LineEffect s (.fetchPixel a) { s with loc := Memory.readCell s.pmem a }
  | loadPixel (sw : Bool) : s.busy = false →
      LineEffect s (.loadPixel sw) (setReg s 0 (word666 s.loc sw))
  | setBitlen (v : BitVec 9) : s.busy = false → LineEffect s (.setBitlen v) { s with bitlen := v }
  | startTransfer : s.busy = false → LineEffect s .startTransfer (startTransfer s)
  | driveByte (b : Byte) : LineEffect s (.driveByte b) { s with data := b }
  | drivePixelByte (k : Nat) (sw : Bool) :
      LineEffect s (.drivePixelByte k sw) { s with data := (pack s.cfg s.loc sw)[k]?.getD 0 }
  | strobeLow : LineEffect s .strobeLow { s with wr := false }
  | strobeHigh : LineEffect s .strobeHigh (strobeEnd s)
  | drain : LineEffect s .drain s
  | copyCell (src dst : Nat) (sw : Bool) :
      LineEffect s (.copyCell src dst sw) { s with
        pmem := Memory.writeCell s.pmem dst (swapVal (Memory.readCell s.pmem src) sw) }
  | clearNperf : LineEffect s .clearNperf { s with nperf := 0 }
  | queueOk (t : Transaction) (d : Nat) : s.queue.length < s.cfg.queueDepth →
      ((s.qIn = [] ∧ d = s.draws + 1) ∨ (s.qIn = true :: s.qIn.tail ∧ d = s.draws)) →
      LineEffect s (.queueTx t) (appendTx t { s with qIn := s.qIn.tail, draws := d })
  | queueFault (t : Transaction) (d : Nat) :
      ((s.qIn = [] ∧ d = s.draws + 1) ∨ (s.qIn = false :: s.qIn.tail ∧ d = s.draws)) →
      LineEffect s (.queueTx t) (raiseFatal .queueFault { s with qIn := s.qIn.tail, draws := d })
  | setPending (n : BitVec 3) : LineEffect s (.setPending n) { s with pending := n }
  | acquireOk (d : Nat) :
      ((s.acqIn = [] ∧ d = s.draws + 1) ∨ (s.acqIn = true :: s.acqIn.tail ∧ d = s.draws)) →
      LineEffect s .acquire
        { s with acqIn := s.acqIn.tail, draws := d, qHandle := some (), dmaEn := true }
  | acquireFault (d : Nat) :
      ((s.acqIn = [] ∧ d = s.draws + 1) ∨ (s.acqIn = false :: s.acqIn.tail ∧ d = s.draws)) →
      LineEffect s .acquire (raiseFatal .acquireFail { s with acqIn := s.acqIn.tail, draws := d })
  | release : LineEffect s .release { s with qHandle := none, dmaEn := false }
  | writeSwap (v : Bool) : LineEffect s (.writeSwap v) { s with swap := v }

theorem whenFree_go {s t u : State} (h : whenFree s t = .go u) : s.busy = false ∧ u = t := by
  unfold whenFree at h
  split at h <;> cases h
  rename_i free
  exact ⟨by simpa using free, rfl⟩

theorem act_go {op : MicroOp} {s t : State} (h : act op s = .go t) : LineEffect s op t := by
  cases op <;> simp only [act] at h
  case waitIdle => cases h; exact .waitIdle
  case driveByte b => cases h; exact .driveByte b
  case drivePixelByte k sw => cases h; exact .drivePixelByte k sw
  case strobeLow => cases h; exact .strobeLow
  case strobeHigh => cases h; exact .strobeHigh
  case drain => cases h; exact .drain
  case clearNperf => cases h; exact .clearNperf
  case setPending n => cases h; exact .setPending n
  case release => cases h; exact .release
  case writeSwap v => cases h; exact .writeSwap v
  case loadReg i v =>
    obtain ⟨free, rfl⟩ := whenFree_go h
    exact .loadReg i v free
  case loadPixel sw =>
    obtain ⟨free, rfl⟩ := whenFree_go h
    exact .loadPixel sw free
  case setBitlen v =>
    obtain ⟨free, rfl⟩ := whenFree_go h
    exact .setBitlen v free
  case startTransfer =>
    obtain ⟨free, rfl⟩ := whenFree_go h
    exact .startTransfer free
  case loadPair i a sw =>
    split at h
    · rename_i pa pb readA readB
      obtain ⟨free, rfl⟩ := whenFree_go h
      obtain ⟨_, rfl⟩ := memRead_some.1 readA
      obtain ⟨_, rfl⟩ := memRead_some.1 readB
      exact .loadPair i a sw free
    · cases h
    · cases h
  case loadHalf i a sw =>
    split at h
    · rename_i p read
      obtain ⟨free, rfl⟩ := whenFree_go h
      obtain ⟨_, rfl⟩ := memRead_some.1 read
      exact .loadHalf i a sw free
    · cases h
  case fetchPixel a =>
    split at h
    · rename_i p read
      cases h
      obtain ⟨_, rfl⟩ := memRead_some.1 read
      exact .fetchPixel a
    · cases h
  case copyCell src dst sw =>
    split at h
    · rename_i v read
      split at h
      · rename_i u written
        cases h
        obtain ⟨_, rfl⟩ := memRead_some.1 read
        obtain ⟨_, rfl⟩ := memWrite_some.1 written
        exact .copyCell src dst sw
      · cases h
    · cases h
  case queueTx x =>
    obtain ⟨ok, d, listed, ⟨rfl, room, rfl⟩ | ⟨rfl, rfl⟩⟩ := queueTx_go h
    · exact .queueOk x d room listed
    · exact .queueFault x d listed
  case acquire =>
    cases h
    obtain ⟨ok, d, listed, ⟨rfl, bound⟩ | ⟨rfl, halts⟩⟩ := acquireBus_cases s
    · exact bound ▸ .acquireOk d listed
    · exact halts ▸ .acquireFault d listed

/-- Fields that no line writes. -/
theorem act_keeps_frame {op : MicroOp} {s t : State} (h : act op s = .go t) :
    t.opr = s.opr ∧ t.done = s.done ∧ t.result = s.result ∧ t.dc = s.dc ∧ t.compl = s.compl := by
  cases act_go h <;> exact ⟨rfl, rfl, rfl, rfl, rfl⟩

/-! ## Progress as a run of the machine -/

/-- All that can step for an operation in progress. -/
theorem progressStep_next {s t : State} (h : progressStep s = .next t) :
    sbuStep s = .next t ∨ dmacStep s = .next t ∨ engineStep s = .next t := by
  unfold progressStep at h
  split at h
  · split at h
    · exact .inl h
    · exact .inr (.inr h)
  · split at h
    · obtain ⟨_, h⟩ | ⟨_, h⟩ := helpDrain_next h
      · exact .inl h
      · exact .inr (.inl h)
    · exact .inr (.inr h)
  · exact .inr (.inr h)

theorem not_running_complete (ret : Option Bool) (s : State) : ¬ Running (complete ret s) := by
  rintro ⟨k, todo, r, eng⟩
  cases halt : halted s with
  | true =>
    rw [complete_halted halt] at eng
    simp [halted, eng] at halt
  | false =>
    rw [complete_running halt] at eng
    cases eng

/-- While an operation is in progress `DONE` stays as it is. -/
theorem progressStep_done {s t : State} (running : Running s) (h : progressStep s = .next t)
    (still : Running t) : t.done = s.done := by
  obtain h | h | h := progressStep_next h
  · obtain ⟨_, rfl⟩ | ⟨_, _, rfl⟩ := sbuStep_next h <;> rfl
  · obtain ⟨_, rfl⟩ | ⟨_, _, _, _, _, rfl⟩ := dmacStep_next h <;> rfl
  · obtain ⟨k, todo, ret, eng⟩ := running
    cases todo with
    | nil =>
      simp only [engineStep, eng] at h
      cases h
      exact absurd still (not_running_complete ret s)
    | cons op ops =>
      obtain ⟨_, rfl⟩ | ⟨_, _, _, rfl⟩ | ⟨u, _, _, effect, rfl⟩ := engineStep_next eng h
      · rfl
      · rfl
      · obtain ⟨_, done, _⟩ := act_keeps_frame effect
        split <;> exact done

theorem progressStep_sched {s t : State} (h : progressStep s = .next t) : t.sched = s.sched := by
  obtain h | h | h := progressStep_next h
  · exact moveStep_sched (m := .sbu) h
  · exact moveStep_sched (m := .dmac) h
  · exact moveStep_sched (m := .engine) h

/-- With no move scheduled the machine's steps are those of the operation in progress. -/
theorem step_of_running {s : State} (running : Running s) (sched : s.sched = [])
    (done : s.done = false) : step s = progressStep s := by
  obtain ⟨k, todo, ret, eng⟩ := running
  have same : { s with done := false } = s := by rw [← done]
  rw [step_of_sched_nil sched, same]
  simp only [defaultStep, eng]

theorem runFor_of_progresses {s : State} {r : Result} (h : Progresses s r) :
    s.sched = [] → (Running s → s.done = false) → ∃ n, runFor n s = r := by
  induction h with
  | rest => exact fun _ _ => ⟨0, rfl⟩
  | @step s t r running progress _ ih =>
    intro sched done
    obtain ⟨n, hn⟩ := ih ((progressStep_sched progress).trans sched)
      (fun still => (progressStep_done running progress still).trans (done running))
    refine ⟨n + 1, ?_⟩
    rw [runFor_next ((step_of_running running sched (done running)).trans progress), hn]
  | @stop s r running progress stops =>
    intro sched done
    have stopped := (step_of_running running sched (done running)).trans progress
    refine ⟨1, ?_⟩
    cases r with
    | next t => exact absurd rfl (stops t)
    | fault f => exact runFor_fault stopped 0
    | refused x => exact runFor_refused stopped 0

/-- An operation taken by an idle engine is its lines executed one at a time. -/
theorem exec_progresses {i : Instr} {s : State} {ops : List MicroOp} {ret : Option Bool}
    (idle : s.eng = .idle) (plan : planOf i s = .run ops ret) :
    Progresses (beginOp i ops ret s) (exec i s) := by
  rw [exec_eq_perform, plan, perform_run idle]
  exact progresses_runOps ops ret 0 (beginOp i ops ret s) (halted_beginOp i ops ret s)

/-- Settles O44: the acceptance is one step; after it the run is the progress of the operation, which
ends as its lines executed in one step. -/
theorem lineByLineEqualsOneStep : Obligations.LineByLineEqualsOneStep := by
  unfold Obligations.LineByLineEqualsOneStep
  intro s i rest idle sched decoded
  let start : State := { s with port := rest, sched := [], done := false }
  have accepted : step s = acceptPlan i (planOf i s) start :=
    (step_of_sched_cons sched).trans
      (acceptCommand_of_instr (s := { s with sched := [], done := false }) idle decoded)
  have samePlan : planOf i start = planOf i s := by cases i <;> rfl
  cases plan : planOf i s with
  | refuse r =>
    refine ⟨1, ?_⟩
    have refused : step s = .refused r := by
      rw [accepted, plan, acceptPlan, if_pos (by exact idle)]
    rw [exec_of_refuse (s := start) idle (samePlan.trans plan)]
    exact runFor_refused refused 0
  | run ops ret =>
    have begun : step s = .next (beginOp i ops ret start) := by
      rw [accepted, plan, acceptPlan, if_pos (by exact idle)]
    obtain ⟨n, ends⟩ := runFor_of_progresses
      (exec_progresses (s := start) idle (samePlan.trans plan)) rfl (fun _ => rfl)
    exact ⟨n + 1, (runFor_next begun n).trans ends⟩

end Sys2Proof.Machine
end

section
/-! Every step keeps the invariant (spec/10_state.md R49): what it says of an operation with given
lines left, what each line does to that, and the steps of every agent. -/

namespace Sys2Proof.Machine

/-! ## The invariant, with the sequencer set apart -/

/-- The invariant of a machine that has not halted, with the lines `ops` left. -/
structure LineInv (ops : List MicroOp) (s : State) : Prop where
  memory   : Memory.wf s.pmem = true
  fatal    : s.fatal = false
  cause    : s.faultCause = 0
  handle   : s.qHandle.isSome = s.dmaEn
  disabled : s.dmaEn = false → s.pending = 0 ∧ s.queue = [] ∧ s.compl = []
  room     : s.queue.length ≤ s.cfg.queueDepth
  counts   : endsWell ops s.pending.toNat (s.queue.length + s.compl.length) s.busy s.wr s.dmaEn = true

/-- The invariant of a machine that has halted. -/
structure HaltInv (s : State) : Prop where
  memory   : Memory.wf s.pmem = true
  fatal    : s.fatal = true
  cause    : s.faultCause ≠ 0
  handle   : s.qHandle.isSome = s.dmaEn
  disabled : s.dmaEn = false → s.pending = 0 ∧ s.queue = [] ∧ s.compl = []
  room     : s.queue.length ≤ s.cfg.queueDepth

theorem Inv.lineInv {s : State} {ops : List MicroOp} (inv : Inv s)
    (left : linesLeft s.eng = some ops) : LineInv ops s := by
  obtain ⟨memory, halt, cause, handle, disabled, room, counts⟩ := inv
  have fatal : s.fatal = false := by
    rw [← Bool.not_eq_true, halt]
    intro eng
    rw [eng] at left
    cases left
  exact ⟨memory, fatal, cause.2 fatal, handle, disabled, room, counts ops left⟩

theorem LineInv.inv {s : State} {ops : List MicroOp} (inv : LineInv ops s)
    (left : linesLeft s.eng = some ops) : Inv s := by
  obtain ⟨memory, fatal, cause, handle, disabled, room, counts⟩ := inv
  have alive : s.eng ≠ .halt := by
    intro eng
    rw [eng] at left
    cases left
  refine ⟨memory, by simp [fatal, alive], by simp [fatal, cause], handle, disabled, room, ?_⟩
  intro todo h
  rw [left] at h
  cases h
  exact counts

theorem HaltInv.inv {s : State} (inv : HaltInv s) (eng : s.eng = .halt) : Inv s := by
  obtain ⟨memory, fatal, cause, handle, disabled, room⟩ := inv
  refine ⟨memory, by simp [fatal, eng], iff_of_false cause (by simp [fatal]), handle, disabled, room,
    ?_⟩
  intro todo h
  rw [eng] at h
  cases h

theorem Cause.code_ne_zero (c : Cause) : c.code ≠ 0 := by
  cases c <;> decide

theorem LineInv.raiseFatal {s : State} {ops : List MicroOp} (inv : LineInv ops s) (c : Cause) :
    HaltInv (raiseFatal c s) := by
  obtain ⟨memory, _, _, handle, disabled, room, _⟩ := inv
  exact ⟨memory, rfl, c.code_ne_zero, handle, disabled, room⟩

/-! ## What a line does to it -/

/-- Lines that end well from a busy bus end well from a free one. -/
theorem endsWell_free {ops : List MicroOp} {p l : Nat} {busy wr en : Bool}
    (h : endsWell ops p l busy wr en = true) : endsWell ops p l false wr en = true := by
  induction ops generalizing p l busy wr en with
  | nil =>
    simp only [endsWell, Bool.and_eq_true] at h ⊢
    obtain ⟨⟨⟨equal, _⟩, ends⟩, enabled⟩ := h
    exact ⟨⟨⟨equal, rfl⟩, ends⟩, enabled⟩
  | cons op ops ih =>
    cases op <;> simp only [endsWell, Bool.and_eq_true] at h ⊢
    case waitIdle | startTransfer => exact h
    case drain | queueTx | setPending | release => exact ⟨h.1, ih h.2⟩
    all_goals exact ih h

/-- A line whose wait is over either leaves the invariant for the lines after it or halts. -/
theorem LineInv.act {op : MicroOp} {ops : List MicroOp} {s t : State} (inv : LineInv (op :: ops) s)
    (free : op = .waitIdle → s.busy = false) (drained : op = .drain → s.pending = 0)
    (effect : LineEffect s op t) :
    (t.eng = s.eng ∧ LineInv ops t) ∨ (t.eng = .halt ∧ HaltInv t) := by
  obtain ⟨memory, fatal, cause, handle, disabled, room, counts⟩ := inv
  cases effect with
  | loadReg | loadPair | loadHalf | fetchPixel | loadPixel | setBitlen | startTransfer | driveByte
  | drivePixelByte | strobeLow | strobeHigh | clearNperf | writeSwap =>
    exact .inl ⟨rfl, memory, fatal, cause, handle, disabled, room, counts⟩
  | waitIdle =>
    refine .inl ⟨rfl, memory, fatal, cause, handle, disabled, room, ?_⟩
    rwa [free rfl]
  | drain =>
    have nothingLeft := drained rfl
    simp only [endsWell, Bool.and_eq_true, decide_eq_true_eq, nothingLeft] at counts
    refine .inl ⟨rfl, memory, fatal, cause, handle, disabled, room, ?_⟩
    rw [nothingLeft, ← counts.1]
    exact counts.2
  | copyCell =>
    exact .inl ⟨rfl, Memory.writeCell_wf _ _ _ memory, fatal, cause, handle, disabled, room, counts⟩
  | queueOk x d hasRoom =>
    simp only [endsWell, Bool.and_eq_true] at counts
    obtain ⟨enabled, counts⟩ := counts
    refine .inl ⟨rfl, memory, fatal, cause, handle, ?_, ?_, ?_⟩
    · intro off
      exact absurd (enabled.symm.trans off) (by decide)
    · simpa using hasRoom
    · simpa [Nat.add_right_comm] using counts
  | queueFault => exact .inr ⟨rfl, memory, rfl, Cause.code_ne_zero .queueFault, handle, disabled, room⟩
  | setPending n =>
    simp only [endsWell, Bool.and_eq_true, Bool.or_eq_true, decide_eq_true_eq] at counts
    refine .inl ⟨rfl, memory, fatal, cause, handle, ?_, room, counts.2⟩
    intro off
    have zero : n = 0 := counts.1.resolve_left (by simp [show s.dmaEn = false from off])
    exact ⟨zero, (disabled off).2⟩
  | acquireOk => exact .inl ⟨rfl, memory, fatal, cause, rfl, nofun, room, counts⟩
  | acquireFault => exact .inr ⟨rfl, memory, rfl, Cause.code_ne_zero .acquireFail, handle, disabled, room⟩
  | release =>
    simp only [endsWell, Bool.and_eq_true, decide_eq_true_eq] at counts
    obtain ⟨⟨none, empty⟩, counts⟩ := counts
    obtain ⟨noQueue, noCompl⟩ := Nat.add_eq_zero_iff.1 empty
    exact .inl ⟨rfl, memory, fatal, cause, rfl, fun _ => ⟨BitVec.eq_of_toNat_eq none,
      List.length_eq_zero_iff.1 noQueue, List.length_eq_zero_iff.1 noCompl⟩, room, counts⟩

/-- An event taken by a drain. -/
theorem LineInv.takeCompletion {ops : List MicroOp} {s : State} (inv : LineInv (.drain :: ops) s)
    (event : s.compl ≠ []) (left : s.pending ≠ 0) : LineInv (.drain :: ops) (takeCompletion s) := by
  obtain ⟨memory, fatal, cause, handle, disabled, room, counts⟩ := inv
  refine ⟨memory, fatal, cause, handle, fun off => absurd (disabled off).1 left, room, ?_⟩
  obtain ⟨c, rest, compl⟩ := List.exists_cons_of_ne_nil event
  have pos : s.pending.toNat = s.pending.toNat - 1 + 1 := by
    have nonzero : s.pending.toNat ≠ 0 := fun zero => left (BitVec.eq_of_toNat_eq zero)
    omega
  simp only [endsWell, Bool.and_eq_true, decide_eq_true_eq, compl, List.length_cons] at counts ⊢
  refine ⟨?_, counts.2⟩
  rw [takeCompletion_pending, pending_pred pos, takeCompletion_queue, takeCompletion_compl, compl,
    List.tail_cons]
  omega

/-! ## The steps of the agents -/

theorem sbuStep_keeps_inv {s t : State} (inv : Inv s) (h : sbuStep s = .next t) : Inv t := by
  obtain ⟨_, rfl⟩ | ⟨_, _, rfl⟩ := sbuStep_next h
  · exact inv
  · obtain ⟨memory, halt, cause, handle, disabled, room, counts⟩ := inv
    exact ⟨memory, halt, cause, handle, disabled, room,
      fun todo left => endsWell_free (counts todo left)⟩

theorem dmacStep_keeps_inv {s t : State} (inv : Inv s) (h : dmacStep s = .next t) : Inv t := by
  obtain ⟨_, rfl⟩ | ⟨x, q, ready, queue, _, rfl⟩ := dmacStep_next h
  · exact inv
  · obtain ⟨memory, halt, cause, handle, disabled, room, counts⟩ := inv
    obtain ⟨_, _, enabled, _⟩ := (dmacReady_iff s).1 ready
    rw [queue, List.length_cons] at room counts
    refine ⟨memory, halt, cause, handle, ?_, ?_, fun todo left => ?_⟩
    · intro off
      exact absurd (enabled.symm.trans off) (by decide)
    · exact Nat.le_of_succ_le room
    · have length : q.length + (s.compl ++ [x]).length = q.length + 1 + s.compl.length := by
        simp [Nat.add_comm, Nat.add_left_comm]
      have kept := counts todo left
      rw [← length] at kept
      exact kept

theorem engineStep_keeps_inv {s t : State} (inv : Inv s) (h : engineStep s = .next t) : Inv t := by
  cases eng : s.eng with
  | idle =>
    rw [engineStep_of_idle eng] at h
    cases h
    exact inv
  | halt =>
    rw [engineStep_of_halt eng] at h
    cases h
    exact inv
  | run k todo ret =>
    have lines : LineInv todo s := inv.lineInv (by rw [eng, linesLeft])
    cases todo with
    | nil =>
      simp only [engineStep, eng] at h
      cases h
      rw [complete_running (halted_of_run eng)]
      obtain ⟨memory, fatal, cause, handle, disabled, room, counts⟩ := lines
      exact LineInv.inv ⟨memory, fatal, cause, handle, disabled, room, counts⟩ rfl
    | cons op ops =>
      obtain ⟨_, rfl⟩ | ⟨free, rfl, left, rfl⟩ | ⟨u, free, drained, effect, rfl⟩ :=
        engineStep_next eng h
      · exact inv
      · have event : s.compl ≠ [] := by
          intro none
          simp [blocked, none] at free
          exact left free
        exact (lines.takeCompletion event left).inv (by rw [takeCompletion_eng, eng, linesLeft])
      · have idle : op = .waitIdle → s.busy = false := by
          rintro rfl
          exact free
        obtain ⟨engU, linesU⟩ | ⟨halt, haltU⟩ := lines.act idle drained (act_go effect)
        · rw [if_neg (by simp [halted, engU, eng])]
          obtain ⟨memory, fatal, cause, handle, disabled, room, counts⟩ := linesU
          exact LineInv.inv ⟨memory, fatal, cause, handle, disabled, room, counts⟩ rfl
        · rw [if_pos (by simp [halted, halt])]
          exact haltU.inv halt

theorem progressStep_keeps_inv {s t : State} (inv : Inv s) (h : progressStep s = .next t) :
    Inv t := by
  obtain h | h | h := progressStep_next h
  · exact sbuStep_keeps_inv inv h
  · exact dmacStep_keeps_inv inv h
  · exact engineStep_keeps_inv inv h

/-! ## The moves -/

/-- What the steps of an operation in progress keep, the operation keeps. -/
theorem Progresses.keeps {P : State → Prop}
    (kept : ∀ u v, P u → progressStep u = .next v → P v) {s t : State} {r : Result}
    (h : Progresses s r) (start : P s) (next : r = .next t) : P t := by
  induction h with
  | rest =>
    cases next
    exact start
  | step _ progress _ ih => exact ih (kept _ _ start progress) next
  | stop _ _ stops => exact absurd next (stops t)

theorem beginOp_keeps_inv {s : State} {i : Instr} {ops : List MicroOp} {ret : Option Bool}
    (inv : Inv s) (idle : s.eng = .idle) (plan : planOf i s = .run ops ret) :
    Inv (beginOp i ops ret s) := by
  have counts := plan_endsWell inv idle plan
  obtain ⟨memory, fatal, cause, handle, disabled, room, _⟩ :=
    inv.lineInv (ops := []) (by rw [idle, linesLeft])
  exact LineInv.inv ⟨memory, fatal, cause, handle, disabled, room, counts⟩ rfl

theorem exec_keeps_inv {i : Instr} {s t : State} (inv : Inv s) (h : exec i s = .next t) : Inv t := by
  by_cases idle : s.eng = .idle
  · cases plan : planOf i s with
    | refuse r =>
      rw [exec_of_refuse idle plan] at h
      cases h
    | run ops ret =>
      exact (exec_progresses idle plan).keeps (fun _ _ => progressStep_keeps_inv)
        (beginOp_keeps_inv inv idle plan) h
  · rw [exec_of_not_idle i idle] at h
    cases h
    exact inv

/-- The invariant says nothing of what is the host's, of `DC` and of the environment's plan. -/
theorem Inv.hostSide {s : State} (inv : Inv s) (d : Bool) (q : List Move) (p : List Word) (r : Word)
    (m : Pixel) (l : Level) :
    Inv { s with done := d, sched := q, port := p, rdata := r, mdata := m, dc := l } := by
  obtain ⟨memory, halt, cause, handle, disabled, room, counts⟩ := inv
  exact ⟨memory, halt, cause, handle, disabled, room, counts⟩

theorem takeIllegal_keeps_inv {s : State} (inv : Inv s) (idle : s.eng = .idle) :
    Inv (takeIllegal s) := by
  have lines := (inv.hostSide s.done s.sched s.port.tail s.rdata s.mdata s.dc).lineInv (ops := [])
    (by rw [idle, linesLeft])
  exact (lines.raiseFatal .illegalCmd).inv rfl

/-- All that taking a command can do. -/
theorem takeCommand_next {s t : State} (h : takeCommand s = .next t) :
    t = s ∨ (s.eng = .idle ∧ (∃ why, decode s.port = .illegal why) ∧ t = takeIllegal s)
      ∨ ∃ i rest, s.eng = .idle ∧ decode s.port = .instr i rest
          ∧ exec i { s with port := rest } = .next t := by
  by_cases idle : s.eng = .idle
  · cases decoded : decode s.port with
    | more =>
      simp only [takeCommand, idle, decoded, if_true] at h
      cases h
      exact .inl rfl
    | illegal why =>
      rw [takeCommand_of_illegal idle decoded] at h
      cases h
      exact .inr (.inl ⟨idle, ⟨why, rfl⟩, rfl⟩)
    | instr i rest =>
      rw [takeCommand_of_instr idle decoded] at h
      exact .inr (.inr ⟨i, rest, idle, rfl, h⟩)
  · rw [takeCommand_of_not_idle idle] at h
    cases h
    exact .inl rfl

theorem takeCommand_keeps_inv {s t : State} (inv : Inv s) (h : takeCommand s = .next t) : Inv t := by
  obtain rfl | ⟨idle, _, rfl⟩ | ⟨i, rest, _, _, h⟩ := takeCommand_next h
  · exact inv
  · exact takeIllegal_keeps_inv inv idle
  · exact exec_keeps_inv (inv.hostSide s.done s.sched rest s.rdata s.mdata s.dc) h

theorem resetFrom_inv {s : State} (memory : Memory.wf s.pmem = true) : Inv (resetFrom s) :=
  LineInv.inv (ops := [])
    ⟨memory, rfl, rfl, rfl, fun _ => ⟨rfl, rfl, rfl⟩, Nat.zero_le _, rfl⟩ rfl

theorem moveStep_keeps_inv {m : Move} {s t : State} (inv : Inv s) (h : moveStep m s = .next t) :
    Inv t := by
  cases m <;> simp only [moveStep] at h
  case command => exact takeCommand_keeps_inv inv h
  case engine => exact engineStep_keeps_inv inv h
  case sbu => exact sbuStep_keeps_inv inv h
  case dmac => exact dmacStep_keeps_inv inv h
  case accept =>
    obtain rfl | ⟨idle, _, rfl⟩ | ⟨i, rest, ops, ret, idle, _, plan, rfl⟩ := acceptCommand_next h
    · exact inv
    · exact takeIllegal_keeps_inv inv idle
    · have begun := beginOp_keeps_inv inv idle plan
      exact begun.hostSide false s.sched rest s.rdata s.mdata s.dc
  case reset =>
    cases h
    exact resetFrom_inv inv.memory
  case hostWrite a v =>
    split at h
    · rename_i written
      cases h
      obtain ⟨_, rfl⟩ := memWrite_some.1 written
      obtain ⟨memory, halt, cause, handle, disabled, room, counts⟩ := inv
      exact ⟨Memory.writeCell_wf _ _ _ memory, halt, cause, handle, disabled, room, counts⟩
    · cases h
  case hostWord | statusWrite =>
    cases h
    exact inv.hostSide _ _ _ _ _ _
  case hostRead | statusRead | outsideDc =>
    split at h <;> cases h
    exact inv.hostSide _ _ _ _ _ _

/-- All that the step with no move scheduled can do. -/
theorem defaultStep_next {s t : State} (h : defaultStep s = .next t) :
    sbuStep s = .next t ∨ dmacStep s = .next t ∨ takeCommand s = .next t
      ∨ progressStep s = .next t := by
  have rest : restStep s = .next t → sbuStep s = .next t ∨ dmacStep s = .next t := by
    intro h
    unfold restStep at h
    split at h
    · exact .inl h
    · exact .inr h
  unfold defaultStep at h
  split at h
  · split at h
    · exact (rest h).imp_right .inl
    · exact .inr (.inr (.inl h))
  · exact .inr (.inr (.inr h))
  · exact (rest h).imp_right .inl

theorem step_keeps_inv {s t : State} (inv : Inv s) (h : step s = .next t) : Inv t := by
  cases sched : s.sched with
  | nil =>
    rw [step_of_sched_nil sched] at h
    have start := inv.hostSide false s.sched s.port s.rdata s.mdata s.dc
    obtain h | h | h | h := defaultStep_next h
    · exact sbuStep_keeps_inv start h
    · exact dmacStep_keeps_inv start h
    · exact takeCommand_keeps_inv start h
    · exact progressStep_keeps_inv start h
  | cons m ms =>
    rw [step_of_sched_cons sched] at h
    exact moveStep_keeps_inv (inv.hostSide false ms s.port s.rdata s.mdata s.dc) h

/-- Settles O42: every agent's step keeps the invariant; an operation run in one step is its lines
executed one at a time, each of which does. -/
theorem everyStepKeepsInv : Obligations.EveryStepKeepsInv := by
  unfold Obligations.EveryStepKeepsInv
  intro s t
  exact step_keeps_inv

end Sys2Proof.Machine
end

section
/-! Every run comes to rest, so neither the SBU nor the DMAC waits for ever (spec/43_bus_agents.md
R224). The measure is lexicographic: the moves scheduled, the words issued, the lines left, and the
events, transactions and transfer still outstanding. -/

namespace Sys2Proof.Machine

/-- How many steps the sequencer has still to take. -/
def linesToGo (e : Eng) : Nat :=
  match e with
  | .idle => 0
  | .run _ todo _ => todo.length + 1
  | .halt => 0

/-- What the SBU, the DMAC and a drain have still to do. -/
def outstanding (s : State) : Nat := s.pending.toNat + s.queue.length + s.busy.toNat

/-- What is left of a run. -/
def rank (s : State) : ℕ ×ₗ ℕ ×ₗ ℕ ×ₗ ℕ :=
  toLex (s.sched.length, toLex (s.port.length, toLex (linesToGo s.eng, outstanding s)))

/-- Nothing is scheduled, the engine has nothing to do, and neither the SBU nor the DMAC is enabled. -/
structure AtRest (s : State) : Prop where
  sched : s.sched = []
  eng   : s.eng = .halt ∨ (s.eng = .idle ∧ decode s.port = .more)
  free  : s.busy = false
  dmac  : dmacReady s = false

/-! ## The last two components -/

/-- Fewer lines left, or as many and less outstanding. -/
def Shrinks (s t : State) : Prop :=
  linesToGo t.eng < linesToGo s.eng
    ∨ (linesToGo t.eng = linesToGo s.eng ∧ outstanding t < outstanding s)

theorem sbuStep_shrinks {s t : State} (busy : s.busy = true) (h : sbuStep s = .next t) :
    Shrinks s t := by
  obtain ⟨free, _⟩ | ⟨_, _, rfl⟩ := sbuStep_next h
  · exact absurd (busy.symm.trans free) (by decide)
  · exact .inr ⟨rfl, by simp [outstanding, busy]⟩

theorem dmacStep_shrinks {s t : State} (ready : dmacReady s = true) (h : dmacStep s = .next t) :
    Shrinks s t := by
  obtain ⟨idle, _⟩ | ⟨x, q, _, queue, _, rfl⟩ := dmacStep_next h
  · exact absurd (ready.symm.trans idle) (by decide)
  · exact .inr ⟨rfl, by simp [outstanding, queue]⟩

/-- A line executed, or an event taken. -/
theorem engineStep_shrinks {s t : State} {k : Nat} {op : MicroOp} {ops : List MicroOp}
    {ret : Option Bool} (eng : s.eng = .run k (op :: ops) ret) (free : blocked op s = false)
    (h : engineStep s = .next t) : Shrinks s t := by
  obtain ⟨waits, _⟩ | ⟨_, _, left, rfl⟩ | ⟨u, _, _, _, rfl⟩ := engineStep_next eng h
  · exact absurd (waits.symm.trans free) (by decide)
  · refine .inr ⟨rfl, ?_⟩
    have pos : s.pending.toNat = s.pending.toNat - 1 + 1 := by
      have nonzero : s.pending.toNat ≠ 0 := fun zero => left (BitVec.eq_of_toNat_eq zero)
      omega
    simp only [outstanding, takeCompletion_pending, pending_pred pos, takeCompletion_queue,
      takeCompletion_busy]
    omega
  · refine .inl ?_
    rw [eng]
    split
    · rename_i halt
      rw [show u.eng = .halt by simpa [halted] using halt]
      exact Nat.succ_pos _
    · exact Nat.lt_succ_self _

theorem progressStep_shrinks {s t : State} (running : Running s) (h : progressStep s = .next t) :
    Shrinks s t := by
  obtain ⟨k, todo, ret, eng⟩ := running
  cases todo with
  | nil =>
    simp only [progressStep, engineStep, eng] at h
    cases h
    refine .inl ?_
    rw [complete_running (halted_of_run eng), eng]
    exact Nat.succ_pos _
  | cons op ops =>
    by_cases wait : op = .waitIdle
    · subst wait
      rw [progressStep_waitIdle eng] at h
      split at h
      · rename_i busy
        exact sbuStep_shrinks busy h
      · rename_i free
        exact engineStep_shrinks eng (by simpa [blocked] using free) h
    · by_cases drain : op = .drain
      · subst drain
        rw [progressStep_drain eng] at h
        split at h
        · obtain ⟨busy, h⟩ | ⟨ready, h⟩ := helpDrain_next h
          · exact sbuStep_shrinks busy h
          · exact dmacStep_shrinks ready h
        · rename_i free
          exact engineStep_shrinks eng (by simpa using free) h
      · rw [progressStep_plain eng wait drain] at h
        have free : blocked op s = false := by
          cases op <;> first | exact absurd rfl wait | exact absurd rfl drain | rfl
        exact engineStep_shrinks eng free h

/-! ## The first two components -/

theorem sbuStep_port {s t : State} (h : sbuStep s = .next t) : t.port = s.port := by
  obtain ⟨_, rfl⟩ | ⟨_, _, rfl⟩ := sbuStep_next h <;> rfl

theorem dmacStep_port {s t : State} (h : dmacStep s = .next t) : t.port = s.port := by
  obtain ⟨_, rfl⟩ | ⟨_, _, _, _, _, rfl⟩ := dmacStep_next h <;> rfl

theorem complete_port (ret : Option Bool) (s : State) : (complete ret s).port = s.port := by
  unfold complete
  split <;> rfl

theorem act_port {op : MicroOp} {s t : State} (h : act op s = .go t) : t.port = s.port := by
  obtain ⟨_, _, port, _⟩ := act_keeps_inputs h
  exact port

theorem exec_port {i : Instr} {s t : State} (h : exec i s = .next t) : t.port = s.port :=
  exec_keeps (P := fun u => u.port = s.port) (fun _ _ hu hv => (sbuStep_port hv).trans hu)
    (fun _ _ hu hv => (dmacStep_port hv).trans hu) (fun _ hu => hu)
    (fun _ _ _ hu hv => (act_port hv).trans hu) (fun _ _ _ _ hu => hu)
    (fun ret u hu => (complete_port ret u).trans hu) rfl h

theorem progressStep_port {s t : State} (h : progressStep s = .next t) : t.port = s.port := by
  have engine : engineStep s = .next t → t.port = s.port := by
    intro h
    cases eng : s.eng with
    | idle => rw [engineStep_of_idle eng] at h; cases h; rfl
    | halt => rw [engineStep_of_halt eng] at h; cases h; rfl
    | run k todo ret =>
      cases todo with
      | nil =>
        simp only [engineStep, eng] at h
        cases h
        exact complete_port _ _
      | cons op ops =>
        obtain ⟨_, rfl⟩ | ⟨_, _, _, rfl⟩ | ⟨u, _, _, effect, rfl⟩ := engineStep_next eng h
        · rfl
        · rfl
        · have port := act_port effect
          split <;> exact port
  obtain h | h | h := progressStep_next h
  · exact sbuStep_port h
  · exact dmacStep_port h
  · exact engine h

theorem takeCommand_shortens {s t : State} (idle : s.eng = .idle) (port : decode s.port ≠ .more)
    (h : takeCommand s = .next t) : t.port.length < s.port.length := by
  cases decoded : decode s.port with
  | more => exact absurd decoded port
  | illegal why =>
    rw [takeCommand_of_illegal idle decoded] at h
    cases h
    cases words : s.port with
    | nil => simp [words, decode] at port
    | cons w ws => simp [takeIllegal, words]
  | instr i rest =>
    rw [takeCommand_of_instr idle decoded] at h
    have taken := encodeOfDecode _ _ _ decoded
    rw [exec_port h, taken]
    simp [encode]

theorem takeCommand_sched {s t : State} (h : takeCommand s = .next t) : t.sched = s.sched :=
  moveStep_sched (m := .command) h

/-! ## A run comes to rest -/

theorem rank_lt_of_shrinks {s t : State} (sched : t.sched = s.sched) (port : t.port = s.port)
    (h : Shrinks s t) : rank t < rank s := by
  simp only [rank, Prod.Lex.toLex_lt_toLex, sched, port, true_and, lt_irrefl, false_or]
  exact h

theorem restStep_shrinks {s t : State} (busy : ¬ (s.busy = false ∧ dmacReady s = false))
    (h : restStep s = .next t) : t.sched = s.sched ∧ t.port = s.port ∧ Shrinks s t := by
  unfold restStep at h
  split at h
  · rename_i transfer
    exact ⟨moveStep_sched (m := .sbu) h, sbuStep_port h, sbuStep_shrinks transfer h⟩
  · rename_i free
    have ready : dmacReady s = true := by
      rw [← Bool.not_eq_false]
      exact fun idle => busy ⟨by simpa using free, idle⟩
    exact ⟨moveStep_sched (m := .dmac) h, dmacStep_port h, dmacStep_shrinks ready h⟩

theorem defaultStep_rank {s t : State} (sched : s.sched = []) (busy : ¬ AtRest s)
    (h : defaultStep s = .next t) : rank t < rank s := by
  have resting : (s.eng = .halt ∨ (s.eng = .idle ∧ decode s.port = .more)) → restStep s = .next t →
      rank t < rank s := by
    intro eng h
    obtain ⟨sameSched, samePort, shrinks⟩ :=
      restStep_shrinks (fun ⟨free, dmac⟩ => busy ⟨sched, eng, free, dmac⟩) h
    exact rank_lt_of_shrinks sameSched samePort shrinks
  cases eng : s.eng with
  | halt =>
    simp only [defaultStep, eng] at h
    exact resting (.inl eng) h
  | run k todo ret =>
    simp only [defaultStep, eng] at h
    exact rank_lt_of_shrinks (progressStep_sched h) (progressStep_port h)
      (progressStep_shrinks ⟨k, todo, ret, eng⟩ h)
  | idle =>
    by_cases more : decode s.port = .more
    · simp only [defaultStep, eng, more, if_true] at h
      exact resting (.inr ⟨eng, more⟩) h
    · rw [defaultStep_of_port eng more] at h
      have shorter := takeCommand_shortens eng more h
      simp [rank, Prod.Lex.toLex_lt_toLex, takeCommand_sched h, shorter]

theorem step_rank {s t : State} (busy : ¬ AtRest s) (h : step s = .next t) : rank t < rank s := by
  cases sched : s.sched with
  | cons m ms =>
    rw [step_of_sched_cons sched] at h
    have left := moveStep_sched h
    simp [rank, Prod.Lex.toLex_lt_toLex, left, sched]
  | nil =>
    rw [step_of_sched_nil sched] at h
    exact defaultStep_rank (s := { s with done := false }) sched
      (fun ⟨noMove, eng, free, dmac⟩ => busy ⟨noMove, eng, free, dmac⟩) h

/-- Every run stops or comes to rest. -/
theorem comes_to_rest (s : State) : ∃ n, ∀ u, runFor n s = .next u → AtRest u := by
  induction s using WellFounded.induction (InvImage.wf rank wellFounded_lt) with
  | _ s ih =>
    by_cases rest : AtRest s
    · exact ⟨0, fun u same => by cases same; exact rest⟩
    · cases stepped : step s with
      | next t =>
        obtain ⟨n, hn⟩ := ih t (step_rank rest stepped)
        exact ⟨n + 1, fun u reached => hn u ((runFor_next stepped n).symm.trans reached)⟩
      | fault f =>
        exact ⟨1, fun u reached => by rw [runFor_fault stepped] at reached; cases reached⟩
      | refused r =>
        exact ⟨1, fun u reached => by rw [runFor_refused stepped] at reached; cases reached⟩

/-- Settles O59: a run at rest has no transfer in progress and no DMAC step enabled, and by induction
on what is left of it every run comes to rest. -/
theorem everyScheduleIsFair : Obligations.EveryScheduleIsFair := by
  unfold Obligations.EveryScheduleIsFair
  intro s t _
  obtain ⟨n, rests⟩ := comes_to_rest t
  exact ⟨⟨n, fun u reached => (rests u reached).free⟩,
    ⟨n, fun u reached => .inl (rests u reached).dmac⟩⟩

end Sys2Proof.Machine
end

section
/-! How an operation ends (spec/30_encoding.md R93). -/

namespace Sys2Proof.Machine

theorem complete_of_alive {ret : Option Bool} {s : State} (alive : s.eng ≠ .halt) :
    complete ret s = { s with result := ret.getD s.result, eng := .idle, done := true } :=
  complete_running (halted_eq_false.2 alive)

/-- While the lines of an operation taken at `s` are executed: the latch holds it, `DONE` is low, and
the engine has halted exactly if one of them raised the fatal fault. -/
def Underway (i : Instr) (s u : State) : Prop :=
  u.opr = latch i s.opr ∧ u.done = false
    ∧ ((u.eng ≠ .halt ∧ u.fatal = s.fatal ∧ u.faultCause = s.faultCause)
      ∨ (u.eng = .halt ∧ u.fatal = true ∧ (u.faultCause = 1 ∨ u.faultCause = 2)))

theorem act_keeps_underway {i : Instr} {s u v : State} {op : MicroOp} (h : Underway i s u)
    (effect : act op u = .go v) : Underway i s v := by
  obtain ⟨opr, done, ends⟩ := h
  cases act_go effect with
  | queueFault => exact ⟨opr, done, .inr ⟨rfl, rfl, .inr rfl⟩⟩
  | acquireFault => exact ⟨opr, done, .inr ⟨rfl, rfl, .inl rfl⟩⟩
  | _ => exact ⟨opr, done, ends⟩

/-- Settles O40: every line keeps what is known of an operation underway, and completing it needs an
engine that has not halted. -/
theorem operationCompletesOrHalts : Obligations.OperationCompletesOrHalts := by
  unfold Obligations.OperationCompletesOrHalts
  intro i s t idle h
  rw [exec_eq_perform] at h
  obtain ⟨ops, ret, u, _, lines, rfl⟩ := perform_next idle h
  have start : Underway i s (beginOp i ops ret s) := ⟨rfl, rfl, .inl ⟨nofun, rfl, rfl⟩⟩
  have underway : Underway i s u := by
    refine runLines_keeps (P := Underway i s) ?sbu ?dmac (fun _ hu => hu) ops
      (fun op _ a b ha effect => act_keeps_underway ha effect) start lines
    case sbu =>
      intro a b ha hb
      obtain ⟨_, rfl⟩ | ⟨_, _, rfl⟩ := sbuStep_next hb <;> exact ha
    case dmac =>
      intro a b ha hb
      obtain ⟨_, rfl⟩ | ⟨_, _, _, _, _, rfl⟩ := dmacStep_next hb <;> exact ha
  obtain ⟨opr, done, ⟨alive, fatal, cause⟩ | ⟨halt, fatal, cause⟩⟩ := underway
  · rw [complete_of_alive alive]
    exact ⟨opr, .inl ⟨rfl, rfl, fatal, cause⟩⟩
  · rw [complete_halted (by simp [halted, halt])]
    exact ⟨opr, .inr ⟨halt, done, fatal, cause⟩⟩

end Sys2Proof.Machine
end

section
/-! What an operation leaves unchanged (spec/10_state.md sections 1 to 7): the lines grouped by the
state they own. -/

namespace Sys2Proof.Machine

/-! ## Kinds of lines -/

/-- The lines grouped by the state they own; a wait for the serial bus counts with its registers, and
the two counts of the DMA engine with the drain. -/
inductive LineKind where
  | serial | fetch | parallel | drain | submit | copy | acquire | release | swap
  deriving DecidableEq

def MicroOp.kind : MicroOp → LineKind
  | .waitIdle => .serial
  | .loadReg _ _ => .serial
  | .loadPair _ _ _ => .serial
  | .loadHalf _ _ _ => .serial
  | .loadPixel _ => .serial
  | .setBitlen _ => .serial
  | .startTransfer => .serial
  | .fetchPixel _ => .fetch
  | .driveByte _ => .parallel
  | .drivePixelByte _ _ => .parallel
  | .strobeLow => .parallel
  | .strobeHigh => .parallel
  | .drain => .drain
  | .clearNperf => .drain
  | .setPending _ => .drain
  | .queueTx _ => .submit
  | .copyCell _ _ _ => .copy
  | .acquire => .acquire
  | .release => .release
  | .writeSwap _ => .swap

section
variable {op : MicroOp} {s t : State}

theorem LineEffect.swap (h : LineEffect s op t) (k : op.kind ≠ .swap) : t.swap = s.swap := by
  cases h <;> first | rfl | exact absurd rfl k

theorem LineEffect.handle (h : LineEffect s op t) (k : op.kind ≠ .acquire)
    (k' : op.kind ≠ .release) : t.dmaEn = s.dmaEn ∧ t.qHandle = s.qHandle := by
  cases h <;> first | exact ⟨rfl, rfl⟩ | exact absurd rfl k | exact absurd rfl k'

theorem LineEffect.acqIn (h : LineEffect s op t) (k : op.kind ≠ .acquire) : t.acqIn = s.acqIn := by
  cases h <;> first | rfl | exact absurd rfl k

theorem LineEffect.qIn (h : LineEffect s op t) (k : op.kind ≠ .submit) : t.qIn = s.qIn := by
  cases h <;> first | rfl | exact absurd rfl k

theorem LineEffect.fault (h : LineEffect s op t) (k : op.kind ≠ .acquire)
    (k' : op.kind ≠ .submit) :
    t.draws = s.draws ∧ t.fatal = s.fatal ∧ t.faultCause = s.faultCause := by
  cases h <;> first | exact ⟨rfl, rfl, rfl⟩ | exact absurd rfl k | exact absurd rfl k'

theorem LineEffect.serial (h : LineEffect s op t) (k : op.kind ≠ .serial) :
    t.w = s.w ∧ t.bitlen = s.bitlen ∧ t.xlog = s.xlog ∧ t.busy = s.busy := by
  cases h <;> first | exact ⟨rfl, rfl, rfl, rfl⟩ | exact absurd rfl k

theorem LineEffect.parallel (h : LineEffect s op t) (k : op.kind ≠ .parallel) :
    t.data = s.data ∧ t.wr = s.wr := by
  cases h <;> first | exact ⟨rfl, rfl⟩ | exact absurd rfl k

theorem LineEffect.loc (h : LineEffect s op t) (k : op.kind ≠ .fetch) : t.loc = s.loc := by
  cases h <;> first | rfl | exact absurd rfl k

theorem LineEffect.counts (h : LineEffect s op t) (k : op.kind ≠ .drain) (k' : op.kind ≠ .submit) :
    t.dc = s.dc ∧ t.pending = s.pending ∧ t.queue = s.queue ∧ t.compl = s.compl
      ∧ t.nperf = s.nperf := by
  cases h <;>
    first | exact ⟨rfl, rfl, rfl, rfl, rfl⟩ | exact absurd rfl k | exact absurd rfl k'

theorem LineEffect.inputs (h : LineEffect s op t) :
    t.cfg = s.cfg ∧ t.port = s.port ∧ t.sched = s.sched ∧ t.rdata = s.rdata
      ∧ t.mdata = s.mdata := by
  cases h <;> exact ⟨rfl, rfl, rfl, rfl, rfl⟩

theorem LineEffect.wire (h : LineEffect s op t) (k : op.kind ≠ .parallel) : t.wire = s.wire := by
  cases h <;> first | rfl | exact absurd rfl k

theorem LineEffect.memory (h : LineEffect s op t) (k : op.kind ≠ .copy) : t.pmem = s.pmem := by
  cases h <;> first | rfl | exact absurd rfl k

end

/-- Fields that neither the SBU's and the DMAC's steps nor the taking of an event write. -/
structure AgentsFrame (s t : State) : Prop where
  swap     : t.swap = s.swap
  handle   : t.dmaEn = s.dmaEn ∧ t.qHandle = s.qHandle
  acqIn    : t.acqIn = s.acqIn
  qIn      : t.qIn = s.qIn
  fault    : t.draws = s.draws ∧ t.fatal = s.fatal ∧ t.faultCause = s.faultCause
  serial   : t.w = s.w ∧ t.bitlen = s.bitlen ∧ t.xlog = s.xlog
  free     : s.busy = false → t.busy = false
  parallel : t.data = s.data ∧ t.wr = s.wr
  loc      : t.loc = s.loc
  memory   : t.pmem = s.pmem
  inputs   : t.cfg = s.cfg ∧ t.port = s.port ∧ t.sched = s.sched ∧ t.rdata = s.rdata
    ∧ t.mdata = s.mdata

theorem settle_agentsFrame {op : MicroOp} {s t : State} (h : settle op s = .next t) :
    AgentsFrame s t := by
  have start : AgentsFrame s s :=
    ⟨rfl, ⟨rfl, rfl⟩, rfl, rfl, ⟨rfl, rfl, rfl⟩, ⟨rfl, rfl, rfl⟩, id, ⟨rfl, rfl⟩, rfl, rfl,
      rfl, rfl, rfl, rfl, rfl⟩
  refine settle_keeps (P := AgentsFrame s) ?sbu ?dmac ?event start h
  case sbu =>
    intro u v hu hv
    obtain ⟨_, rfl⟩ | ⟨_, _, rfl⟩ := sbuStep_next hv
    · exact hu
    · obtain ⟨h1, h2, h3, h4, h5, h6, _, h8, h9, h10, h11⟩ := hu
      exact ⟨h1, h2, h3, h4, h5, h6, fun _ => rfl, h8, h9, h10, h11⟩
  case dmac =>
    intro u v hu hv
    obtain ⟨_, rfl⟩ | ⟨_, _, _, _, _, rfl⟩ := dmacStep_next hv
    · exact hu
    · obtain ⟨h1, h2, h3, h4, h5, h6, h7, h8, h9, h10, h11⟩ := hu
      exact ⟨h1, h2, h3, h4, h5, h6, h7, h8, h9, h10, h11⟩
  case event =>
    intro u hu
    obtain ⟨h1, h2, h3, h4, h5, h6, h7, h8, h9, h10, h11⟩ := hu
    exact ⟨h1, h2, h3, h4, h5, h6, h7, h8, h9, h10, h11⟩

/-- Only two lines wait. -/
theorem settle_plain {op : MicroOp} (s : State) (noWait : op ≠ .waitIdle) (noDrain : op ≠ .drain) :
    settle op s = .next s := by
  cases op <;> first | rfl | exact absurd rfl noWait | exact absurd rfl noDrain

theorem settle_of_no_wait {op : MicroOp} {s t : State} (noWait : op.kind ≠ .serial)
    (noDrain : op.kind ≠ .drain) (h : settle op s = .next t) : t = s := by
  rw [settle_plain s (fun e => noWait (by rw [e]; rfl)) (fun e => noDrain (by rw [e]; rfl))] at h
  cases h
  rfl

theorem settle_counts {op : MicroOp} {s t : State} (noDrain : op.kind ≠ .drain)
    (h : settle op s = .next t) :
    t.dc = s.dc ∧ t.pending = s.pending ∧ t.queue = s.queue ∧ t.compl = s.compl
      ∧ t.nperf = s.nperf := by
  by_cases wait : op = .waitIdle
  · rw [wait] at h
    obtain ⟨_, rfl⟩ | ⟨_, _, rfl⟩ := sbuStep_next h <;> exact ⟨rfl, rfl, rfl, rfl, rfl⟩
  · rw [settle_plain s wait (fun e => noDrain (by rw [e]; rfl))] at h
    cases h
    exact ⟨rfl, rfl, rfl, rfl, rfl⟩

/-! ## What lines leave alone -/

/-- No line of the list is of kind `k`. -/
def Avoids (ops : List MicroOp) (k : LineKind) : Prop := ∀ op ∈ ops, op.kind ≠ k

/-- What lines executed from `s` have left alone at `t`, by the kinds that do not occur. -/
structure LinesFrame (ops : List MicroOp) (s t : State) : Prop where
  swap     : Avoids ops .swap → t.swap = s.swap
  handle   : Avoids ops .acquire → Avoids ops .release →
    t.dmaEn = s.dmaEn ∧ t.qHandle = s.qHandle
  acqIn    : Avoids ops .acquire → t.acqIn = s.acqIn
  qIn      : Avoids ops .submit → t.qIn = s.qIn
  fault    : Avoids ops .acquire → Avoids ops .submit →
    t.draws = s.draws ∧ t.fatal = s.fatal ∧ t.faultCause = s.faultCause
  serial   : Avoids ops .serial → t.w = s.w ∧ t.bitlen = s.bitlen ∧ t.xlog = s.xlog
  free     : Avoids ops .serial → s.busy = false → t.busy = false
  parallel : Avoids ops .parallel → t.data = s.data ∧ t.wr = s.wr
  loc      : Avoids ops .fetch → t.loc = s.loc
  counts   : Avoids ops .drain → Avoids ops .submit →
    t.dc = s.dc ∧ t.pending = s.pending ∧ t.queue = s.queue ∧ t.compl = s.compl
      ∧ t.nperf = s.nperf
  wire     : Avoids ops .serial → Avoids ops .parallel → Avoids ops .drain → t.wire = s.wire
  memory   : Avoids ops .copy → t.pmem = s.pmem
  inputs   : t.cfg = s.cfg ∧ t.port = s.port ∧ t.sched = s.sched ∧ t.rdata = s.rdata
    ∧ t.mdata = s.mdata

theorem LinesFrame.refl (ops : List MicroOp) (s : State) : LinesFrame ops s s := by
  constructor <;> simp +contextual

theorem LinesFrame.trans {ops : List MicroOp} {s t u : State} (h : LinesFrame ops s t)
    (h' : LinesFrame ops t u) : LinesFrame ops s u := by
  obtain ⟨a1, a2, a3, a4, a5, a6, a7, a8, a9, a10, a11, a12, a13⟩ := h
  obtain ⟨b1, b2, b3, b4, b5, b6, b7, b8, b9, b10, b11, b12, b13⟩ := h'
  constructor <;> grind

/-- The wait of one line. -/
theorem settle_frame {ops : List MicroOp} {op : MicroOp} {s t : State} (mem : op ∈ ops)
    (h : settle op s = .next t) : LinesFrame ops s t := by
  have frame := settle_agentsFrame h
  refine ⟨fun _ => frame.swap, fun _ _ => frame.handle, fun _ => frame.acqIn, fun _ => frame.qIn,
    fun _ _ => frame.fault, fun _ => frame.serial, fun _ => frame.free, fun _ => frame.parallel,
    fun _ => frame.loc, fun noDrain _ => settle_counts (noDrain op mem) h, fun noWait _ noDrain => ?_,
    fun _ => frame.memory, frame.inputs⟩
  rw [settle_of_no_wait (noWait op mem) (noDrain op mem) h]

/-- The effect of one line. -/
theorem act_frame {ops : List MicroOp} {op : MicroOp} {s t : State} (mem : op ∈ ops)
    (h : act op s = .go t) : LinesFrame ops s t := by
  have effect := act_go h
  exact
    { swap := fun k => effect.swap (k op mem)
      handle := fun k k' => effect.handle (k op mem) (k' op mem)
      acqIn := fun k => effect.acqIn (k op mem)
      qIn := fun k => effect.qIn (k op mem)
      fault := fun k k' => effect.fault (k op mem) (k' op mem)
      serial := fun k => have ⟨w, bitlen, xlog, _⟩ := effect.serial (k op mem); ⟨w, bitlen, xlog⟩
      free := fun k free => by rw [(effect.serial (k op mem)).2.2.2, free]
      parallel := fun k => effect.parallel (k op mem)
      loc := fun k => effect.loc (k op mem)
      counts := fun k k' => effect.counts (k op mem) (k' op mem)
      wire := fun _ k _ => effect.wire (k op mem)
      memory := fun k => effect.memory (k op mem)
      inputs := effect.inputs }

theorem runLine_frame {ops : List MicroOp} {op : MicroOp} {s t : State} (mem : op ∈ ops)
    (h : runLine op s = .go t) : LinesFrame ops s t := by
  by_cases stopped : halted s = true
  · have : runLine op s = .go s := by simp [runLine, stopped]
    cases h.symm.trans this
    exact .refl ops s
  · rw [runLine_eq (by simpa using stopped)] at h
    split at h
    case h_1 u wait => exact (settle_frame mem wait).trans (act_frame mem h)
    all_goals cases h

theorem runLines_frame {ops : List MicroOp} (todo : List MicroOp) (sub : todo ⊆ ops) {s t : State}
    (h : runLines todo s = .go t) : LinesFrame ops s t := by
  induction todo generalizing s with
  | nil => cases h; exact .refl ops _
  | cons op todo ih =>
    rw [runLines_cons] at h
    split at h
    case h_1 u line =>
      exact (runLine_frame (sub (by simp)) line).trans (ih (fun _ m => sub (by simp [m])) h)
    all_goals cases h

/-! ## The kinds of lines of each operation -/

/-- The kinds of lines an operation may have. -/
def planKinds (i : Instr) (mode : BusMode) : List LineKind :=
  match i with
  | .pushBlock _ _ | .pushPixels _ _ | .pushSwapPixels _ _ =>
    match mode with
    | .serial => [.serial, .fetch]
    | .parallel => [.fetch, .parallel]
  | .setSwap _ => [.swap]
  | .initDma => [.acquire]
  | .deinitDma => [.drain, .release]
  | .dmaBusy | .dmaWait => [.drain]
  | .pushPixelsDma _ _ => [.drain, .submit]
  | .pushImageDma .. => [.drain, .copy, .submit]

/-- All lines are of the kinds given. -/
def OnlyKinds (kinds : List LineKind) (ops : List MicroOp) : Prop := ∀ op ∈ ops, op.kind ∈ kinds

section
variable {kinds : List LineKind} {a b : List MicroOp}

@[simp] theorem onlyKinds_nil : OnlyKinds kinds [] := by simp [OnlyKinds]

@[simp] theorem onlyKinds_cons {op : MicroOp} :
    OnlyKinds kinds (op :: a) ↔ op.kind ∈ kinds ∧ OnlyKinds kinds a := by simp [OnlyKinds]

@[simp] theorem onlyKinds_append :
    OnlyKinds kinds (a ++ b) ↔ OnlyKinds kinds a ∧ OnlyKinds kinds b := by
  simp [OnlyKinds, or_imp, forall_and]

@[simp] theorem onlyKinds_map {α : Type} (l : List α) (f : α → MicroOp) :
    OnlyKinds kinds (l.map f) ↔ ∀ x ∈ l, (f x).kind ∈ kinds := by simp [OnlyKinds]

@[simp] theorem onlyKinds_flatMap {α : Type} (l : List α) (f : α → List MicroOp) :
    OnlyKinds kinds (l.flatMap f) ↔ ∀ x ∈ l, OnlyKinds kinds (f x) := by
  simp only [OnlyKinds, List.mem_flatMap]
  grind

theorem OnlyKinds.repeated (only : OnlyKinds kinds a) (n : Nat) :
    OnlyKinds kinds (List.replicate n a).flatten := by
  intro op mem
  obtain ⟨l, copy, mem⟩ := List.mem_flatten.1 mem
  exact only op (List.eq_of_mem_replicate copy ▸ mem)

@[simp] theorem onlyKinds_ite {p : Prop} [Decidable p] :
    OnlyKinds kinds (if p then a else b) ↔ (p → OnlyKinds kinds a) ∧ (¬ p → OnlyKinds kinds b) := by
  split <;> simp [*]

end

theorem batchOps_kinds (a k : Nat) (sw : Bool) :
    OnlyKinds [.serial, .fetch] (batchOps a k sw) := by
  simp [batchOps, batchLoadOps, MicroOp.kind]

theorem pushSeqOps_kinds (src len : Word) (c : Params) (a n : Nat) (sw : Bool) :
    OnlyKinds (planKinds (.pushPixels src len) c.busMode) (pushSeqOps c a n sw) := by
  simp only [pushSeqOps]
  split
  case h_1 mode _ =>
    simp [mode, seqSerial565Ops, batchOps_kinds, planKinds]
  case h_2 mode _ => simp [mode, seqSerial666Ops, planKinds, MicroOp.kind]
  case h_3 mode => simp [mode, seqParallelOps, planKinds, MicroOp.kind]

theorem blockSerialOps_kinds (c : Params) (color : Pixel) (n : Nat) :
    OnlyKinds [.serial, .fetch] (blockSerialOps c color n) := by
  have transfer (v : BitVec 9) : OnlyKinds [.serial, .fetch] (transferOps v) := by
    simp [transferOps, MicroOp.kind]
  have loads : OnlyKinds [.serial, .fetch] (blockLoadOps c color) := by
    simp only [blockLoadOps]
    split <;> simp [MicroOp.kind]
  simp [blockSerialOps, loads, transfer, (transfer _).repeated, MicroOp.kind]

theorem blockParallelOps_kinds (c : Params) (color : Pixel) (n : Nat) :
    OnlyKinds [.fetch, .parallel] (blockParallelOps c color n) := by
  refine OnlyKinds.repeated ?_ n
  simp [parWriteOps, MicroOp.kind]

theorem windowOps_kinds (c : Params) (k : Clipped) (img buf w h : Nat) (sw : Bool) :
    OnlyKinds [.drain, .copy, .submit] (windowOps c k img buf w h sw) := by
  simp [windowOps, stageOps, stageClippedOps, stageWholeOps, windowTx, MicroOp.kind]

theorem planPushSeq_kinds {src len : Word} {sw : Bool} {s : State} {ops : List MicroOp}
    {ret : Option Bool} (plan : planPushSeq src len sw s = .run ops ret) :
    OnlyKinds (planKinds (.pushPixels src len) s.cfg.busMode) ops := by
  simp only [planPushSeq, Plan.noOp] at plan
  split at plan
  · cases plan; simp
  split at plan <;> cases plan
  exact pushSeqOps_kinds _ _ _ _ _ _

theorem planPushBlock_kinds {color : Pixel} {count : Word} {s : State} {ops : List MicroOp}
    {ret : Option Bool} (plan : planPushBlock color count s = .run ops ret) :
    OnlyKinds (planKinds (.pushBlock color count) s.cfg.busMode) ops := by
  simp only [planPushBlock, Plan.noOp] at plan
  split at plan
  · cases plan; simp
  split at plan
  · cases plan
  split at plan <;> cases plan
  case h_1 mode => simpa only [planKinds, mode] using blockSerialOps_kinds _ _ _
  case h_2 mode => simpa only [planKinds, mode] using blockParallelOps_kinds _ _ _

theorem planOf_kinds {i : Instr} {s : State} {ops : List MicroOp} {ret : Option Bool}
    (plan : planOf i s = .run ops ret) : OnlyKinds (planKinds i s.cfg.busMode) ops := by
  cases i
  case pushBlock => exact planPushBlock_kinds plan
  case pushPixels => exact planPushSeq_kinds plan
  case pushSwapPixels => exact planPushSeq_kinds plan
  case setSwap => cases plan; simp [planKinds, MicroOp.kind]
  case initDma =>
    simp only [planOf, planInitDma] at plan
    split at plan <;> cases plan <;> simp [planKinds, MicroOp.kind]
  case deinitDma =>
    simp only [planOf, planDeinitDma, Plan.noOp] at plan
    split at plan <;> cases plan <;> simp [planKinds, MicroOp.kind]
  case dmaBusy => cases plan; simp [planKinds, MicroOp.kind]
  case dmaWait => cases plan; simp [planKinds, MicroOp.kind]
  case pushPixelsDma =>
    simp only [planOf, planPushPixelsDma, Plan.noOp] at plan
    split at plan <;> [skip; split at plan] <;> cases plan <;> simp [planKinds, MicroOp.kind]
  case pushImageDma =>
    simp only [planOf, planPushImageDma, Plan.noOp] at plan
    (repeat' split at plan) <;> cases plan <;> simp [planKinds, windowOps_kinds]

theorem planOf_ret {i : Instr} {s : State} {ops : List MicroOp} {ret : Option Bool}
    (plan : planOf i s = .run ops ret) (init : i ≠ .initDma) (busy : i ≠ .dmaBusy) : ret = none := by
  cases i <;> simp only [planOf, planPushBlock, planPushPixels, planPushSwapPixels, planPushSeq,
    planSetSwap, planDeinitDma, planDmaWait, planPushPixelsDma, planPushImageDma, Plan.noOp] at plan
  all_goals grind

theorem OnlyKinds.avoids {kinds : List LineKind} {ops : List MicroOp} {k : LineKind}
    (only : OnlyKinds kinds ops) (absent : k ∉ kinds) : Avoids ops k :=
  fun op mem e => absent (e ▸ only op mem)

/-- Which operations have lines of a kind. -/
def Owner (i : Instr) (mode : BusMode) : LineKind → Prop
  | .serial => isSyncPush i = true ∧ mode = .serial
  | .fetch => isSyncPush i = true
  | .parallel => isSyncPush i = true ∧ mode = .parallel
  | .drain => isSyncPush i = false ∧ (∀ v, i ≠ .setSwap v) ∧ i ≠ .initDma
  | .submit => isSubmit i = true
  | .copy => ∃ hasStg x y w h img stg, i = .pushImageDma hasStg x y w h img stg
  | .acquire => i = .initDma
  | .release => i = .deinitDma
  | .swap => ∃ v, i = .setSwap v

theorem owner_of_mem_planKinds {i : Instr} {mode : BusMode} {k : LineKind}
    (mem : k ∈ planKinds i mode) : Owner i mode k := by
  cases i <;> cases mode <;> simp [planKinds] at mem <;> (obtain rfl | rfl | rfl := mem) <;>
    simp [Owner, isSyncPush, isSubmit]

/-! ## The frame of an operation -/

/-- The latch, the end of the pulse and the completion are in no line's frame. -/
theorem linesFrame_complete {i : Instr} {ops : List MicroOp} {ret : Option Bool} {s u : State}
    (lines : runLines ops (beginOp i ops ret s) = .go u) : LinesFrame ops s (complete ret u) := by
  have frame := runLines_frame ops (List.Subset.refl _) lines
  unfold complete
  split <;>
    exact ⟨frame.swap, frame.handle, frame.acqIn, frame.qIn, frame.fault, frame.serial, frame.free,
      frame.parallel, frame.loc, frame.counts, frame.wire, frame.memory, frame.inputs⟩

theorem runLines_result {ops : List MicroOp} {s t : State} (h : runLines ops s = .go t) :
    t.result = s.result := by
  refine runLines_keeps (P := fun u => u.result = s.result) ?sbu ?dmac (fun _ hu => hu) ops
    (fun op _ a b ha effect => (act_keeps_frame effect).2.2.1.trans ha) rfl h
  case sbu =>
    intro a b ha hb
    obtain ⟨_, rfl⟩ | ⟨_, _, rfl⟩ := sbuStep_next hb <;> exact ha
  case dmac =>
    intro a b ha hb
    obtain ⟨_, rfl⟩ | ⟨_, _, _, _, _, rfl⟩ := dmacStep_next hb <;> exact ha

/-- Settles O41: what the lines of an operation leave alone, by the kinds of lines it has. -/
theorem operationsWriteOnlyTheirOwnState : Obligations.OperationsWriteOnlyTheirOwnState := by
  unfold Obligations.OperationsWriteOnlyTheirOwnState
  intro i s t inv h
  by_cases idle : s.eng = .idle
  case neg =>
    rw [exec_of_not_idle i idle] at h
    cases h
    simp
  rw [exec_eq_perform] at h
  obtain ⟨ops, ret, u, plan, lines, ended⟩ := perform_next idle h
  have frame : LinesFrame ops s t := ended ▸ linesFrame_complete lines
  have free : s.busy = false := (inv.idle idle).2.2.1
  have result (init : i ≠ .initDma) (busy : i ≠ .dmaBusy) : t.result = s.result := by
    rw [ended, planOf_ret plan init busy, complete]
    have kept : u.result = s.result := runLines_result (s := beginOp i ops ret s) lines
    split <;> exact kept
  have avoids {k : LineKind} (other : ¬ Owner i s.cfg.busMode k) : Avoids ops k :=
    (planOf_kinds plan).avoids fun mem => other (owner_of_mem_planKinds mem)
  obtain ⟨cfg, port, sched, rdata, mdata⟩ := frame.inputs
  refine ⟨cfg, port, sched, rdata, mdata, ?swap, result, ?handle, ?acqIn, ?submit, ?bus, ?counts,
    ?wire, ?parallel, ?serial, ?memory⟩
  case swap => exact fun other => frame.swap (avoids (by simpa [Owner] using other))
  case handle => exact fun init deinit => frame.handle (avoids init) (avoids deinit)
  case acqIn => exact fun init => frame.acqIn (avoids init)
  case submit =>
    intro other
    have submit := avoids (k := .submit) (by simp [Owner, other])
    exact ⟨frame.qIn submit, fun init => frame.fault (avoids init) submit⟩
  case bus =>
    intro other
    have serial := avoids (k := .serial) (by simp [Owner, other])
    obtain ⟨w, bitlen, xlog⟩ := frame.serial serial
    obtain ⟨data, wr⟩ := frame.parallel (avoids (by simp [Owner, other]))
    exact ⟨w, bitlen, data, wr, (frame.free serial free).trans free.symm, xlog,
      frame.loc (avoids (by simp [Owner, other]))⟩
  case counts =>
    rintro (sync | ⟨v, rfl⟩ | rfl)
    · have submit : isSubmit i = false := by cases i <;> simp_all [isSyncPush, isSubmit]
      exact frame.counts (avoids (by simp [Owner, sync])) (avoids (by simp [Owner, submit]))
    · exact frame.counts (avoids (by simp [Owner])) (avoids (by simp [Owner, isSubmit]))
    · exact frame.counts (avoids (by simp [Owner])) (avoids (by simp [Owner, isSubmit]))
  case wire =>
    rintro (⟨v, rfl⟩ | rfl) <;>
      exact frame.wire (avoids (by simp [Owner, isSyncPush])) (avoids (by simp [Owner, isSyncPush]))
        (avoids (by simp [Owner]))
  case parallel =>
    intro mode
    have serial := avoids (k := .serial) (by simp [Owner, mode])
    obtain ⟨w, bitlen, xlog⟩ := frame.serial serial
    exact ⟨w, bitlen, (frame.free serial free).trans free.symm, xlog⟩
  case serial => exact fun mode => frame.parallel (avoids (by simp [Owner, mode]))
  case memory =>
    intro other a
    rw [frame.memory (avoids (by simpa [Owner] using other))]

end Sys2Proof.Machine
end

section
/-! Under the launch premises no fault is recorded but that of an illegal header
(spec/70_reset_and_hazards.md R280). -/

namespace Sys2Proof.Machine

/-! ## Along a run -/

/-- Every answer listed is ok. -/
def ListedOk (s : State) : Prop := (∀ b ∈ s.acqIn, b = true) ∧ ∀ b ∈ s.qIn, b = true

/-- A sample has been taken beyond the lists, or no answer was a fault. -/
def NoBadAnswer (d : Nat) (s : State) : Prop :=
  d < s.draws ∨ (s.draws = d ∧ (s.fatal = false ∨ s.faultCause = 3) ∧ ListedOk s)

/-- One sample of a list whose answers are ok: a free value, or a listed ok answer. -/
theorem sample_of_listed_ok {b : Bool} {l : List Bool} {n m : Nat} (ok : ∀ x ∈ l, x = true)
    (sample : (l = [] ∧ m = n + 1) ∨ (l = b :: l.tail ∧ m = n)) :
    (l = [] ∧ m = n + 1) ∨ (b = true ∧ m = n ∧ ∀ x ∈ l.tail, x = true) := by
  obtain drawn | ⟨listed, same⟩ := sample
  · exact .inl drawn
  · exact .inr ⟨ok b (listed ▸ List.mem_cons_self), same, fun x mem => ok x (List.mem_of_mem_tail mem)⟩

theorem act_draws_le {op : MicroOp} {s t : State} (effect : act op s = .go t) :
    s.draws ≤ t.draws := by
  cases act_go effect with
  | queueOk x n _ answer | queueFault x n answer | acquireOk n answer | acquireFault n answer =>
    obtain ⟨_, rfl⟩ | ⟨_, rfl⟩ := answer <;> simp [appendTx, raiseFatal]
  | _ => exact Nat.le_refl _

/-- An answer that is a fault is never a listed one, so it is drawn. -/
theorem act_keeps_noBadAnswer {d : Nat} {op : MicroOp} {s t : State} (start : NoBadAnswer d s)
    (effect : act op s = .go t) : NoBadAnswer d t := by
  obtain drawn | ⟨draws, noFault, acqOk, qOk⟩ := start
  · exact .inl (Nat.lt_of_lt_of_le drawn (act_draws_le effect))
  cases act_go effect with
  | queueOk x n _ answer =>
    obtain ⟨_, rfl⟩ | ⟨_, rfl, rest⟩ := sample_of_listed_ok qOk answer
    · exact .inl (draws ▸ Nat.lt_succ_self _)
    · exact .inr ⟨draws, noFault, acqOk, rest⟩
  | acquireOk n answer =>
    obtain ⟨_, rfl⟩ | ⟨_, rfl, rest⟩ := sample_of_listed_ok acqOk answer
    · exact .inl (draws ▸ Nat.lt_succ_self _)
    · exact .inr ⟨draws, noFault, rest, qOk⟩
  | queueFault x n answer =>
    obtain ⟨_, rfl⟩ | ⟨bad, _⟩ := sample_of_listed_ok qOk answer
    · exact .inl (draws ▸ Nat.lt_succ_self _)
    · cases bad
  | acquireFault n answer =>
    obtain ⟨_, rfl⟩ | ⟨bad, _⟩ := sample_of_listed_ok acqOk answer
    · exact .inl (draws ▸ Nat.lt_succ_self _)
    · cases bad
  | _ => exact .inr ⟨draws, noFault, acqOk, qOk⟩

theorem step_keeps_noBadAnswer {d : Nat} {s t : State} (start : NoBadAnswer d s)
    (h : step s = .next t) : NoBadAnswer d t := by
  refine step_keeps (P := NoBadAnswer d) ?sbu ?dmac (fun _ hu => hu)
    (fun _ _ _ hu effect => act_keeps_noBadAnswer hu effect) (fun _ _ _ _ hu => hu) ?complete
    (fun _ _ hu => hu) ?illegal ?reset (fun _ _ hu => hu) (fun _ _ _ _ _ _ _ hu => hu) start h
  case sbu =>
    intro a b ha hb
    obtain ⟨_, rfl⟩ | ⟨_, _, rfl⟩ := sbuStep_next hb <;> exact ha
  case dmac =>
    intro a b ha hb
    obtain ⟨_, rfl⟩ | ⟨_, _, _, _, _, rfl⟩ := dmacStep_next hb <;> exact ha
  case complete =>
    intro ret u hu
    unfold complete
    split <;> exact hu
  case illegal => exact fun u hu => hu.imp_right fun ⟨draws, _, listed⟩ => ⟨draws, .inr rfl, listed⟩
  case reset => exact fun u hu => hu.imp_right fun ⟨draws, _, listed⟩ => ⟨draws, .inl rfl, listed⟩

/-! ## One operation -/

/-- How many lines are of kind `k`. -/
def countKind (k : LineKind) (ops : List MicroOp) : Nat := ops.countP fun op => op.kind = k

@[simp] theorem countKind_nil (k : LineKind) : countKind k [] = 0 := rfl

theorem countKind_cons (k : LineKind) (op : MicroOp) (ops : List MicroOp) :
    countKind k (op :: ops) = countKind k ops + if op.kind = k then 1 else 0 := by
  simp [countKind, List.countP_cons]

/-- Enough ok answers are listed for the lines left, and nothing has faulted. -/
structure Supplied (ops : List MicroOp) (s : State) : Prop where
  answers : AnswersOk s
  alive   : s.eng ≠ .halt
  acquire : countKind .acquire ops ≤ s.acqIn.length
  submit  : countKind .submit ops ≤ s.qIn.length

theorem settle_eng {op : MicroOp} {s t : State} (h : settle op s = .next t) : t.eng = s.eng := by
  refine settle_keeps (P := fun u => u.eng = s.eng) ?sbu ?dmac (fun _ hu => hu) rfl h
  case sbu =>
    intro a b ha hb
    obtain ⟨_, rfl⟩ | ⟨_, _, rfl⟩ := sbuStep_next hb <;> exact ha
  case dmac =>
    intro a b ha hb
    obtain ⟨_, rfl⟩ | ⟨_, _, _, _, _, rfl⟩ := dmacStep_next hb <;> exact ha

theorem Supplied.settle {op : MicroOp} {ops : List MicroOp} {s t : State}
    (start : Supplied (op :: ops) s) (h : settle op s = .next t) : Supplied (op :: ops) t := by
  obtain ⟨⟨fatal, acqOk, qOk⟩, alive, acquire, submit⟩ := start
  have frame := settle_agentsFrame h
  exact ⟨⟨frame.fault.2.1.trans fatal, by rwa [frame.acqIn], by rwa [frame.qIn]⟩,
    by rwa [settle_eng h], by rwa [frame.acqIn], by rwa [frame.qIn]⟩

theorem Supplied.act {op : MicroOp} {ops : List MicroOp} {s t : State}
    (start : Supplied (op :: ops) s) (h : act op s = .go t) : Supplied ops t := by
  obtain ⟨⟨fatal, acqOk, qOk⟩, alive, acquire, submit⟩ := start
  simp only [countKind_cons] at acquire submit
  cases act_go h with
  | queueOk x n _ answer =>
    obtain ⟨none, _⟩ | ⟨_, _, rest⟩ := sample_of_listed_ok qOk answer
    · simp [none, MicroOp.kind] at submit
    · refine ⟨⟨fatal, acqOk, rest⟩, alive, acquire, ?_⟩
      have one : countKind .submit ops + 1 ≤ s.qIn.length := submit
      exact (Nat.le_sub_of_add_le one).trans_eq List.length_tail.symm
  | acquireOk n answer =>
    obtain ⟨none, _⟩ | ⟨_, _, rest⟩ := sample_of_listed_ok acqOk answer
    · simp [none, MicroOp.kind] at acquire
    · refine ⟨⟨fatal, rest, qOk⟩, alive, ?_, submit⟩
      have one : countKind .acquire ops + 1 ≤ s.acqIn.length := acquire
      exact (Nat.le_sub_of_add_le one).trans_eq List.length_tail.symm
  | queueFault x n answer =>
    obtain ⟨none, _⟩ | ⟨bad, _⟩ := sample_of_listed_ok qOk answer
    · simp [none, MicroOp.kind] at submit
    · cases bad
  | acquireFault n answer =>
    obtain ⟨none, _⟩ | ⟨bad, _⟩ := sample_of_listed_ok acqOk answer
    · simp [none, MicroOp.kind] at acquire
    · cases bad
  | _ => exact ⟨⟨fatal, acqOk, qOk⟩, alive, acquire, submit⟩

theorem runLines_supplied (ops : List MicroOp) {s t : State} (start : Supplied ops s)
    (h : runLines ops s = .go t) : Supplied [] t := by
  induction ops generalizing s with
  | nil => cases h; exact start
  | cons op ops ih =>
    rw [runLines_cons] at h
    split at h
    case h_2 => cases h
    case h_1 u line =>
      rw [runLine_eq (halted_eq_false.2 start.alive)] at line
      split at line
      case h_1 v wait => exact ih ((start.settle wait).act line) h
      all_goals cases line

theorem countKind_eq_zero {kinds : List LineKind} {ops : List MicroOp} {k : LineKind}
    (only : OnlyKinds kinds ops) (absent : k ∉ kinds) : countKind k ops = 0 :=
  List.countP_eq_zero.2 fun op mem => by simpa using only.avoids absent op mem

theorem countKind_submit_windowOps (c : Params) (k : Clipped) (img buf w h : Nat) (sw : Bool) :
    countKind .submit (windowOps c k img buf w h sw) = 6 := by
  have copies : OnlyKinds [.copy] (stageOps img buf w h k sw) := by
    simp [stageOps, stageClippedOps, stageWholeOps, MicroOp.kind]
  have none := countKind_eq_zero (k := .submit) copies (by simp)
  simp only [countKind, windowOps, List.countP_append] at none ⊢
  rw [none]
  rfl

theorem planOf_acquires {i : Instr} {s : State} {ops : List MicroOp} {ret : Option Bool}
    (plan : planOf i s = .run ops ret) : countKind .acquire ops ≤ 1 := by
  by_cases init : i = .initDma
  · subst init
    simp only [planOf, planInitDma] at plan
    split at plan <;> cases plan <;> decide
  · rw [countKind_eq_zero (k := .acquire) (planOf_kinds plan) fun mem => init (owner_of_mem_planKinds mem)]
    exact Nat.zero_le 1

theorem planOf_submits {i : Instr} {s : State} {ops : List MicroOp} {ret : Option Bool}
    (plan : planOf i s = .run ops ret) : countKind .submit ops ≤ 6 := by
  by_cases submits : isSubmit i = true
  · cases i <;> simp only [isSubmit, Bool.false_eq_true] at submits
    case pushPixelsDma =>
      simp only [planOf, planPushPixelsDma, Plan.noOp] at plan
      split at plan <;> [skip; split at plan] <;> cases plan <;> simp [countKind, MicroOp.kind]
    case pushImageDma =>
      simp only [planOf, planPushImageDma, Plan.noOp] at plan
      (repeat' split at plan) <;> cases plan <;>
        simp [countKind_submit_windowOps]
  · rw [countKind_eq_zero (k := .submit) (planOf_kinds plan) fun mem => submits (owner_of_mem_planKinds mem)]
    exact Nat.zero_le 6

/-- Settles O54: along the run no answer is drawn, so none is a fault; an operation asks for at most
one acquisition and six submissions. -/
theorem launchPremisesExcludeTheFault : Obligations.LaunchPremisesExcludeTheFault := by
  unfold Obligations.LaunchPremisesExcludeTheFault
  constructor
  · intro s t launch reach
    have fatal : s.fatal = false := launch.answers.1
    have start : NoBadAnswer s.draws s := .inr ⟨rfl, .inl fatal, launch.answers.2⟩
    obtain drawn | ⟨_, noFault, _⟩ :=
      reaches_keeps (fun _ _ hu hv => step_keeps_noBadAnswer hu hv) reach start
    · exact absurd (launch.listed t reach) (Nat.ne_of_gt drawn)
    · exact noFault
  · intro i s t answers idle acquire submit h
    rw [exec_eq_perform] at h
    obtain ⟨ops, ret, u, plan, lines, rfl⟩ := perform_next idle h
    have start : Supplied ops (beginOp i ops ret s) :=
      ⟨answers, nofun, (planOf_acquires plan).trans acquire, (planOf_submits plan).trans submit⟩
    obtain ⟨answers, alive, _, _⟩ := runLines_supplied ops start lines
    rw [complete_of_alive alive]
    exact ⟨rfl, answers⟩

end Sys2Proof.Machine
end

section
/-! Under the launch premises no step of a run stops (spec/70_reset_and_hazards.md R280): what the
lines left need of the bus and of memory is kept by every agent's step, and what it says is enough for
each of them to be made. -/

namespace Sys2Proof.Machine

/-! ## What the lines left need -/

/-- The length register asks for whole bytes (spec/93_implementation_defined.md U23). -/
def wholeBytes (s : State) : Bool := decide ((s.bitlen.toNat + 1) % 8 = 0)

/-- The lines left find the bus free, room in the queue and the cells they touch. -/
def LinesFit (ops : List MicroOp) (s : State) : Prop :=
  busFit s.cfg.queueDepth ops s.busy (wholeBytes s) s.queue.length = true
    ∧ ∀ op ∈ ops, lineValid s.cfg op = true

/-- No agent can be stuck or be asked for what the spec gives no move for. -/
structure Safe (s : State) : Prop where
  inv   : Inv s
  valid : QueueValid s
  whole : s.busy = true → wholeBytes s = true
  lines : ∀ todo, linesLeft s.eng = some todo → LinesFit todo s

theorem Safe.hostSide {s : State} (safe : Safe s) (d : Bool) (q : List Move) (p : List Word)
    (r : Word) (m : Pixel) (l : Level) :
    Safe { s with done := d, sched := q, port := p, rdata := r, mdata := m, dc := l } := by
  obtain ⟨inv, valid, whole, lines⟩ := safe
  exact ⟨inv.hostSide d q p r m l, valid, whole, lines⟩

theorem Safe.of_halt {s : State} (inv : Inv s) (valid : QueueValid s)
    (whole : s.busy = true → wholeBytes s = true) (halt : s.eng = .halt) : Safe s := by
  refine ⟨inv, valid, whole, fun todo left => ?_⟩
  rw [halt] at left
  cases left

/-- Lines that fit a bus in use with `q` transactions queued fit a free one with fewer. -/
theorem busFit_mono {d : Nat} {ops : List MicroOp} {b b' v : Bool} {q q' : Nat}
    (bus : b' = true → b = true) (queue : q' ≤ q) (h : busFit d ops b v q = true) :
    busFit d ops b' v q' = true := by
  induction ops generalizing b b' v q q' with
  | nil => rfl
  | cons op ops ih =>
    have free (idle : b = false) : b' = false := by
      rw [← Bool.not_eq_true]
      exact fun busy => absurd (bus busy) (by simp [idle])
    cases op <;> simp only [busFit, Bool.and_eq_true, Bool.not_eq_true', decide_eq_true_eq] at h ⊢
    case waitIdle => exact ih id queue h
    case startTransfer => exact ⟨⟨free h.1.1, h.1.2⟩, ih id queue h.2⟩
    case drain => exact ih bus (Nat.le_refl 0) h
    case queueTx => exact ⟨by omega, ih bus (by omega) h.2⟩
    case loadReg | loadPair | loadHalf | loadPixel | setBitlen =>
      exact ⟨free h.1, ih bus queue h.2⟩
    all_goals exact ih bus queue h

theorem LinesFit.mono {ops : List MicroOp} {s t : State} (fit : LinesFit ops s) (cfg : t.cfg = s.cfg)
    (bitlen : t.bitlen = s.bitlen) (bus : t.busy = true → s.busy = true)
    (queue : t.queue.length ≤ s.queue.length) : LinesFit ops t := by
  have whole : wholeBytes t = wholeBytes s := by rw [wholeBytes, bitlen, wholeBytes]
  rw [LinesFit, cfg, whole]
  exact ⟨busFit_mono bus queue fit.1, fit.2⟩

/-! ## The effect of a line -/

theorem whenFree_of_free {s t : State} (free : s.busy = false) : whenFree s t = .go t := by
  simp [whenFree, free]

theorem memRead_of_valid {s : State} {a : Nat} (valid : s.cfg.pmemValid a = true) :
    memRead s a = some (Memory.readCell s.pmem a) := memRead_some.2 ⟨valid, rfl⟩

/-- A line that fits can be executed. -/
theorem LinesFit.act_goes {op : MicroOp} {ops : List MicroOp} {s : State}
    (fit : LinesFit (op :: ops) s) : ∃ t, act op s = .go t := by
  obtain ⟨bus, valid⟩ := fit
  have cells := valid op List.mem_cons_self
  cases op <;> simp only [busFit, lineValid, Bool.and_eq_true, Bool.not_eq_true',
    decide_eq_true_eq] at bus cells <;> simp only [act]
  case loadReg | loadPixel | setBitlen => exact ⟨_, whenFree_of_free bus.1⟩
  case startTransfer => exact ⟨_, whenFree_of_free bus.1.1⟩
  case loadPair =>
    rw [memRead_of_valid cells.1, memRead_of_valid cells.2]
    exact ⟨_, whenFree_of_free bus.1⟩
  case loadHalf =>
    rw [memRead_of_valid cells]
    exact ⟨_, whenFree_of_free bus.1⟩
  case fetchPixel =>
    rw [memRead_of_valid cells]
    exact ⟨_, rfl⟩
  case copyCell src dst sw =>
    rw [memRead_of_valid cells.1]
    simp only [memWrite, cells.2, if_true]
    exact ⟨_, rfl⟩
  case queueTx x =>
    have room : ¬ ((drawQ s).1 = true ∧ s.cfg.queueDepth ≤ s.queue.length) := by omega
    exact ⟨_, by rw [queueTx, if_neg room]⟩
  all_goals exact ⟨_, rfl⟩

/-- What a line leaves fits, unless it raised the fault. -/
theorem LinesFit.act {op : MicroOp} {ops : List MicroOp} {s t : State}
    (fit : LinesFit (op :: ops) s) (free : op = .waitIdle → s.busy = false)
    (empty : op = .drain → s.queue = []) (effect : LineEffect s op t) :
    t.eng = .halt ∨ LinesFit ops t := by
  obtain ⟨bus, valid⟩ := fit
  have rest : ∀ o ∈ ops, lineValid s.cfg o = true := fun o mem => valid o (List.mem_cons_of_mem _ mem)
  cases effect <;> simp only [busFit, Bool.and_eq_true] at bus
  case queueFault | acquireFault => exact .inl rfl
  case waitIdle => exact .inr ⟨by rwa [free rfl], rest⟩
  case drain => exact .inr ⟨by rwa [empty rfl], rest⟩
  case queueOk x _ _ _ =>
    have length : (s.queue ++ [x]).length = s.queue.length + 1 := by simp
    refine .inr ⟨?_, rest⟩
    change busFit _ ops _ (wholeBytes s) (s.queue ++ [x]).length = true
    rw [length]
    exact bus.2
  case startTransfer | loadReg | loadPair | loadHalf | loadPixel | setBitlen =>
    exact .inr ⟨bus.2, rest⟩
  all_goals exact .inr ⟨bus, rest⟩

/-- What a line queues can be performed. -/
theorem QueueValid.act {op : MicroOp} {s t : State} (valid : QueueValid s)
    (cells : lineValid s.cfg op = true) (effect : LineEffect s op t) : QueueValid t := by
  cases effect
  case queueOk x d _ _ =>
    intro y mem
    obtain mem | rfl : y ∈ s.queue ∨ y = x := by simpa [appendTx] using mem
    · exact valid y mem
    · simpa [lineValid] using cells
  all_goals exact valid

theorem whole_act {op : MicroOp} {ops : List MicroOp} {s t : State} (fit : LinesFit (op :: ops) s)
    (whole : s.busy = true → wholeBytes s = true) (effect : LineEffect s op t) :
    t.busy = true → wholeBytes t = true := by
  have bus := fit.1
  cases effect
  case startTransfer =>
    simp only [busFit, Bool.and_eq_true] at bus
    exact fun _ => bus.1.2
  case setBitlen v free => exact fun busy => absurd (free.symm.trans busy) (by decide)
  all_goals exact whole

/-! ## The steps of the agents -/

theorem sbuStep_safe {s : State} (safe : Safe s) : ∃ t, sbuStep s = .next t ∧ Safe t := by
  have step : ∃ t, sbuStep s = .next t := by
    cases busy : s.busy with
    | false => exact ⟨s, sbuStep_of_idle busy⟩
    | true => exact ⟨_, sbuStep_of_wholeBytes busy (by simpa [wholeBytes] using safe.whole busy)⟩
  obtain ⟨t, h⟩ := step
  refine ⟨t, h, ?_⟩
  have inv := sbuStep_keeps_inv safe.inv h
  obtain ⟨_, rfl⟩ | ⟨_, _, rfl⟩ := sbuStep_next h
  · exact safe
  · obtain ⟨_, valid, _, lines⟩ := safe
    exact ⟨inv, valid, nofun, fun todo left => (lines todo left).mono rfl rfl nofun (Nat.le_refl _)⟩

theorem dmacStep_safe {s : State} (safe : Safe s) : ∃ t, dmacStep s = .next t ∧ Safe t := by
  cases ready : dmacReady s with
  | false => exact ⟨s, dmacStep_of_not_ready ready, safe⟩
  | true =>
    obtain ⟨nonempty, _⟩ := (dmacReady_iff s).1 ready
    obtain ⟨x, q, queue⟩ := List.exists_cons_of_ne_nil nonempty
    have h := dmacStep_of_ready ready queue (safe.valid x (by simp [queue]))
    have inv := dmacStep_keeps_inv safe.inv h
    obtain ⟨_, valid, whole, lines⟩ := safe
    refine ⟨_, h, inv, fun y mem => valid y ?_, whole, fun todo left => ?_⟩
    · rw [queue]
      exact List.mem_cons_of_mem _ mem
    · exact (lines todo left).mono rfl rfl id (by simp [queue])

theorem engineStep_goes {s : State} (safe : Safe s) : ∃ t, engineStep s = .next t := by
  cases eng : s.eng with
  | idle => exact ⟨s, engineStep_of_idle eng⟩
  | halt => exact ⟨s, engineStep_of_halt eng⟩
  | run k todo ret =>
    cases todo with
    | nil => exact ⟨_, by simp only [engineStep, eng]; rfl⟩
    | cons op ops =>
      obtain ⟨u, effect⟩ := (safe.lines (op :: ops) (by rw [eng, linesLeft])).act_goes
      simp only [engineStep, eng, effect]
      split
      · exact ⟨_, rfl⟩
      · split <;> exact ⟨_, rfl⟩

/-- The idle engine asks for nothing. -/
theorem linesFit_nil (s : State) : LinesFit [] s := ⟨rfl, nofun⟩

theorem engineStep_safe {s : State} (safe : Safe s) : ∃ t, engineStep s = .next t ∧ Safe t := by
  obtain ⟨t, h⟩ := engineStep_goes safe
  refine ⟨t, h, ?_⟩
  have inv := engineStep_keeps_inv safe.inv h
  cases eng : s.eng with
  | idle => cases (engineStep_of_idle eng).symm.trans h; exact safe
  | halt => cases (engineStep_of_halt eng).symm.trans h; exact safe
  | run k todo ret =>
    have fit := safe.lines todo (by rw [eng, linesLeft])
    have lines := safe.inv.lineInv (ops := todo) (by rw [eng, linesLeft])
    obtain ⟨_, valid, whole, _⟩ := safe
    cases todo with
    | nil =>
      simp only [engineStep, eng] at h
      cases h
      rw [complete_running (halted_of_run eng)] at inv ⊢
      exact ⟨inv, valid, whole, fun todo left => by cases left; exact linesFit_nil _⟩
    | cons op ops =>
      obtain ⟨_, rfl⟩ | ⟨_, _, _, rfl⟩ | ⟨u, free, drained, effect, rfl⟩ := engineStep_next eng h
      · refine ⟨inv, valid, whole, fun todo left => ?_⟩
        rw [eng, linesLeft] at left
        cases left
        exact fit
      · refine ⟨inv, valid, whole, fun todo left => ?_⟩
        rw [takeCompletion_eng, eng, linesLeft] at left
        cases left
        exact fit
      · have cells := fit.2 op List.mem_cons_self
        have validU := valid.act cells (act_go effect)
        have wholeU := whole_act fit whole (act_go effect)
        have idle : op = .waitIdle → s.busy = false := by
          rintro rfl
          exact free
        have empty : op = .drain → s.queue = [] := by
          rintro rfl
          have counts := lines.counts
          simp only [endsWell, drained rfl, Bool.and_eq_true, decide_eq_true_eq] at counts
          exact List.length_eq_zero_iff.1 (Nat.add_eq_zero_iff.1 counts.1.symm).1
        have fitU := fit.act idle empty (act_go effect)
        by_cases halt : u.eng = .halt
        · rw [if_pos (by simp [halted, halt])] at inv ⊢
          exact .of_halt inv validU wholeU halt
        · rw [if_neg (by simp [halted, halt])] at inv ⊢
          refine ⟨inv, validU, wholeU, fun todo left => ?_⟩
          cases left
          exact fitU.resolve_left halt

/-- A blocked drain has a transaction the DMAC can perform, or a transfer that holds the bus. -/
theorem helpDrain_safe {s : State} {k : Nat} {ops : List MicroOp} {ret : Option Bool} (safe : Safe s)
    (eng : s.eng = .run k (.drain :: ops) ret) (waits : blocked .drain s = true) :
    ∃ t, helpDrain s = .next t ∧ Safe t := by
  by_cases held : s.cfg.busMode = .serial ∧ s.busy = true
  · rw [helpDrain_of_held held.1 held.2]
    exact sbuStep_safe safe
  · have free : s.cfg.busMode = .serial → s.busy = false := fun serial => by
      simpa using fun busy => held ⟨serial, busy⟩
    obtain ⟨left, none⟩ : s.pending ≠ 0 ∧ s.compl = [] := by simpa [blocked] using waits
    obtain ⟨_, fatal, _, _, disabled, _, counts⟩ :=
      safe.inv.lineInv (ops := .drain :: ops) (by rw [eng, linesLeft])
    have queue : s.queue ≠ [] := by
      intro empty
      simp only [endsWell, none, empty, Bool.and_eq_true, decide_eq_true_eq] at counts
      exact left (BitVec.eq_of_toNat_eq counts.1)
    have enabled : s.dmaEn = true := by simpa using fun off => left (disabled off).1
    have ready : dmacReady s = true := (dmacReady_iff s).2 ⟨queue, fatal, enabled, free⟩
    rw [helpDrain_of_free free, if_pos ready]
    exact dmacStep_safe safe

theorem progressStep_safe {s : State} (safe : Safe s) : ∃ t, progressStep s = .next t ∧ Safe t := by
  unfold progressStep
  split
  · split
    · exact sbuStep_safe safe
    · exact engineStep_safe safe
  · rename_i eng
    split
    · rename_i waits
      exact helpDrain_safe safe eng waits
    · exact engineStep_safe safe
  · exact engineStep_safe safe

theorem restStep_safe {s : State} (safe : Safe s) : ∃ t, restStep s = .next t ∧ Safe t := by
  unfold restStep
  split
  · exact sbuStep_safe safe
  · exact dmacStep_safe safe

/-! ## Operations -/

theorem Progresses.safe {s : State} {r : Result} (h : Progresses s r) (start : Safe s) :
    ∃ t, r = .next t ∧ Safe t := by
  induction h with
  | rest => exact ⟨_, rfl, start⟩
  | step _ progress _ ih =>
    obtain ⟨t, goes, safe⟩ := progressStep_safe start
    cases goes.symm.trans progress
    exact ih safe
  | stop _ progress stops =>
    obtain ⟨t, goes, _⟩ := progressStep_safe start
    exact absurd (progress.symm.trans goes) (stops t)

/-- An operation that is refused is a push under outstanding transactions or beyond the limits. -/
theorem planOf_refuse {i : Instr} {s : State} {r : Refusal} (plan : planOf i s = .refuse r) :
    (isSyncPush i = true ∧ dmaOutstanding s = true) ∨ withinLimits i = false := by
  cases i <;> simp only [planOf, planPushBlock, planPushPixels, planPushSwapPixels, planPushSeq,
    planSetSwap, planInitDma, planDeinitDma, planDmaBusy, planDmaWait, planPushPixelsDma,
    planPushImageDma, Plan.noOp] at plan
  all_goals (repeat' split at plan) <;> cases plan
  all_goals simp_all [isSyncPush, withinLimits]

/-- What the premises say of the next command lets it be taken. -/
theorem plan_runs {i : Instr} {s : State} (cells : cellsTouchedExist i s = true)
    (limits : withinLimits i = true)
    (duty : isSyncPush i = true → s.queue = [] ∧ s.pending = 0) :
    ∃ ops ret, planOf i s = .run ops ret ∧ ∀ op ∈ ops, lineValid s.cfg op = true := by
  cases plan : planOf i s with
  | refuse r =>
    obtain ⟨sync, outstanding⟩ | beyond := planOf_refuse plan
    · obtain ⟨queue, pending⟩ := duty sync
      simp [dmaOutstanding, queue, pending] at outstanding
    · exact absurd (limits.symm.trans beyond) (by decide)
  | run ops ret => exact ⟨ops, ret, rfl, by simpa [cellsTouchedExist, plan] using cells⟩

theorem beginOp_safe {i : Instr} {s : State} {ops : List MicroOp} {ret : Option Bool} (safe : Safe s)
    (idle : s.eng = .idle) (plan : planOf i s = .run ops ret)
    (cells : ∀ op ∈ ops, lineValid s.cfg op = true) : Safe (beginOp i ops ret s) := by
  refine ⟨beginOp_keeps_inv safe.inv idle plan, safe.valid, safe.whole, fun todo left => ?_⟩
  cases left
  have free : s.busy = false := (safe.inv.idle idle).2.2.1
  refine ⟨?_, cells⟩
  change busFit s.cfg.queueDepth ops s.busy (wholeBytes s) s.queue.length = true
  rw [free]
  exact plan_busFit plan _ _

theorem exec_safe {i : Instr} {s : State} (safe : Safe s) (idle : s.eng = .idle)
    (cells : cellsTouchedExist i s = true) (limits : withinLimits i = true)
    (duty : isSyncPush i = true → s.queue = [] ∧ s.pending = 0) :
    ∃ t, exec i s = .next t ∧ Safe t := by
  obtain ⟨ops, ret, plan, valid⟩ := plan_runs cells limits duty
  exact (exec_progresses idle plan).safe (beginOp_safe safe idle plan valid)

/-! ## The moves -/

/-- The next command on the port may be taken. -/
def MayTake (s : State) : Prop :=
  ∀ i rest, s.eng = .idle → decode s.port = .instr i rest →
    cellsTouchedExist i s = true ∧ withinLimits i = true
      ∧ (isSyncPush i = true → s.queue = [] ∧ s.pending = 0)

theorem takeIllegal_safe {s : State} (safe : Safe s) (idle : s.eng = .idle) :
    Safe (takeIllegal s) :=
  .of_halt (takeIllegal_keeps_inv safe.inv idle) safe.valid safe.whole rfl

/-- What an operation is to do does not depend on the port. -/
theorem planOf_hostSide (i : Instr) (s : State) (d : Bool) (q : List Move) (p : List Word) :
    planOf i { s with done := d, sched := q, port := p } = planOf i s := by
  cases i <;> rfl

theorem cellsTouchedExist_hostSide (i : Instr) (s : State) (d : Bool) (q : List Move)
    (p : List Word) :
    cellsTouchedExist i { s with done := d, sched := q, port := p } = cellsTouchedExist i s := by
  rw [cellsTouchedExist, planOf_hostSide, cellsTouchedExist]

theorem takeCommand_safe {s : State} (safe : Safe s) (may : MayTake s) :
    ∃ t, takeCommand s = .next t ∧ Safe t := by
  by_cases idle : s.eng = .idle
  · cases decoded : decode s.port with
    | more => exact ⟨s, by simp only [takeCommand, idle, decoded, if_true], safe⟩
    | illegal why => exact ⟨_, takeCommand_of_illegal idle decoded, takeIllegal_safe safe idle⟩
    | instr i rest =>
      obtain ⟨cells, limits, duty⟩ := may i rest idle decoded
      rw [takeCommand_of_instr idle decoded]
      exact exec_safe (s := { s with port := rest })
        (safe.hostSide s.done s.sched rest s.rdata s.mdata s.dc) idle
        ((cellsTouchedExist_hostSide i s s.done s.sched rest).trans cells) limits duty
  · exact ⟨s, takeCommand_of_not_idle idle, safe⟩

theorem acceptCommand_safe {s : State} (safe : Safe s) (may : MayTake s) :
    ∃ t, acceptCommand s = .next t ∧ Safe t := by
  by_cases idle : s.eng = .idle
  · cases decoded : decode s.port with
    | more => exact ⟨s, by simp only [acceptCommand, idle, decoded, if_true], safe⟩
    | illegal why => exact ⟨_, acceptCommand_of_illegal idle decoded, takeIllegal_safe safe idle⟩
    | instr i rest =>
      obtain ⟨cells, limits, duty⟩ := may i rest idle decoded
      obtain ⟨ops, ret, plan, valid⟩ := plan_runs cells limits duty
      refine ⟨beginOp i ops ret { s with port := rest }, ?_, ?_⟩
      · rw [acceptCommand_of_instr idle decoded, plan, acceptPlan, if_pos (by exact idle)]
      · exact beginOp_safe (s := { s with port := rest })
          (safe.hostSide s.done s.sched rest s.rdata s.mdata s.dc) idle
          ((planOf_hostSide i s s.done s.sched rest).trans plan) valid
  · exact ⟨s, acceptCommand_of_not_idle idle, safe⟩

theorem resetFrom_safe {s : State} (memory : Memory.wf s.pmem = true) : Safe (resetFrom s) :=
  ⟨resetFrom_inv memory, nofun, nofun, fun todo left => by cases left; exact linesFit_nil _⟩

/-- What the premises say of a state reached. -/
structure Premised (s : State) : Prop where
  duty   : hostDuty s = true
  cells  : ∀ i, nextCommand s = some i → cellsTouchedExist i s = true
  limits : ∀ i, nextCommand s = some i → withinLimits i = true

/-- Where the next move takes a command, the premises let it be taken. -/
theorem Premised.mayTake {s : State} (premised : Premised s)
    (takes : nextMove s = .command ∨ nextMove s = .accept) (q : List Move) :
    MayTake { s with done := false, sched := q } := by
  intro i rest idle decoded
  have next : nextCommand s = some i := by
    simp only at idle decoded
    simp only [nextCommand, idle, decoded, takes, and_self, if_true]
  refine ⟨(cellsTouchedExist_hostSide i s false q s.port).trans (premised.cells i next),
    premised.limits i next, fun sync => ?_⟩
  have duty := premised.duty
  obtain move | move := takes <;> simpa [hostDuty, move, next, sync] using duty

theorem moveStep_safe {m : Move} {ms : List Move} {s : State} (safe : Safe s)
    (premised : Premised s) (sched : s.sched = m :: ms) :
    ∃ t, moveStep m { s with done := false, sched := ms } = .next t ∧ Safe t := by
  have start := safe.hostSide false ms s.port s.rdata s.mdata s.dc
  have next : nextMove s = m := by simp [nextMove, sched]
  have duty := premised.duty
  simp only [hostDuty, next] at duty
  cases m <;> simp only [moveStep]
  case command => exact takeCommand_safe start (premised.mayTake (.inl next) ms)
  case accept => exact acceptCommand_safe start (premised.mayTake (.inr next) ms)
  case engine => exact engineStep_safe start
  case sbu => exact sbuStep_safe start
  case dmac => exact dmacStep_safe start
  case reset => exact ⟨_, rfl, resetFrom_safe safe.inv.memory⟩
  case hostWord w =>
    exact ⟨_, rfl, safe.hostSide false ms (s.port ++ [w]) s.rdata s.mdata s.dc⟩
  case statusWrite => exact ⟨_, rfl, start⟩
  case hostRead a =>
    rw [memRead_of_valid (s := { s with done := false, sched := ms }) duty]
    exact ⟨_, rfl, safe.hostSide false ms s.port s.rdata _ s.dc⟩
  case hostWrite a v =>
    simp only [Bool.and_eq_true] at duty
    simp only [memWrite, duty.1, if_true]
    obtain ⟨inv, valid, whole, lines⟩ := start
    obtain ⟨memory, halt, cause, handle, disabled, room, counts⟩ := inv
    exact ⟨_, rfl, ⟨Memory.writeCell_wf _ _ _ memory, halt, cause, handle, disabled, room, counts⟩,
      valid, whole, lines⟩
  case statusRead off =>
    obtain ⟨v, read⟩ := Option.isSome_iff_exists.1 duty
    have same : statusReg { s with done := false, sched := ms } off = some v := read
    rw [same]
    exact ⟨_, rfl, safe.hostSide false ms s.port v s.mdata s.dc⟩
  case outsideDc l =>
    have free : linesFree { s with done := false, sched := ms } = true := duty
    rw [if_pos free]
    exact ⟨_, rfl, safe.hostSide false ms s.port s.rdata s.mdata l⟩

theorem defaultStep_safe {s : State} (safe : Safe s) (may : MayTake s) :
    ∃ t, defaultStep s = .next t ∧ Safe t := by
  unfold defaultStep
  split
  · split
    · exact restStep_safe safe
    · exact takeCommand_safe safe may
  · exact progressStep_safe safe
  · exact restStep_safe safe

theorem step_safe {s : State} (safe : Safe s) (premised : Premised s) :
    ∃ t, step s = .next t ∧ Safe t := by
  cases sched : s.sched with
  | nil =>
    rw [step_of_sched_nil sched]
    have next : nextMove s = .command := by simp [nextMove, sched]
    exact defaultStep_safe (safe.hostSide false s.sched s.port s.rdata s.mdata s.dc)
      (premised.mayTake (.inl next) s.sched)
  | cons m ms =>
    rw [step_of_sched_cons sched]
    exact moveStep_safe safe premised sched

/-- Settles O60: every state of the run is one no agent can be stuck in, and the premises hold of the
command taken there. -/
theorem launchedRunNeverStops : Obligations.LaunchedRunNeverStops := by
  unfold Obligations.LaunchedRunNeverStops
  intro s launch memory
  have safe : Safe s := launch.atReset ▸ resetFrom_safe memory
  have runs : ∀ n, ∃ t, runFor n s = .next t ∧ Safe t := by
    intro n
    induction n with
    | zero => exact ⟨s, rfl, safe⟩
    | succ n ih =>
      obtain ⟨t, reach, safe⟩ := ih
      have reached : Reaches s t := ⟨n, reach⟩
      obtain ⟨u, goes, safe⟩ := step_safe safe ⟨launch.duties t reached,
        fun i next => launch.cells t i reached next, fun i next => launch.limits t i reached next⟩
      exact ⟨u, by rw [runFor_add reach, runFor_next goes, runFor_zero], safe⟩
  intro n
  obtain ⟨t, reach, _⟩ := runs n
  exact ⟨t, reach⟩

end Sys2Proof.Machine
end

section
/-! A drain that reaches a payload with an address that does not exist (spec/42_dma_engine.md R176). -/

namespace Sys2Proof.Machine

/-- A drain whose count is right performs what it can and is stuck at the first payload it cannot. -/
theorem drainLoop_stuck {t : Transaction} {post : List Transaction} {a : Nat} (n : Nat) {s : State}
    {pre : List Transaction} (pending : s.pending.toNat = n)
    (counts : n = s.queue.length + s.compl.length) (fatal : s.fatal = false) (free : s.busy = false)
    (enabled : s.dmaEn = true) (queue : s.queue = pre ++ t :: post)
    (valid : ∀ u ∈ pre, txInvalid s.cfg u.body = none) (invalid : txInvalid s.cfg t.body = some a) :
    drainLoop n s = .fault (.dmacStuckAt a) := by
  induction n generalizing s pre with
  | zero =>
    simp only [queue, List.length_append, List.length_cons] at counts
    omega
  | succ n ih =>
    cases compl : s.compl with
    | cons c cs =>
      rw [drainLoop_succ_next (awaitEvent_ready (by simp [compl]))]
      refine ih (s := takeCompletion s) (pending_pred pending) ?_ fatal free enabled queue valid
        invalid
      simp only [compl, List.length_cons, takeCompletion_queue, takeCompletion_compl,
        List.tail_cons] at counts ⊢
      omega
    | nil =>
      cases pre with
      | nil => exact drainLoop_succ_fault (awaitEvent_stuck compl free queue fatal enabled invalid)
      | cons u pre =>
        have head := valid u List.mem_cons_self
        rw [drainLoop_succ_next (awaitEvent_performs compl free queue fatal enabled head)]
        refine ih (s := takeCompletion (performTx u { s with queue := pre ++ t :: post }))
          (pending_pred pending) ?_ fatal free enabled rfl
          (fun v mem => valid v (List.mem_cons_of_mem _ mem)) invalid
        simp only [queue, compl, List.length_append, List.length_cons, List.length_nil,
          takeCompletion_queue, takeCompletion_compl, performTx_queue, performTx_compl,
          List.nil_append, List.tail_cons] at counts ⊢
        omega

/-- An operation whose first line is the drain is stuck with it. -/
theorem exec_of_drain_stuck {i : Instr} {ops : List MicroOp} {ret : Option Bool} {s : State} {a : Nat}
    (idle : s.eng = .idle) (plan : planOf i s = .run (.drain :: ops) ret)
    (stuck : drainLoop s.pending.toNat (beginOp i (.drain :: ops) ret s) = .fault (.dmacStuckAt a)) :
    exec i s = .fault (.dmacStuckAt a) := by
  have line : runLine .drain (beginOp i (.drain :: ops) ret s) = .stop (.fault (.dmacStuckAt a)) := by
    rw [runLine_eq (halted_beginOp ..), show settle .drain (beginOp i (.drain :: ops) ret s) = _
      from stuck]
  rw [exec_eq_perform, plan, perform_run idle, runOps_cons_stop line]

/-- Settles O26: each of the five plans begins with the drain, which is stuck. -/
theorem drainStuckAtInvalidPayload : Obligations.DrainStuckAtInvalidPayload := by
  unfold Obligations.DrainStuckAtInvalidPayload
  intro s pre post t a inv idle queue valid invalid
  obtain ⟨counts, _, free, _, fatal, ready⟩ := inv.idle idle
  have enabled : s.dmaEn = true := ready.resolve_left (by simp [queue])
  have stuck {i : Instr} {ops : List MicroOp} {ret : Option Bool}
      (plan : planOf i s = .run (.drain :: ops) ret) : exec i s = .fault (.dmacStuckAt a) :=
    exec_of_drain_stuck idle plan (drainLoop_stuck (s := beginOp i (.drain :: ops) ret s) _ rfl counts
      fatal free enabled queue valid invalid)
  refine ⟨stuck (ret := none) rfl, stuck (ret := some false) rfl, ?_, ?_, ?_⟩
  · exact stuck (i := .deinitDma) (if_neg (by simp [enabled]))
  · intro src len nonzero short
    exact stuck (planOf_pushPixelsDma_run enabled nonzero short)
  · intro hasStg x y w h img stg origin extent area
    exact stuck (planOf_pushImageDma_run hasStg img stg enabled origin extent area)

end Sys2Proof.Machine
end

section
/-! The staging copy of a window and what it leaves in memory (spec/42_dma_engine.md R186, R188). -/

namespace Sys2Proof.Machine

/-! ## Copies made one after another -/

theorem copyCells_of_not_written (sw : Bool) {l : List (Nat × Nat)} {f : Nat → Pixel} {a : Nat}
    (other : ∀ p ∈ l, a ≠ p.2) : copyCells sw l f a = f a := by
  induction l generalizing f with
  | nil => rfl
  | cons p l ih =>
    rw [copyCells, ih fun q mem => other q (List.mem_cons_of_mem _ mem)]
    exact if_neg (other p List.mem_cons_self)

/-- Where no copy reads or writes what one before it wrote, each leaves its source. -/
theorem copyCells_of_written (sw : Bool) {l : List (Nat × Nat)} {f : Nat → Pixel}
    (order : l.Pairwise fun p q => p.2 ≠ q.1 ∧ p.2 ≠ q.2) {p : Nat × Nat} (mem : p ∈ l) :
    copyCells sw l f p.2 = swapVal (f p.1) sw := by
  induction l generalizing f with
  | nil => cases mem
  | cons q l ih =>
    obtain ⟨later, order⟩ := List.pairwise_cons.1 order
    rw [copyCells]
    obtain rfl | mem := List.mem_cons.1 mem
    · rw [copyCells_of_not_written sw fun r mem => (later r mem).2, if_pos rfl]
    · rw [ih order mem, if_neg (later p mem).1.symm]

/-- Cells copied unswapped onto themselves. -/
theorem copyCells_self {l : List (Nat × Nat)} (f : Nat → Pixel) (same : ∀ p ∈ l, p.1 = p.2) :
    copyCells false l f = f := by
  induction l generalizing f with
  | nil => rfl
  | cons p l ih =>
    have unchanged : (fun a => if a = p.2 then swapVal (f p.1) false else f a) = f := by
      funext a
      rw [same p List.mem_cons_self]
      split
      · rename_i h
        rw [h]
        rfl
      · rfl
    rw [copyCells, unchanged, ih f fun q mem => same q (List.mem_cons_of_mem _ mem)]

theorem copyMem_readByte (sw : Bool) {l : List (Nat × Nat)} {m : List Host.Cell} {c : Nat}
    (wf : Memory.wf m = true) (other : ∀ p ∈ l, c / 2 ≠ p.2) :
    Memory.readByte (copyMem sw l m) c = Memory.readByte m c := by
  induction l generalizing m with
  | nil => rfl
  | cons p l ih =>
    rw [copyMem, ih (Memory.writeCell_wf _ _ _ wf) fun q mem => other q (List.mem_cons_of_mem _ mem),
      Memory.readByte_writeCell _ wf (other p List.mem_cons_self)]

/-! ## The cells of a window -/

theorem mem_copyOrder {k : Clipped} {img buf w : Nat} {p : Nat × Nat} :
    p ∈ copyOrder k img buf w ↔ ∃ xx yy, InWindow k xx yy
      ∧ p = (imageAddr img w k.dx.toNat k.dy.toNat xx yy, stagingAddr buf k.w.toNat xx yy) := by
  simp only [copyOrder, List.mem_flatMap, List.mem_map, List.mem_range, InWindow]
  constructor
  · rintro ⟨yy, row, xx, col, rfl⟩
    exact ⟨xx, yy, ⟨col, row⟩, rfl⟩
  · rintro ⟨xx, yy, ⟨col, row⟩, rfl⟩
    exact ⟨yy, row, xx, col, rfl⟩

/-- The cells a staging copy touches: none where the image is already the payload. -/
def stageCells (k : Clipped) (img buf w h : Nat) (sw : Bool) : List (Nat × Nat) :=
  if k.w = w ∧ k.h = h ∧ buf = img ∧ sw = false then [] else copyOrder k img buf w

theorem stageCells_of_nothing {k : Clipped} {img buf w h : Nat} {sw : Bool}
    (nothing : CopiesNothing k img buf w h sw) : stageCells k img buf w h sw = [] :=
  if_pos nothing

theorem stageCells_of_something {k : Clipped} {img buf w h : Nat} {sw : Bool}
    (something : ¬ CopiesNothing k img buf w h sw) :
    stageCells k img buf w h sw = copyOrder k img buf w :=
  if_neg something

theorem stageCells_subset (k : Clipped) (img buf w h : Nat) (sw : Bool) :
    stageCells k img buf w h sw ⊆ copyOrder k img buf w := by
  unfold stageCells
  split <;> simp

theorem stageOps_eq (c : Params) (x y : Int) (w h img buf : Nat) (sw : Bool) :
    stageOps img buf w h (clip c x y w h) sw
      = copyLines sw (stageCells (clip c x y w h) img buf w h sw) := by
  by_cases nothing : CopiesNothing (clip c x y w h) img buf w h sw
  · rw [stageOps_nothing nothing, stageCells_of_nothing nothing]
    rfl
  · rw [stageOps_copies nothing, stageCells_of_something nothing]

theorem stageCells_valid {c : Params} {k : Clipped} {img buf w : Nat} (h : Nat) (sw : Bool)
    (valid : WindowValid c k img buf w) :
    ∀ p ∈ stageCells k img buf w h sw, c.pmemValid p.1 = true ∧ c.pmemValid p.2 = true := by
  intro p mem
  obtain ⟨xx, yy, inside, rfl⟩ := mem_copyOrder.1 (stageCells_subset k img buf w h sw mem)
  exact valid xx yy inside

/-- Memory after the staging copy. -/
def stagedMem (k : Clipped) (img buf w h : Nat) (sw : Bool) (m : List Host.Cell) : List Host.Cell :=
  copyMem sw (stageCells k img buf w h sw) m

/-- What each cell holds after the staging copy (R186). -/
theorem stagedMem_readCell {c : Params} {x y : Int} {w h img buf : Nat} {sw : Bool}
    {m : List Host.Cell} (wf : Memory.wf m = true) (a : Nat) :
    Memory.readCell (stagedMem (clip c x y w h) img buf w h sw m) a
      = copyCells sw (copyOrder (clip c x y w h) img buf w) (Memory.readCell m) a := by
  rw [stagedMem, copyMem_readCell _ _ wf]
  by_cases nothing : CopiesNothing (clip c x y w h) img buf w h sw
  · rw [stageCells_of_nothing nothing]
    obtain ⟨width, height, rfl, rfl⟩ := nothing
    obtain ⟨dx, dy⟩ := clip_whole width height
    refine (congrFun (copyCells_self _ fun p mem => ?_) a).symm
    obtain ⟨xx, yy, _, rfl⟩ := mem_copyOrder.1 mem
    simp [imageAddr, stagingAddr, width, dx, dy]
  · rw [stageCells_of_something nothing]

/-- Bytes outside the staged cells. -/
theorem stagedMem_readByte {k : Clipped} {w h img buf : Nat} {sw : Bool} {m : List Host.Cell}
    {c : Nat} (wf : Memory.wf m = true)
    (outside : ∀ xx yy, InWindow k xx yy → c / 2 ≠ stagingAddr buf k.w.toNat xx yy) :
    Memory.readByte (stagedMem k img buf w h sw m) c = Memory.readByte m c := by
  refine copyMem_readByte sw wf fun p mem => ?_
  obtain ⟨xx, yy, inside, rfl⟩ := mem_copyOrder.1 (stageCells_subset k img buf w h sw mem)
  exact outside xx yy inside

/-! ## The order of the copy -/

/-- The copy writes ascending cells. -/
theorem stagingAddr_lt (buf : Nat) {w' xx yy xx' yy' : Nat} (col : xx < w')
    (later : yy < yy' ∨ (yy = yy' ∧ xx < xx')) :
    stagingAddr buf w' xx yy < stagingAddr buf w' xx' yy' := by
  unfold stagingAddr
  obtain row | ⟨rfl, later⟩ := later
  · have rows : (yy + 1) * w' ≤ yy' * w' := Nat.mul_le_mul_right _ row
    rw [Nat.succ_mul] at rows
    omega
  · omega

/-- In place, the cell a copy writes comes before every cell that a later one reads. -/
theorem stagingAddr_lt_imageAddr (buf : Nat) {w w' dx dy xx yy xx' yy' : Nat} (narrow : w' ≤ w)
    (col : xx < w') (later : yy < yy' ∨ (yy = yy' ∧ xx < xx')) :
    stagingAddr buf w' xx yy < imageAddr buf w dx dy xx' yy' := by
  refine Nat.lt_of_lt_of_le (stagingAddr_lt buf col later) ?_
  have rows : yy' * w' ≤ (dy + yy') * w := Nat.mul_le_mul (Nat.le_add_left _ _) narrow
  unfold stagingAddr imageAddr
  omega

/-- Row by row in ascending element order. -/
theorem copyOrder_pairwise {k : Clipped} {img buf w : Nat} {R : Nat × Nat → Nat × Nat → Prop}
    (later : ∀ xx yy xx' yy', InWindow k xx yy → InWindow k xx' yy' →
      (yy < yy' ∨ (yy = yy' ∧ xx < xx')) →
      R (imageAddr img w k.dx.toNat k.dy.toNat xx yy, stagingAddr buf k.w.toNat xx yy)
        (imageAddr img w k.dx.toNat k.dy.toNat xx' yy', stagingAddr buf k.w.toNat xx' yy')) :
    (copyOrder k img buf w).Pairwise R := by
  rw [copyOrder, List.pairwise_flatMap]
  constructor
  · intro yy row
    rw [List.pairwise_map]
    refine List.pairwise_lt_range.imp_of_mem fun {xx xx'} col col' before => ?_
    rw [List.mem_range] at row col col'
    exact later xx yy xx' yy ⟨col, row⟩ ⟨col', row⟩ (.inr ⟨rfl, before⟩)
  · refine List.pairwise_lt_range.imp_of_mem fun {yy yy'} row row' before p mem q mem' => ?_
    obtain ⟨xx, col, rfl⟩ := List.mem_map.1 mem
    obtain ⟨xx', col', rfl⟩ := List.mem_map.1 mem'
    rw [List.mem_range] at row row' col col'
    exact later xx yy xx' yy' ⟨col, row⟩ ⟨col', row'⟩ (.inl before)

theorem clip_narrow (c : Params) (x y : Int) (w h : Nat) : (clip c x y w h).w.toNat ≤ w := by
  simp only [clip, clipAxis_extent]
  omega

/-- A staged cell holds its image cell, swapped as asked (R188, 70_reset_and_hazards.md R274). -/
theorem stagedMem_of_sound {c : Params} {x y : Int} {w h img buf : Nat} {sw : Bool}
    {m : List Host.Cell} (wf : Memory.wf m = true) (sound : StagingSound (clip c x y w h) img buf w)
    {xx yy : Nat} (inside : InWindow (clip c x y w h) xx yy) :
    Memory.readCell (stagedMem (clip c x y w h) img buf w h sw m)
        (stagingAddr buf (clip c x y w h).w.toNat xx yy)
      = swapVal (Memory.readCell m (imageAddr img w (clip c x y w h).dx.toNat
          (clip c x y w h).dy.toNat xx yy)) sw := by
  rw [stagedMem_readCell wf]
  refine copyCells_of_written sw (p := (_, _)) ?_ (mem_copyOrder.2 ⟨xx, yy, inside, rfl⟩)
  refine copyOrder_pairwise fun xx yy xx' yy' inside inside' later => ⟨?_, ?_⟩
  · obtain rfl | disjoint := sound
    · exact (stagingAddr_lt_imageAddr _ (clip_narrow c x y w h) inside.1 later).ne
    · exact disjoint xx yy xx' yy' inside inside'
  · exact (stagingAddr_lt buf inside.1 later).ne

end Sys2Proof.Machine
end

section
/-! `PUSHIMAGEDMA` (spec/42_dma_engine.md R182): the staging copy, the six transactions, a fault of the
controller among them, and what a drain then puts on the wire. -/

namespace Sys2Proof.Machine

/-! ## Transactions queued one after another -/

/-- Every answer is ok and the queue has room. -/
theorem runLines_queueAll (l : List Transaction) {s : State} {r : List Bool}
    (alive : halted s = false) (ok : s.qIn = List.replicate l.length true ++ r)
    (room : s.queue.length + l.length ≤ s.cfg.queueDepth) (ops : List MicroOp) :
    runLines (l.map .queueTx ++ ops) s
      = runLines ops { s with qIn := r, queue := s.queue ++ l } := by
  induction l generalizing s with
  | nil =>
    rw [List.append_nil, show r = s.qIn from ok.symm]
    rfl
  | cons t l ih =>
    rw [List.length_cons] at ok room
    have line := runLine_queueTx_ok alive (r := List.replicate l.length true ++ r) ok (by omega) t
    have rest := ih (s := appendTx t { s with qIn := List.replicate l.length true ++ r }) alive rfl
      (by simp only [appendTx_queue, appendTx_cfg, List.length_append, List.length_singleton]; omega)
    rw [List.map_cons, List.cons_append, runLines_cons_go line, rest]
    simp only [appendTx, List.append_assoc, List.singleton_append]

/-- The controller answers fault at transaction `j`. -/
theorem runLines_queueFault {l : List Transaction} {j : Nat} {s : State} {r : List Bool}
    (alive : halted s = false) (fault : s.qIn = List.replicate j true ++ false :: r)
    (short : j < l.length) (room : s.queue.length + l.length ≤ s.cfg.queueDepth)
    (ops : List MicroOp) :
    runLines (l.map .queueTx ++ ops) s
      = .go (raiseFatal .queueFault { s with qIn := r, queue := s.queue ++ l.take j }) := by
  have length : (l.take j).length = j := List.length_take_of_le short.le
  obtain ⟨t, rest, drop⟩ : ∃ t rest, l.drop j = t :: rest :=
    List.exists_cons_of_ne_nil (by simpa using short)
  have split : l.map MicroOp.queueTx ++ ops
      = (l.take j).map .queueTx ++ (.queueTx t :: (rest.map .queueTx ++ ops)) := by
    rw [← List.cons_append, ← List.map_cons, ← drop, ← List.append_assoc, ← List.map_append,
      List.take_append_drop]
  have line := runLine_queueTx_fault
    (s := { s with qIn := false :: r, queue := s.queue ++ l.take j }) alive rfl t
  rw [split, runLines_queueAll _ alive (r := false :: r) (by rw [length, fault])
      (by rw [length]; omega), runLines_cons_go line, runLines_halted (halted_raiseFatal _ _)]

/-! ## The operation -/

/-- The lines of a window after its drain. -/
def afterDrainOps (c : Params) (k : Clipped) (img buf w h : Nat) (sw : Bool) : List MicroOp :=
  stageOps img buf w h k sw ++ .clearNperf
    :: ((windowTx c.colorFmt k.x.toNat k.y.toNat k.w.toNat k.h.toNat buf).map .queueTx
      ++ [.setPending 6])

theorem windowOps_eq (c : Params) (k : Clipped) (img buf w h : Nat) (sw : Bool) :
    windowOps c k img buf w h sw = .drain :: afterDrainOps c k img buf w h sw := by
  simp [windowOps, afterDrainOps]

/-- The staging copy and the cleared count, before the transactions. -/
theorem runLines_staged {u : State} {c : Params} {x y : Int} {img buf w h : Nat} {sw : Bool}
    (alive : halted u = false)
    (cells : ∀ p ∈ stageCells (clip c x y w h) img buf w h sw,
      u.cfg.pmemValid p.1 = true ∧ u.cfg.pmemValid p.2 = true) (ops : List MicroOp) :
    runLines (stageOps img buf w h (clip c x y w h) sw ++ .clearNperf :: ops) u
      = runLines ops
          { u with pmem := stagedMem (clip c x y w h) img buf w h sw u.pmem, nperf := 0 } := by
  rw [stageOps_eq, runLines_append_go (runLines_copyLines sw _ alive cells),
    runLines_cons_go (runLine_clearNperf (by exact alive))]
  rfl

section
variable {u : State} {x y : Int} {img buf w h : Nat} {sw : Bool} {r : List Bool}

theorem runLines_afterDrain_ok (alive : halted u = false)
    (cells : ∀ p ∈ stageCells (clip u.cfg x y w h) img buf w h sw,
      u.cfg.pmemValid p.1 = true ∧ u.cfg.pmemValid p.2 = true)
    (empty : u.queue = []) (ok : u.qIn = List.replicate 6 true ++ r) :
    let k := clip u.cfg x y w h
    runLines (afterDrainOps u.cfg k img buf w h sw) u = .go { u with
      pmem := stagedMem k img buf w h sw u.pmem, nperf := 0, qIn := r
      queue := windowTx u.cfg.colorFmt k.x.toNat k.y.toNat k.w.toNat k.h.toNat buf, pending := 6 } := by
  intro k
  have room : u.queue.length + 6 ≤ u.cfg.queueDepth := by
    rw [empty]
    exact Nat.le_add_right 6 _
  refine (runLines_staged alive cells _).trans ?_
  refine (runLines_queueAll _ (by exact alive) ok room _).trans ?_
  refine (runLines_cons_go (runLine_setPending (by exact alive) 6)).trans ?_
  simp only [empty, List.nil_append]
  rfl

theorem runLines_afterDrain_fault {j : Nat} (alive : halted u = false)
    (cells : ∀ p ∈ stageCells (clip u.cfg x y w h) img buf w h sw,
      u.cfg.pmemValid p.1 = true ∧ u.cfg.pmemValid p.2 = true)
    (empty : u.queue = []) (short : j < 6) (fault : u.qIn = List.replicate j true ++ false :: r) :
    let k := clip u.cfg x y w h
    runLines (afterDrainOps u.cfg k img buf w h sw) u = .go (raiseFatal .queueFault { u with
      pmem := stagedMem k img buf w h sw u.pmem, nperf := 0, qIn := r
      queue := (windowTx u.cfg.colorFmt k.x.toNat k.y.toNat k.w.toNat k.h.toNat buf).take j }) := by
  intro k
  have room : u.queue.length + 6 ≤ u.cfg.queueDepth := by
    rw [empty]
    exact Nat.le_add_right 6 _
  refine (runLines_staged alive cells _).trans ?_
  refine (runLines_queueFault (j := j) (r := r) ?_ ?_ ?_ ?_ _).trans ?_
  · exact alive
  · exact fault
  · exact short
  · exact room
  simp only [empty, List.nil_append]
  rfl

end

/-- A window that is not rejected, at an idle initialised engine of the invariant. -/
structure WindowStart (s : State) (x y w h : Word) : Prop where
  inv     : Inv s
  idle    : s.eng = .idle
  enabled : s.dmaEn = true
  valid   : QueueValid s
  origin  : originOutside s.cfg x.toInt y.toInt = false
  extent  : emptyExtent (clip s.cfg x.toInt y.toInt w.toNat h.toNat) = false
  area    : w.toNat * h.toNat < 65536

/-- The state `PUSHIMAGEDMA` leaves: the payload staged, the six transactions queued. -/
def windowQueued (i : Instr) (k : Clipped) (img buf w h : Nat) (r : List Bool) (s : State) : State :=
  { finished i (drained s) with
    pmem := stagedMem k img buf w h s.swap s.pmem
    qIn := r
    nperf := 0
    queue := windowTx s.cfg.colorFmt k.x.toNat k.y.toNat k.w.toNat k.h.toNat buf
    pending := 6 }

section
variable {s : State} {hasStg : Bool} {x y w h img stg : Word} {r : List Bool}

theorem WindowStart.plan (start : WindowStart s x y w h) (hasStg : Bool) (img stg : Word) :
    planOf (.pushImageDma hasStg x y w h img stg) s = .run (.drain :: afterDrainOps s.cfg
      (clip s.cfg x.toInt y.toInt w.toNat h.toNat) img.toNat (stagingBuffer hasStg img stg) w.toNat
      h.toNat s.swap) none := by
  rw [planOf_pushImageDma_run hasStg img stg start.enabled start.origin start.extent start.area,
    windowOps_eq]

/-- Every answer is ok (R182). -/
theorem WindowStart.exec_ok (start : WindowStart s x y w h)
    (cells : ∀ p ∈ stageCells (clip s.cfg x.toInt y.toInt w.toNat h.toNat) img.toNat
        (stagingBuffer hasStg img stg) w.toNat h.toNat s.swap,
      s.cfg.pmemValid p.1 = true ∧ s.cfg.pmemValid p.2 = true)
    (ok : s.qIn = List.replicate 6 true ++ r) :
    exec (.pushImageDma hasStg x y w h img stg) s
      = .next (windowQueued (.pushImageDma hasStg x y w h img stg)
          (clip s.cfg x.toInt y.toInt w.toNat h.toNat) img.toNat (stagingBuffer hasStg img stg)
          w.toNat h.toNat r s) := by
  rw [exec_of_drain_first start.inv start.idle start.valid (start.plan hasStg img stg)
    (runLines_afterDrain_ok (u := beginOp _ _ _ (drained s)) (halted_beginOp ..) cells rfl ok)]
  rfl

/-- The controller answers fault at transaction `j` (60_exceptions.md section 2). -/
theorem WindowStart.exec_fault {j : Nat} (start : WindowStart s x y w h)
    (cells : ∀ p ∈ stageCells (clip s.cfg x.toInt y.toInt w.toNat h.toNat) img.toNat
        (stagingBuffer hasStg img stg) w.toNat h.toNat s.swap,
      s.cfg.pmemValid p.1 = true ∧ s.cfg.pmemValid p.2 = true)
    (short : j < 6) (fault : s.qIn = List.replicate j true ++ false :: r) :
    let k := clip s.cfg x.toInt y.toInt w.toNat h.toNat
    let buf := stagingBuffer hasStg img stg
    exec (.pushImageDma hasStg x y w h img stg) s = .next { drained s with
      opr := latch (.pushImageDma hasStg x y w h img stg) s.opr, done := false
      pmem := stagedMem k img.toNat buf w.toNat h.toNat s.swap s.pmem, qIn := r, nperf := 0
      queue := (windowTx s.cfg.colorFmt k.x.toNat k.y.toNat k.w.toNat k.h.toNat buf).take j
      pending := 0, fatal := true, faultCause := 2, eng := .halt } := by
  intro k buf
  rw [exec_of_drain_first start.inv start.idle start.valid (start.plan hasStg img stg)
    (runLines_afterDrain_fault (u := beginOp _ _ _ (drained s)) (halted_beginOp ..) cells rfl short
      fault), complete_halted (halted_raiseFatal _ _)]
  rfl

end

/-- Settles O29: the plan is the drain, the staging copy and the six submissions; the staged memory is
read cell by cell. -/
theorem pushImageDmaQueuesSix : Obligations.PushImageDmaQueuesSix := by
  unfold Obligations.PushImageDmaQueuesSix
  intro s hasStg x y w h img stg r i k buf inv idle enabled valid origin extent area cells ok
  have start : WindowStart s x y w h := ⟨inv, idle, enabled, valid, origin, extent, area⟩
  have wf : Memory.wf s.pmem = true := inv.memory
  refine ⟨stagedMem k img.toNat buf w.toNat h.toNat s.swap s.pmem, ?_, ?_, ?_, ?_⟩
  · exact start.exec_ok (stageCells_valid _ _ cells) ok
  · exact copyMem_wf _ _ wf
  · exact fun c outside => stagedMem_readByte wf outside
  · exact fun sound xx yy inside => stagedMem_of_sound wf sound inside

/-- Settles O30: the lines are those of the run in which every answer is ok, up to the fault. -/
theorem pushImageDmaQueueFault : Obligations.PushImageDmaQueueFault := by
  unfold Obligations.PushImageDmaQueueFault
  intro s hasStg x y w h img stg r j i k buf inv idle enabled valid origin extent area cells short fault
  have start : WindowStart s x y w h := ⟨inv, idle, enabled, valid, origin, extent, area⟩
  obtain ⟨memory, halt, cause, handle, disabled, room, counts⟩ := inv
  have startOk : WindowStart { s with qIn := List.replicate 6 true } x y w h :=
    ⟨⟨memory, halt, cause, handle, disabled, room, counts⟩, idle, enabled, valid, origin, extent, area⟩
  exact ⟨_, startOk.exec_ok (r := []) (stageCells_valid _ _ cells) (by simp),
    start.exec_fault (stageCells_valid _ _ cells) short fault⟩

/-- Settles O57: each cell of the staged memory is what the copies leave in it. -/
theorem stagingFollowsTheAscendingOrder : Obligations.StagingFollowsTheAscendingOrder := by
  unfold Obligations.StagingFollowsTheAscendingOrder
  intro s hasStg x y w h img stg r i k buf inv idle enabled valid origin extent area cells ok
  have start : WindowStart s x y w h := ⟨inv, idle, enabled, valid, origin, extent, area⟩
  exact ⟨_, start.exec_ok (stageCells_valid _ _ cells) ok, stagedMem_readCell inv.memory⟩

end Sys2Proof.Machine
end

section
/-! A staging copy that is stuck or not made, and what reaches the wire when the queue of a DMA push is
drained (spec/42_dma_engine.md R186, R189, 43_bus_agents.md R221). -/

namespace Sys2Proof.Machine

/-! ## A copy that is stuck, and one that is not made -/

/-- An operation stuck after its drain. -/
theorem exec_of_drain_first_stop {i : Instr} {ops : List MicroOp} {ret : Option Bool} {s : State}
    {r : Result} (inv : Inv s) (idle : s.eng = .idle) (valid : QueueValid s)
    (plan : planOf i s = .run (.drain :: ops) ret)
    (stop : runLines ops (beginOp i (.drain :: ops) ret (drained s)) = .stop r) : exec i s = r := by
  rw [exec_eq_perform, plan, perform_run idle]
  refine runOps_stop ?_
  rw [runLines_cons_go (runLine_drain inv idle valid i (.drain :: ops) ret), stop]

/-- Settles O55: the drain is made, and the copy is stuck at its first cell that does not exist. -/
theorem stagingStuckAtInvalidCell : Obligations.StagingStuckAtInvalidCell := by
  unfold Obligations.StagingStuckAtInvalidCell
  intro s hasStg x y w h img stg pre post src dst i k buf inv idle enabled valid origin extent area
    something order before
  have start : WindowStart s x y w h := ⟨inv, idle, enabled, valid, origin, extent, area⟩
  have plan := start.plan hasStg img stg
  have copies : stageOps img.toNat buf w.toNat h.toNat k s.swap
      = copyLines s.swap (pre ++ (src, dst) :: post) := by
    rw [stageOps_copies something, order]
  have stuck {a : Nat} (lines : runLines (copyLines s.swap (pre ++ (src, dst) :: post))
      (beginOp i (.drain :: afterDrainOps s.cfg k img.toNat buf w.toNat h.toNat s.swap) none (drained s))
        = .stop (.fault (.engineStuckAt a))) : exec i s = .fault (.engineStuckAt a) := by
    refine exec_of_drain_first_stop inv idle valid plan ?_
    rw [← copies] at lines
    exact runLines_append_stop lines
  obtain ⟨reads, writes⟩ := runLines_copyLines_stuck s.swap (post := post) (src := src) (dst := dst)
    (halted_beginOp i (.drain :: afterDrainOps s.cfg k img.toNat buf w.toNat h.toNat s.swap) none
      (drained s)) before
  exact ⟨fun invalid => stuck (reads invalid), fun valid invalid => stuck (writes valid invalid)⟩

/-- A window that the clip leaves whole lies on the display. -/
theorem clip_whole_origin {c : Params} {x y w h : Word}
    (extent : emptyExtent (clip c x.toInt y.toInt w.toNat h.toNat) = false)
    (width : (clip c x.toInt y.toInt w.toNat h.toNat).w = w.toNat)
    (height : (clip c x.toInt y.toInt w.toNat h.toNat).h = h.toNat) :
    (clip c x.toInt y.toInt w.toNat h.toNat).x.toNat = x.toNat
      ∧ (clip c x.toInt y.toInt w.toNat h.toNat).y.toNat = y.toNat := by
  obtain ⟨extentW, extentH⟩ := emptyExtent_eq_false.1 extent
  obtain ⟨dx, dy⟩ := clip_whole width height
  simp only [clip, clipAxis_origin, clipAxis_extent, clipAxis_offset] at width height dx dy ⊢
  have nonneg (v : Word) (h : max (-v.toInt) 0 = 0) : (max v.toInt 0).toNat = v.toNat := by
    rw [BitVec.toInt_eq_toNat_cond] at h ⊢
    have := v.isLt
    split <;> split at h <;> omega
  exact ⟨nonneg x dx, nonneg y dy⟩

/-- Settles O56: no cell is touched, so the run is the one with six ok answers and nothing staged. -/
theorem wholeImageInPlaceIsNotCopied : Obligations.WholeImageInPlaceIsNotCopied := by
  unfold Obligations.WholeImageInPlaceIsNotCopied
  intro s hasStg x y w h img stg r i k inv idle enabled valid origin extent area nothing ok
  have start : WindowStart s x y w h := ⟨inv, idle, enabled, valid, origin, extent, area⟩
  have none := stageCells_of_nothing nothing
  rw [start.exec_ok (by rw [none]; simp) ok]
  obtain ⟨width, height, same, _⟩ := nothing
  obtain ⟨kx, ky⟩ := clip_whole_origin extent width height
  have staged : stagedMem k img.toNat (stagingBuffer hasStg img stg) w.toNat h.toNat s.swap s.pmem
      = s.pmem := by rw [stagedMem, none]; rfl
  have kw : k.w.toNat = w.toNat := by rw [width]; rfl
  have kh : k.h.toNat = h.toNat := by rw [height]; rfl
  change Host.Outcome.next (windowQueued i k _ _ _ _ _ _) = _
  rw [windowQueued, staged, kx, ky, kw, kh, same]
  rfl

/-! ## What reaches the wire -/

/-- An operation that leaves the engine idle and a queue that can be performed, waited for. -/
theorem exec_dmaWait_after {i : Instr} {s t : State} (inv : Inv s) (ends : exec i s = .next t)
    (idle : t.eng = .idle) (valid : QueueValid t) :
    exec .dmaWait t = .next (finished .dmaWait (drained t)) :=
  dmaWaitDrains t (exec_keeps_inv inv ends) idle valid

theorem txWire_payload (c : Params) (m : List Host.Cell) (f : ColorFmt) (a n : Nat) :
    txWire c m (payloadTx f a n) = pixelWire c .data (Memory.readCells m a n) false := rfl

/-- Settles O34: the one payload queued is performed by the drain, unswapped. -/
theorem bufferReachesTheWire : Obligations.BufferReachesTheWire := by
  unfold Obligations.BufferReachesTheWire
  intro s src len r inv idle enabled valid nonzero short ok cells
  have queued := (pushPixelsDmaQueuesOne s src len r inv idle valid short).2.1 enabled nonzero ok
  refine ⟨_, _, queued, exec_dmaWait_after inv queued rfl ?_, rfl, rfl, rfl, rfl, rfl, ?_⟩
  · intro t mem
    obtain rfl := List.mem_singleton.1 mem
    exact firstInvalid_none.2 cells
  · change (drained s).wire ++ [payloadTx s.cfg.colorFmt src.toNat len.toNat].flatMap
      (txWire s.cfg s.pmem) = _
    rw [List.flatMap_singleton, txWire_payload]

/-- The staged cells are those of the payload. -/
theorem stagedCells_valid {c : Params} {k : Clipped} {img buf w : Nat}
    (valid : WindowValid c k img buf w) : CellsValid c buf (k.w.toNat * k.h.toNat) := by
  intro n inside
  have pos : 0 < k.w.toNat := Nat.pos_of_mul_pos_right (Nat.zero_lt_of_lt inside)
  have cell := (valid (n % k.w.toNat) (n / k.w.toNat)
    ⟨Nat.mod_lt _ pos, Nat.div_lt_of_lt_mul inside⟩).2
  rwa [stagingAddr, Nat.add_assoc, Nat.mul_comm, Nat.div_add_mod] at cell

/-- The payload read after the staging copy is the window's pixels (R189). -/
theorem readCells_stagedMem {c : Params} {x y : Int} {w h img buf : Nat} {sw : Bool}
    {m : List Host.Cell} (wf : Memory.wf m = true)
    (sound : StagingSound (clip c x y w h) img buf w) :
    let k := clip c x y w h
    Memory.readCells (stagedMem k img buf w h sw m) buf (k.w.toNat * k.h.toNat)
      = windowPixels m k img w sw := by
  intro k
  rw [Memory.readCells, Nat.mul_comm, ← range_mul, windowPixels]
  refine List.flatMap_congr fun yy row => List.map_congr_left fun xx col => ?_
  rw [List.mem_range] at row col
  rw [← Nat.add_assoc]
  exact stagedMem_of_sound wf sound ⟨col, row⟩

/-- Settles O33: the six transactions queued are performed by the drain, and the payload is what the
staging copy left. -/
theorem windowReachesTheWire : Obligations.WindowReachesTheWire := by
  unfold Obligations.WindowReachesTheWire
  intro s hasStg x y w h img stg r i k buf inv idle enabled valid origin extent area cells sound ok
  have start : WindowStart s x y w h := ⟨inv, idle, enabled, valid, origin, extent, area⟩
  have queued := start.exec_ok (stageCells_valid _ _ cells) ok
  refine ⟨_, _, queued, exec_dmaWait_after inv queued rfl ?_, rfl, rfl, rfl, rfl, ?_⟩
  · have payload : txInvalid s.cfg (.payload buf (k.w.toNat * k.h.toNat)) = none :=
      firstInvalid_none.2 (stagedCells_valid cells)
    intro t mem
    simp only [windowQueued, windowTx, List.mem_cons, List.not_mem_nil, or_false] at mem
    obtain rfl | rfl | rfl | rfl | rfl | rfl := mem
    case inr.inr.inr.inr.inr => exact payload
    all_goals rfl
  · have pixels := readCells_stagedMem (sw := s.swap) inv.memory sound
    change (drained s).wire ++ (windowTx s.cfg.colorFmt k.x.toNat k.y.toNat k.w.toNat k.h.toNat
      buf).flatMap (txWire s.cfg (stagedMem k img.toNat buf w.toNat h.toNat s.swap s.pmem)) = _
    simp only [windowTx, List.flatMap_cons, List.flatMap_nil, txWire_payload, List.append_nil,
      List.append_assoc]
    rw [pixels]
    rfl

end Sys2Proof.Machine
end

section
/-! The synchronous pushes in parallel mode (spec/41_sync_push.md R143, R146, 43_bus_agents.md R217). -/

namespace Sys2Proof.Machine

/-! ## The plans of the pushes at a quiet machine -/

theorem Quiet.not_outstanding {s : State} (quiet : Quiet s) : ¬ dmaOutstanding s = true := by
  simp [dmaOutstanding_iff, quiet.queue, quiet.pending]

theorem planPushSeq_run {s : State} {len : Word} (quiet : Quiet s) (nonzero : len ≠ 0) (src : Word)
    (sw : Bool) :
    planPushSeq src len sw s = .run (pushSeqOps s.cfg src.toNat len.toNat sw) none :=
  (if_neg nonzero).trans (if_neg quiet.not_outstanding)

theorem planPushBlock_serial {s : State} {count : Word} (quiet : Quiet s) (nonzero : count ≠ 0)
    (mode : s.cfg.busMode = .serial) (color : Pixel) :
    planPushBlock color count s = .run (blockSerialOps s.cfg color count.toNat) none := by
  rw [planPushBlock, if_neg nonzero, if_neg quiet.not_outstanding, mode]

theorem planPushBlock_parallel {s : State} {count : Word} (quiet : Quiet s) (nonzero : count ≠ 0)
    (mode : s.cfg.busMode = .parallel) (color : Pixel) :
    planPushBlock color count s = .run (blockParallelOps s.cfg color count.toNat) none := by
  rw [planPushBlock, if_neg nonzero, if_neg quiet.not_outstanding, mode]

theorem exists_succ_of_ne_zero {v : Word} (nonzero : v ≠ 0) : ∃ n, v.toNat = n + 1 :=
  Nat.exists_eq_succ_of_ne_zero fun zero => nonzero (BitVec.eq_of_toNat_eq zero)

/-- An operation whose lines leave the engine alive completes with the frame of `finished`. -/
theorem exec_of_lines {i : Instr} {ops : List MicroOp} {s t : State} (idle : s.eng = .idle)
    (plan : planOf i s = .run ops none) (alive : halted t = false)
    (lines : runLines ops (beginOp i ops none s) = .go t) :
    exec i s = .next { t with eng := .idle, done := true } := by
  rw [exec_run_go idle plan lines, complete_running alive]
  rfl

theorem pixelWire_append (c : Params) (l : Level) (ps qs : List Pixel) (sw : Bool) :
    pixelWire c l (ps ++ qs) sw = pixelWire c l ps sw ++ pixelWire c l qs sw := by
  simp [pixelWire]

theorem pixelWire_singleton (c : Params) (l : Level) (p : Pixel) (sw : Bool) :
    pixelWire c l [p] sw = (pack c p sw).map fun b => (l, b) := by
  simp [pixelWire]

/-- One cell more on the wire. -/
theorem wire_readCells_succ (c : Params) (l : Level) (wire : List (Level × Byte))
    (m : List Host.Cell) (a n : Nat) (sw : Bool) :
    wire ++ pixelWire c l (Memory.readCells m a n) sw ++ pixelWire c l [Memory.readCell m (a + n)] sw
      = wire ++ pixelWire c l (Memory.readCells m a (n + 1)) sw := by
  rw [Memory.readCells_succ, pixelWire_append, List.append_assoc]

/-! ## Bytes over the parallel bus -/

/-- Bytes driven and strobed one after another. -/
theorem runLines_parBytes (bs : List Byte) {s : State} (alive : halted s = false) (b : Byte)
    (ops : List MicroOp) :
    runLines ((bs ++ [b]).flatMap parWriteOps ++ ops) s = runLines ops { s with
      data := b, wr := true, wire := s.wire ++ (bs ++ [b]).map fun b => (s.dc, b) } := by
  induction bs generalizing s with
  | nil => simpa using runLines_parWrite alive b ops
  | cons c bs ih =>
    rw [List.cons_append, List.flatMap_cons, List.append_assoc, runLines_parWrite alive,
      ih (by exact alive)]
    simp

theorem pack_ne_nil (c : Params) (p : Pixel) (sw : Bool) : pack c p sw ≠ [] := by
  unfold pack
  split <;> simp [bytes565, bytes666]

/-- One pixel sent over the parallel bus. -/
def parSent (p : Pixel) (sw : Bool) (s : State) : State :=
  { s with
    data := ((pack s.cfg p sw).getLast?).getD 0
    wr := true
    wire := s.wire ++ pixelWire s.cfg s.dc [p] sw }

theorem runLines_parPixel {s : State} (alive : halted s = false) (p : Pixel) (sw : Bool)
    (ops : List MicroOp) :
    runLines ((pack s.cfg p sw).flatMap parWriteOps ++ ops) s = runLines ops (parSent p sw s) := by
  have nonempty := pack_ne_nil s.cfg p sw
  rw [parSent, pixelWire_singleton, List.getLast?_eq_some_getLast nonempty, Option.getD_some]
  have last := runLines_parBytes (pack s.cfg p sw).dropLast alive
    ((pack s.cfg p sw).getLast nonempty) ops
  rwa [List.dropLast_append_getLast] at last

/-! ## `PUSHBLOCK` -/

theorem blockParallelOps_succ (c : Params) (color : Pixel) (n : Nat) :
    blockParallelOps c color (n + 1)
      = (pack c color false).flatMap parWriteOps ++ blockParallelOps c color n := by
  simp [blockParallelOps, List.replicate_succ]

theorem runLines_blockParallel (n : Nat) {s : State} (alive : halted s = false) (color : Pixel) :
    runLines (blockParallelOps s.cfg color (n + 1)) s = .go { s with
      data := ((pack s.cfg color false).getLast?).getD 0, wr := true
      wire := s.wire ++ pixelWire s.cfg s.dc (List.replicate (n + 1) color) false } := by
  induction n generalizing s with
  | zero =>
    rw [blockParallelOps_succ, runLines_parPixel alive]
    rfl
  | succ n ih =>
    have pixel := runLines_parPixel alive color false (blockParallelOps s.cfg color (n + 1))
    rw [blockParallelOps_succ, pixel]
    refine (ih (s := parSent color false s) alive).trans ?_
    simp [parSent, List.replicate_succ, pixelWire]

/-- Settles O13: the plan is the bytes of the pixel `count` times, driven one after another. -/
theorem pushBlockParallelResult : Obligations.PushBlockParallelResult := by
  unfold Obligations.PushBlockParallelResult
  intro s color count quiet mode nonzero i
  obtain ⟨n, count⟩ := exists_succ_of_ne_zero nonzero
  have plan : planOf i s = _ := planPushBlock_parallel quiet nonzero mode color
  have lines := runLines_blockParallel n (halted_beginOp i (blockParallelOps s.cfg color (n + 1)) none s)
    color
  rw [count] at plan ⊢
  exact exec_of_lines quiet.eng plan rfl lines

/-! ## Sequences -/

/-- Driving byte `k` of the fetched pixel is writing that byte. -/
theorem runLines_driveByte {s : State} (alive : halted s = false) (k : Nat) (sw : Bool)
    (ops : List MicroOp) :
    runLines ([.drivePixelByte k sw, .strobeLow, .strobeHigh] ++ ops) s
      = runLines (parWriteOps ((pack s.cfg s.loc sw)[k]?.getD 0) ++ ops) s := by
  have drive : runLine (.drivePixelByte k sw) s
      = runLine (.driveByte ((pack s.cfg s.loc sw)[k]?.getD 0)) s := by
    rw [runLine_plain (op := .drivePixelByte k sw) alive nofun nofun,
      runLine_plain (op := .driveByte _) alive nofun nofun]
    rfl
  simp only [parWriteOps, List.cons_append, runLines_cons, drive]

theorem runLines_driveBytes (ks : List Nat) {s : State} (alive : halted s = false) (sw : Bool)
    (ops : List MicroOp) :
    runLines ((ks.flatMap fun k => [.drivePixelByte k sw, .strobeLow, .strobeHigh]) ++ ops) s
      = runLines ((ks.map fun k => (pack s.cfg s.loc sw)[k]?.getD 0).flatMap parWriteOps ++ ops) s := by
  induction ks generalizing s with
  | nil => rfl
  | cons k ks ih =>
    rw [List.flatMap_cons, List.append_assoc, runLines_driveByte alive, runLines_parWrite alive,
      ih (by exact alive), List.map_cons, List.flatMap_cons, List.append_assoc,
      runLines_parWrite alive]

theorem pack_bytes (c : Params) (p : Pixel) (sw : Bool) :
    ((List.range (c.colorFmt.bpp / 8)).map fun k => (pack c p sw)[k]?.getD 0) = pack c p sw := by
  cases fmt : c.colorFmt <;>
    simp [pack, fmt, ColorFmt.bpp, bytes565, bytes666, List.range_succ]

/-- The lines of one pixel at address `a`. -/
def parPixelOps (c : Params) (a : Nat) (sw : Bool) : List MicroOp :=
  .fetchPixel a :: (List.range (c.colorFmt.bpp / 8)).flatMap fun k =>
    [.drivePixelByte k sw, .strobeLow, .strobeHigh]

theorem seqParallelOps_succ (c : Params) (a n : Nat) (sw : Bool) :
    seqParallelOps c a (n + 1) sw = seqParallelOps c a n sw ++ parPixelOps c (seqAddr a n) sw := by
  simp [seqParallelOps, parPixelOps, List.range_succ]

theorem runLine_fetchPixel {s : State} (alive : halted s = false) {a : Nat}
    (valid : s.cfg.pmemValid a = true) :
    runLine (.fetchPixel a) s = .go { s with loc := Memory.readCell s.pmem a } := by
  rw [runLine_plain (op := .fetchPixel a) alive nofun nofun, act, memRead_of_valid valid]

theorem runLine_fetchPixel_stuck {s : State} (alive : halted s = false) {a : Nat}
    (invalid : s.cfg.pmemValid a = false) :
    runLine (.fetchPixel a) s = .stop (.fault (.engineStuckAt a)) := by
  rw [runLine_plain (op := .fetchPixel a) alive nofun nofun, act, memRead_none.2 invalid]

theorem runLines_parPixelOps {s : State} (alive : halted s = false) {a : Nat}
    (valid : s.cfg.pmemValid a = true) (sw : Bool) :
    runLines (parPixelOps s.cfg a sw) s
      = .go (parSent (Memory.readCell s.pmem a) sw { s with loc := Memory.readCell s.pmem a }) := by
  let u : State := { s with loc := Memory.readCell s.pmem a }
  have drive := runLines_driveBytes (List.range (s.cfg.colorFmt.bpp / 8)) (s := u) alive sw []
  rw [List.append_nil, pack_bytes, runLines_parPixel (s := u) alive, runLines_nil] at drive
  rw [parPixelOps, runLines_cons_go (runLine_fetchPixel alive valid)]
  exact drive

/-- A sequence of `n + 1` pixels sent over the parallel bus. -/
def seqParSent (a n : Nat) (sw : Bool) (s : State) : State :=
  { s with
    data := ((pack s.cfg (Memory.readCell s.pmem (a + n)) sw).getLast?).getD 0
    wr := true
    loc := Memory.readCell s.pmem (a + n)
    wire := s.wire ++ pixelWire s.cfg s.dc (Memory.readCells s.pmem a (n + 1)) sw }

theorem runLines_seqParallel (n : Nat) {s : State} (alive : halted s = false) {a : Nat} (sw : Bool)
    (valid : CellsValid s.cfg a (n + 1)) :
    runLines (seqParallelOps s.cfg a (n + 1) sw) s = .go (seqParSent a n sw s) := by
  induction n with
  | zero =>
    have first : s.cfg.pmemValid (seqAddr a 0) = true := valid 0 Nat.zero_lt_one
    rw [seqParallelOps_succ]
    exact runLines_parPixelOps alive first sw
  | succ n ih =>
    have before := ih fun k inside => valid k (Nat.lt_succ_of_lt inside)
    have last : s.cfg.pmemValid (seqAddr a (n + 1)) = true := valid (n + 1) (Nat.lt_succ_self _)
    rw [seqParallelOps_succ, runLines_append_go before]
    refine (runLines_parPixelOps (s := seqParSent a n sw s) alive last sw).trans ?_
    simp only [parSent, seqParSent, seqAddr, wire_readCells_succ]

/-- Settles O16: the plan is the bytes of each pixel, driven after it is fetched. -/
theorem sequenceParallelResult : Obligations.SequenceParallelResult := by
  unfold Obligations.SequenceParallelResult
  intro s src len quiet mode nonzero cells
  obtain ⟨n, length⟩ := exists_succ_of_ne_zero nonzero
  rw [length] at cells ⊢
  have ops (sw : Bool) : pushSeqOps s.cfg src.toNat len.toNat sw
      = seqParallelOps s.cfg src.toNat (n + 1) sw := by
    rw [pushSeqOps, mode, length]
  have sent (i : Instr) (sw : Bool) (plan : planOf i s = planPushSeq src len sw s) :
      exec i s = .next { seqParSent src.toNat n sw s with
        opr := latch i s.opr, eng := .idle, done := true } := by
    rw [planPushSeq_run quiet nonzero, ops] at plan
    exact exec_of_lines quiet.eng plan rfl
      (runLines_seqParallel n (halted_beginOp i _ none s) sw cells)
  exact ⟨sent (.pushPixels src len) s.swap rfl, sent (.pushSwapPixels src len) true rfl⟩

end Sys2Proof.Machine
end

section
/-! Transfers of whole pixels over the serial bus, and `PUSHBLOCK` in serial mode
(spec/41_sync_push.md R143, 43_bus_agents.md R213, R214). -/

namespace Sys2Proof.Machine

/-! ## A transfer of whole pixels -/

/-- `BPP / 8`: bytes of a pixel on the wire. -/
def wireBytes (f : ColorFmt) : Nat := f.bpp / 8

theorem transferLen_toNat {f : ColorFmt} {n : Nat} (pos : 0 < n) (fits : n ≤ f.batch) :
    (transferLen f n).toNat + 1 = 8 * (n * wireBytes f) := by
  rw [transferLen, BitVec.toNat_ofNat]
  cases f <;> simp only [ColorFmt.batch, ColorFmt.bpp, wireBytes] at fits ⊢ <;> omega

/-- The registers hold the pixels, first pixel and first byte first. -/
def Holds (c : Params) (w : Vector Word 16) (ps : List Pixel) (sw : Bool) : Prop :=
  (List.range (ps.length * wireBytes c.colorFmt)).map (fifoByte w) = ps.flatMap fun p => pack c p sw

/-- Pixels sent in one transfer. -/
def serSent (ps : List Pixel) (sw : Bool) (s : State) : State :=
  { s with
    bitlen := transferLen s.cfg.colorFmt ps.length
    xlog := s.xlog ++ [transferLen s.cfg.colorFmt ps.length]
    wire := s.wire ++ pixelWire s.cfg s.dc ps sw }

/-- A transfer sends the pixels the registers hold. -/
theorem runLines_sendPixels {s : State} (alive : halted s = false) (free : s.busy = false)
    {ps : List Pixel} {sw : Bool} (nonempty : ps ≠ []) (fits : ps.length ≤ s.cfg.colorFmt.batch)
    (holds : Holds s.cfg s.w ps sw) (ops : List MicroOp) :
    runLines (.setBitlen (transferLen s.cfg.colorFmt ps.length) :: .startTransfer :: .waitIdle :: ops) s
      = runLines ops (serSent ps sw s) := by
  have length := transferLen_toNat (List.length_pos_iff.2 nonempty) fits
  rw [runLines_transfer alive free (by rw [length]; exact Nat.mul_mod_right 8 _), length,
    Nat.mul_div_cancel_left _ (by decide), show _ = _ from holds]
  rfl

theorem runLines_transferOps {s : State} (alive : halted s = false) (free : s.busy = false)
    {ps : List Pixel} {sw : Bool} (nonempty : ps ≠ []) (fits : ps.length ≤ s.cfg.colorFmt.batch)
    (holds : Holds s.cfg s.w ps sw) (ops : List MicroOp) :
    runLines (transferOps (transferLen s.cfg.colorFmt ps.length) ++ ops) s
      = runLines ops (serSent ps sw s) :=
  (runLines_cons_go (runLine_waitIdle alive free)).trans
    (runLines_sendPixels alive free nonempty fits holds ops)

/-! ## What the registers hold -/

/-- The registers loaded one after another from register 0. -/
@[irreducible] def loadedRegs (f : Nat → Word) (n : Nat) (w : Vector Word 16) : Vector Word 16 :=
  Vector.ofFn fun j : Fin 16 => if j.val < n then f j.val else w[j]

theorem loadedRegs_zero (f : Nat → Word) (w : Vector Word 16) : loadedRegs f 0 w = w := by
  ext j hj
  simp [loadedRegs]

theorem loadedRegs_succ (f : Nat → Word) (n : Nat) (w : Vector Word 16) :
    (loadedRegs f n w).setIfInBounds n (f n) = loadedRegs f (n + 1) w := by
  ext j hj
  simp only [loadedRegs, Vector.getElem_setIfInBounds, Vector.getElem_ofFn]
  grind

theorem loadedRegs_get (f : Nat → Word) {n j : Nat} (w : Vector Word 16) (below : j < n) (reg : j < 16) :
    (loadedRegs f n w)[j]?.getD 0 = f j := by
  simp [loadedRegs, below, reg]

theorem runLines_loadedRegs (f : Nat → Word) (n : Nat) {s : State} (alive : halted s = false)
    (free : s.busy = false) :
    runLines ((List.range n).map fun j => .loadReg j (f j)) s
      = .go { s with w := loadedRegs f n s.w } := by
  induction n with
  | zero => rw [loadedRegs_zero]; rfl
  | succ n ih =>
    rw [List.range_succ, List.map_append, runLines_append_go ih]
    refine (runLines_cons_go (runLine_loadReg (by exact alive) (by exact free) n (f n))).trans ?_
    rw [← loadedRegs_succ]
    rfl

/-- RGB565: two pixels a register. -/
theorem holds_565 {c : Params} {w : Vector Word 16} {n : Nat} {f : Nat → Pixel} {sw : Bool}
    (fmt : c.colorFmt = .rgb565)
    (low : ∀ j, 2 * j < n → [lane (w[j]?.getD 0) 0, lane (w[j]?.getD 0) 1]
      = bytes565 c.nativeFirst (f (2 * j)) sw)
    (high : ∀ j, 2 * j + 1 < n → [lane (w[j]?.getD 0) 2, lane (w[j]?.getD 0) 3]
      = bytes565 c.nativeFirst (f (2 * j + 1)) sw) :
    Holds c w ((List.range n).map f) sw := by
  rw [Holds, List.length_map, List.length_range, fmt, wireBytes, ColorFmt.bpp, ← range_mul,
    List.flatMap_map]
  refine List.flatMap_congr fun y inside => ?_
  rw [List.mem_range] at inside
  simp only [pack, fmt]
  change [fifoByte w (y * 2), fifoByte w (y * 2 + 1)] = _
  obtain ⟨j, rfl | rfl⟩ := Nat.even_or_odd' y
  · rw [← low j inside, fifoByte, fifoByte, show 2 * j * 2 / 4 = j by omega,
      show 2 * j * 2 % 4 = 0 by omega, show (2 * j * 2 + 1) / 4 = j by omega,
      show (2 * j * 2 + 1) % 4 = 1 by omega]
  · rw [← high j inside, fifoByte, fifoByte, show (2 * j + 1) * 2 / 4 = j by omega,
      show (2 * j + 1) * 2 % 4 = 2 by omega, show ((2 * j + 1) * 2 + 1) / 4 = j by omega,
      show ((2 * j + 1) * 2 + 1) % 4 = 3 by omega]

theorem lanes_low_word565 (nf : NativeFirst) (p q : Pixel) (sw : Bool) :
    [lane (word565 nf p q sw) 0, lane (word565 nf p q sw) 1] = bytes565 nf p sw := by
  have four := lanes_word565 nf p q sw
  simp only [lanes, bytes565, List.cons_append, List.nil_append, List.cons.injEq] at four ⊢
  exact ⟨four.1, four.2.1, trivial⟩

theorem lanes_high_word565 (nf : NativeFirst) (p q : Pixel) (sw : Bool) :
    [lane (word565 nf p q sw) 2, lane (word565 nf p q sw) 3] = bytes565 nf q sw := by
  have four := lanes_word565 nf p q sw
  simp only [lanes, bytes565, List.cons_append, List.nil_append, List.cons.injEq] at four ⊢
  exact four.2.2

theorem lanes_low_half565 (nf : NativeFirst) (p : Pixel) (sw : Bool) :
    [lane ((half565 nf p sw).setWidth 32) 0, lane ((half565 nf p sw).setWidth 32) 1]
      = bytes565 nf p sw := by
  have four := lanes_half565 nf p sw
  simp only [lanes, bytes565, List.cons_append, List.nil_append, List.cons.injEq] at four ⊢
  exact ⟨four.1, four.2.1, trivial⟩

/-! ## `PUSHBLOCK` -/

/-- Register `j` of a block's pattern. -/
def blockWord (c : Params) (color : Pixel) (j : Nat) : Word :=
  match c.colorFmt with
  | .rgb565 => word565 c.nativeFirst color color false
  | .rgb666 => ((group666 color false)[j % 3]?).getD 0

/-- The registers a block loads: all sixteen, or fifteen (R143). -/
def blockRegs (f : ColorFmt) : Nat :=
  match f with
  | .rgb565 => 16
  | .rgb666 => 15

theorem blockLoadOps_eq (c : Params) (color : Pixel) :
    blockLoadOps c color
      = (List.range (blockRegs c.colorFmt)).map fun j => .loadReg j (blockWord c color j) := by
  unfold blockLoadOps blockWord
  cases c.colorFmt <;> rfl

/-- Byte `i` of the group pattern is byte `i mod 3` of the pixel (R127, R128). -/
theorem lane_group666 (p : Pixel) (sw : Bool) (i : Nat) :
    lane ((group666 p sw)[i / 4 % 3]?.getD 0) (i % 4) = (bytes666 p sw)[i % 3]?.getD 0 := by
  have below : i % 12 < 12 := Nat.mod_lt _ (by decide)
  rw [show i / 4 % 3 = i % 12 / 4 by omega, show i % 4 = i % 12 % 4 by omega,
    show i % 3 = i % 12 % 3 by omega]
  have four0 := lanes_group0 p sw
  have four1 := lanes_group1 p sw
  have four2 := lanes_group2 p sw
  simp only [lanes, List.cons.injEq, and_true] at four0 four1 four2
  generalize i % 12 = r at below
  interval_cases r <;> simp [group666, bytes666, four0, four1, four2]

theorem range_map_const {α : Type} (n : Nat) (a : α) :
    ((List.range n).map fun _ => a) = List.replicate n a := by
  simp

theorem holds_block {c : Params} (color : Pixel) {n : Nat} (w : Vector Word 16)
    (fits : n ≤ c.colorFmt.batch) :
    Holds c (loadedRegs (blockWord c color) (blockRegs c.colorFmt) w) (List.replicate n color) false := by
  cases fmt : c.colorFmt with
  | rgb565 =>
    rw [fmt] at fits
    have reg (j : Nat) (inside : 2 * j < n) : (loadedRegs (blockWord c color) 16 w)[j]?.getD 0
        = word565 c.nativeFirst color color false := by
      have below : j < 16 := by simp only [ColorFmt.batch] at fits; omega
      rw [loadedRegs_get _ w below below, blockWord, fmt]
    rw [← range_map_const, blockRegs]
    exact holds_565 fmt (fun j inside => by rw [reg j inside]; exact lanes_low_word565 _ _ _ _)
      (fun j inside => by rw [reg j (by omega)]; exact lanes_high_word565 _ _ _ _)
  | rgb666 =>
    rw [fmt] at fits
    have byte (i : Nat) (inside : i < n * 3) :
        fifoByte (loadedRegs (blockWord c color) 15 w) i = (bytes666 color false)[i % 3]?.getD 0 := by
      have below : i / 4 < 15 := by simp only [ColorFmt.batch] at fits; omega
      rw [fifoByte, loadedRegs_get _ w below (by omega), blockWord, fmt, ← lane_group666]
    rw [← range_map_const, blockRegs, Holds, List.length_map, List.length_range, fmt, wireBytes, ColorFmt.bpp,
      ← range_mul, List.flatMap_map]
    refine List.flatMap_congr fun y inside => ?_
    rw [List.mem_range] at inside
    change [fifoByte _ (y * 3), fifoByte _ (y * 3 + 1), fifoByte _ (y * 3 + 2)] = pack c color false
    rw [byte _ (by omega), byte _ (by omega), byte _ (by omega), pack, fmt,
      show y * 3 % 3 = 0 by omega, show (y * 3 + 1) % 3 = 1 by omega,
      show (y * 3 + 2) % 3 = 2 by omega]
    rfl

/-- `n` pixels of one colour sent `q` times, the registers unchanged between. -/
def blocksSent (color : Pixel) (n q : Nat) (s : State) : State :=
  { s with
    bitlen := if q = 0 then s.bitlen else transferLen s.cfg.colorFmt n
    xlog := s.xlog ++ List.replicate q (transferLen s.cfg.colorFmt n)
    wire := s.wire ++ pixelWire s.cfg s.dc (List.replicate (q * n) color) false }

theorem blocksSent_succ (color : Pixel) (n q : Nat) (s : State) :
    blocksSent color n q (serSent (List.replicate n color) false s) = blocksSent color n (q + 1) s := by
  simp only [blocksSent, serSent, List.length_replicate, ite_self, Nat.add_one_ne_zero, if_false,
    List.replicate_succ, List.append_assoc, List.singleton_append, ← pixelWire_append,
    List.replicate_append_replicate, Nat.succ_mul, Nat.add_comm (q * n) n]

theorem runLines_transfers {n : Nat} (color : Pixel) (q : Nat) {s : State} (alive : halted s = false)
    (free : s.busy = false) (pos : 0 < n) (fits : n ≤ s.cfg.colorFmt.batch)
    (holds : Holds s.cfg s.w (List.replicate n color) false) (ops : List MicroOp) :
    runLines ((List.replicate q (transferOps (transferLen s.cfg.colorFmt n))).flatten ++ ops) s
      = runLines ops (blocksSent color n q s) := by
  induction q generalizing s with
  | zero => simp [blocksSent, pixelWire]
  | succ q ih =>
    have nonempty : List.replicate n color ≠ [] := by simpa using pos.ne'
    have send := runLines_transferOps alive free nonempty (by simpa using fits) holds
      ((List.replicate q (transferOps (transferLen s.cfg.colorFmt n))).flatten ++ ops)
    rw [List.length_replicate] at send
    rw [List.replicate_succ, List.flatten_cons, List.append_assoc, send, ← blocksSent_succ]
    exact ih (s := serSent (List.replicate n color) false s) alive free fits holds

/-- A block's registers loaded. -/
def blockLoaded (color : Pixel) (s : State) : State :=
  { s with w := loadedRegs (blockWord s.cfg color) (blockRegs s.cfg.colorFmt) s.w }

/-- The state a block of `n` pixels leaves. -/
def blockSent (color : Pixel) (n : Nat) (s : State) : State :=
  { blockLoaded color s with
    bitlen := transferLen s.cfg.colorFmt
      (if n % s.cfg.colorFmt.batch = 0 then s.cfg.colorFmt.batch else n % s.cfg.colorFmt.batch)
    xlog := s.xlog
      ++ List.replicate (n / s.cfg.colorFmt.batch) (transferLen s.cfg.colorFmt s.cfg.colorFmt.batch)
      ++ (if n % s.cfg.colorFmt.batch = 0 then []
        else [transferLen s.cfg.colorFmt (n % s.cfg.colorFmt.batch)])
    wire := s.wire ++ pixelWire s.cfg s.dc (List.replicate n color) false }

/-- The full batches and then the rest make the block. -/
theorem blocksSent_blocksSent (color : Pixel) {n : Nat} (pos : 0 < n) (s : State) :
    blocksSent color (n % s.cfg.colorFmt.batch) (if n % s.cfg.colorFmt.batch = 0 then 0 else 1)
      (blocksSent color s.cfg.colorFmt.batch (n / s.cfg.colorFmt.batch) (blockLoaded color s))
      = blockSent color n s := by
  have total := Nat.div_add_mod' n s.cfg.colorFmt.batch
  by_cases none : n % s.cfg.colorFmt.batch = 0
  · have whole : n / s.cfg.colorFmt.batch * s.cfg.colorFmt.batch = n := by omega
    have some : n / s.cfg.colorFmt.batch ≠ 0 := by
      intro zero
      rw [zero] at whole
      omega
    simp [blocksSent, blockSent, blockLoaded, none, some, whole, pixelWire]
  · have wire : pixelWire s.cfg s.dc (List.replicate n color) false
        = pixelWire s.cfg s.dc
            (List.replicate (n / s.cfg.colorFmt.batch * s.cfg.colorFmt.batch) color) false
          ++ pixelWire s.cfg s.dc (List.replicate (n % s.cfg.colorFmt.batch) color) false := by
      rw [← pixelWire_append, List.replicate_append_replicate, total]
    simp [blocksSent, blockSent, blockLoaded, none, wire]

theorem batch_pos (f : ColorFmt) : 0 < f.batch := by
  cases f <;> decide

/-- The pixels after the full batches, if any. -/
theorem runLines_rest (color : Pixel) (r : Nat) {s : State} (alive : halted s = false)
    (free : s.busy = false) (fits : r ≤ s.cfg.colorFmt.batch)
    (holds : Holds s.cfg s.w (List.replicate r color) false) :
    runLines (if r = 0 then [] else transferOps (transferLen s.cfg.colorFmt r)) s
      = .go (blocksSent color r (if r = 0 then 0 else 1) s) := by
  split
  · simp [blocksSent, pixelWire]
  · rename_i some
    simpa using runLines_transfers color 1 alive free (Nat.pos_of_ne_zero some) fits holds []

theorem runLines_blockSerial (color : Pixel) {n : Nat} (pos : 0 < n) {s : State}
    (alive : halted s = false) (free : s.busy = false) :
    runLines (blockSerialOps s.cfg color n) s = .go (blockSent color n s) := by
  have below : n % s.cfg.colorFmt.batch ≤ s.cfg.colorFmt.batch := (Nat.mod_lt n (batch_pos _)).le
  have load := runLines_loadedRegs (blockWord s.cfg color) (blockRegs s.cfg.colorFmt) alive free
  have full := runLines_transfers color (n / s.cfg.colorFmt.batch) (s := blockLoaded color s) alive free
    (batch_pos _) (Nat.le_refl _) (holds_block color s.w (Nat.le_refl _))
    (if n % s.cfg.colorFmt.batch = 0 then []
      else transferOps (transferLen s.cfg.colorFmt (n % s.cfg.colorFmt.batch)))
  have rest := runLines_rest color (n % s.cfg.colorFmt.batch)
    (s := blocksSent color s.cfg.colorFmt.batch (n / s.cfg.colorFmt.batch) (blockLoaded color s))
    alive free below (holds_block color s.w below)
  rw [blockSerialOps, blockLoadOps_eq, List.append_assoc, List.append_assoc, List.singleton_append,
    runLines_cons_go (runLine_waitIdle alive free), runLines_append_go load]
  refine full.trans (rest.trans ?_)
  rw [blocksSent_blocksSent color pos]

/-- The pattern by register number. -/
theorem loadedRegs_block (c : Params) (color : Pixel) (w : Vector Word 16) :
    loadedRegs (blockWord c color) (blockRegs c.colorFmt) w = Vector.ofFn fun j : Fin 16 =>
      match c.colorFmt with
      | .rgb565 => word565 c.nativeFirst color color false
      | .rgb666 => if j.val = 15 then w[j] else ((group666 color false)[j.val % 3]?).getD 0 := by
  refine Vector.ext fun j below => ?_
  rw [loadedRegs, Vector.getElem_ofFn, Vector.getElem_ofFn]
  unfold blockWord blockRegs
  cases c.colorFmt with
  | rgb565 => exact if_pos below
  | rgb666 =>
    by_cases last : j = 15
    · simp [last]
    · simp [last, show j < 15 by omega]

/-- Settles O12: the pattern is loaded once and sent in full batches and a rest. -/
theorem pushBlockSerialResult : Obligations.PushBlockSerialResult := by
  unfold Obligations.PushBlockSerialResult
  intro s color count quiet mode nonzero f full rem i
  obtain ⟨n, length⟩ := exists_succ_of_ne_zero nonzero
  have plan : planOf i s = _ := planPushBlock_serial quiet nonzero mode color
  have lines := runLines_blockSerial color (n := count.toNat) (by rw [length]; exact Nat.succ_pos n)
    (halted_beginOp i (blockSerialOps s.cfg color count.toNat) none s) quiet.busy
  refine (exec_of_lines quiet.eng plan rfl lines).trans ?_
  simp only [blockSent, blockLoaded, beginOp_cfg, beginOp_w, loadedRegs_block]
  rfl

end Sys2Proof.Machine
end

section
/-! Sequences over the serial bus (spec/41_sync_push.md R146). -/

namespace Sys2Proof.Machine

/-! ## RGB666: one transfer a pixel -/

/-- The lines of one RGB666 pixel at address `a`. -/
def pixelOps666 (a : Nat) (sw : Bool) : List MicroOp :=
  [.fetchPixel a, .waitIdle, .loadPixel sw, .setBitlen 23, .startTransfer, .waitIdle]

theorem seqSerial666Ops_succ (a n : Nat) (sw : Bool) :
    seqSerial666Ops a (n + 1) sw = seqSerial666Ops a n sw ++ pixelOps666 (seqAddr a n) sw := by
  simp [seqSerial666Ops, pixelOps666, List.range_succ]

theorem runLine_loadPixel {s : State} (alive : halted s = false) (free : s.busy = false) (sw : Bool) :
    runLine (.loadPixel sw) s = .go (setReg s 0 (word666 s.loc sw)) := by
  rw [runLine_plain (op := .loadPixel sw) alive nofun nofun, act, whenFree_of_free free]

theorem holds_666 {c : Params} {w : Vector Word 16} {p : Pixel} {sw : Bool}
    (fmt : c.colorFmt = .rgb666) (reg : w[0] = word666 p sw) : Holds c w [p] sw := by
  have four := lanes_word666 p sw
  simp only [lanes, bytes666, List.cons_append, List.nil_append, List.cons.injEq] at four
  simp [Holds, fmt, wireBytes, ColorFmt.bpp, pack, List.range_succ, fifoByte, reg, four, bytes666]

/-- A sequence of `n + 1` RGB666 pixels sent. -/
def seqSent666 (a n : Nat) (sw : Bool) (s : State) : State :=
  { s with
    w := s.w.setIfInBounds 0 (word666 (Memory.readCell s.pmem (a + n)) sw)
    loc := Memory.readCell s.pmem (a + n)
    bitlen := 23
    xlog := s.xlog ++ List.replicate (n + 1) 23
    wire := s.wire ++ pixelWire s.cfg s.dc (Memory.readCells s.pmem a (n + 1)) sw }

theorem runLines_pixelOps666 {s : State} (alive : halted s = false) (free : s.busy = false)
    (fmt : s.cfg.colorFmt = .rgb666) {a : Nat} (valid : s.cfg.pmemValid a = true) (sw : Bool) :
    runLines (pixelOps666 a sw) s = .go (seqSent666 a 0 sw s) := by
  let u : State := { s with
    loc := Memory.readCell s.pmem a
    w := s.w.setIfInBounds 0 (word666 (Memory.readCell s.pmem a) sw) }
  have holds : Holds u.cfg u.w [Memory.readCell s.pmem a] sw :=
    holds_666 fmt (by simp [u])
  have fits : [Memory.readCell s.pmem a].length ≤ u.cfg.colorFmt.batch := batch_pos _
  have send := runLines_sendPixels (s := u) alive free (List.cons_ne_nil _ _) fits holds []
  have length : transferLen u.cfg.colorFmt [Memory.readCell s.pmem a].length = 23 := by
    rw [show u.cfg.colorFmt = .rgb666 from fmt]
    rfl
  rw [serSent, length, runLines_nil] at send
  rw [pixelOps666, runLines_cons_go (runLine_fetchPixel alive valid),
    runLines_cons_go (runLine_waitIdle (by exact alive) (by exact free)),
    runLines_cons_go (runLine_loadPixel (by exact alive) (by exact free) sw)]
  exact send

theorem runLines_seqSerial666 (n : Nat) {s : State} (alive : halted s = false) (free : s.busy = false)
    (fmt : s.cfg.colorFmt = .rgb666) {a : Nat} (sw : Bool) (valid : CellsValid s.cfg a (n + 1)) :
    runLines (seqSerial666Ops a (n + 1) sw) s = .go (seqSent666 a n sw s) := by
  induction n with
  | zero =>
    have first : s.cfg.pmemValid (seqAddr a 0) = true := valid 0 Nat.zero_lt_one
    rw [seqSerial666Ops_succ]
    exact runLines_pixelOps666 alive free fmt first sw
  | succ n ih =>
    have before := ih fun k inside => valid k (Nat.lt_succ_of_lt inside)
    have last : s.cfg.pmemValid (seqAddr a (n + 1)) = true := valid (n + 1) (Nat.lt_succ_self _)
    rw [seqSerial666Ops_succ, runLines_append_go before]
    refine (runLines_pixelOps666 (s := seqSent666 a n sw s) alive free fmt last sw).trans ?_
    have one (b : Nat) : Memory.readCells s.pmem b (0 + 1) = [Memory.readCell s.pmem b] := rfl
    simp only [seqSent666, seqAddr, Nat.add_zero, Vector.setIfInBounds_setIfInBounds, one,
      List.append_assoc, List.replicate_append_replicate, Nat.zero_add, ← pixelWire_append,
      ← Memory.readCells_succ]

/-- Settles O15: the plan is one transfer a pixel, each after its cell is fetched. -/
theorem sequenceSerial666Result : Obligations.SequenceSerial666Result := by
  unfold Obligations.SequenceSerial666Result
  intro s src len quiet mode fmt nonzero cells
  obtain ⟨n, length⟩ := exists_succ_of_ne_zero nonzero
  rw [length] at cells ⊢
  have ops (sw : Bool) : pushSeqOps s.cfg src.toNat len.toNat sw
      = seqSerial666Ops src.toNat (n + 1) sw := by
    rw [pushSeqOps, mode, fmt, length]
  have sent (i : Instr) (sw : Bool) (plan : planOf i s = planPushSeq src len sw s) :
      exec i s = .next { seqSent666 src.toNat n sw s with
        opr := latch i s.opr, eng := .idle, done := true } := by
    rw [planPushSeq_run quiet nonzero, ops] at plan
    exact exec_of_lines quiet.eng plan rfl
      (runLines_seqSerial666 n (halted_beginOp i _ none s) quiet.busy fmt sw cells)
  have reg (v : Word) : s.w.set 0 v = s.w.setIfInBounds 0 v := by
    ext j below
    simp [Vector.getElem_set, Vector.getElem_setIfInBounds]
  simp only [reg]
  exact ⟨sent (.pushPixels src len) s.swap rfl, sent (.pushSwapPixels src len) true rfl⟩

/-! ## RGB565: batches of at most 32 pixels -/

/-- Register `j` of a batch of `k` pixels at address `a`: two pixels, or the last one alone. -/
def batchWord (nf : NativeFirst) (m : List Host.Cell) (a k : Nat) (sw : Bool) (j : Nat) : Word :=
  if 2 * j + 1 < k then
    word565 nf (Memory.readCell m (a + 2 * j)) (Memory.readCell m (a + 2 * j + 1)) sw
  else (half565 nf (Memory.readCell m (a + 2 * j)) sw).setWidth 32

theorem holds_batch {c : Params} (m : List Host.Cell) (a : Nat) {k : Nat} (sw : Bool)
    (w : Vector Word 16) (fmt : c.colorFmt = .rgb565) (fits : k ≤ 32) :
    Holds c (loadedRegs (batchWord c.nativeFirst m a k sw) ((k + 1) / 2) w) (Memory.readCells m a k)
      sw := by
  have reg (j : Nat) (inside : 2 * j < k) :
      (loadedRegs (batchWord c.nativeFirst m a k sw) ((k + 1) / 2) w)[j]?.getD 0
        = batchWord c.nativeFirst m a k sw j := loadedRegs_get _ w (by omega) (by omega)
  refine holds_565 fmt (fun j inside => ?_) (fun j inside => ?_)
  · rw [reg j inside, batchWord]
    split
    · exact lanes_low_word565 _ _ _ _
    · exact lanes_low_half565 _ _ _
  · rw [reg j (by omega), batchWord, if_pos inside]
    exact lanes_high_word565 _ _ _ _

theorem runLine_loadPair {s : State} (alive : halted s = false) (free : s.busy = false) {a : Nat}
    (first : s.cfg.pmemValid a = true) (second : s.cfg.pmemValid (a + 1) = true) (j : Nat) (sw : Bool) :
    runLine (.loadPair j a sw) s = .go (setReg s j (word565 s.cfg.nativeFirst
      (Memory.readCell s.pmem a) (Memory.readCell s.pmem (a + 1)) sw)) := by
  rw [runLine_plain (op := .loadPair j a sw) alive nofun nofun, act, memRead_of_valid first,
    memRead_of_valid second]
  exact whenFree_of_free free

theorem runLine_loadHalf {s : State} (alive : halted s = false) (free : s.busy = false) {a : Nat}
    (valid : s.cfg.pmemValid a = true) (j : Nat) (sw : Bool) :
    runLine (.loadHalf j a sw) s = .go (setReg s j
      ((half565 s.cfg.nativeFirst (Memory.readCell s.pmem a) sw).setWidth 32)) := by
  rw [runLine_plain (op := .loadHalf j a sw) alive nofun nofun, act, memRead_of_valid valid]
  exact whenFree_of_free free

/-- The first `n` registers of a batch loaded. -/
def regsLoaded (a k : Nat) (sw : Bool) (n : Nat) (s : State) : State :=
  { s with w := loadedRegs (batchWord s.cfg.nativeFirst s.pmem a k sw) n s.w }

theorem setReg_regsLoaded {a k : Nat} {sw : Bool} {n : Nat} {s : State} {v : Word}
    (word : batchWord s.cfg.nativeFirst s.pmem a k sw n = v) :
    setReg (regsLoaded a k sw n s) n v = regsLoaded a k sw (n + 1) s := by
  rw [regsLoaded, regsLoaded, ← loadedRegs_succ, word]
  rfl

/-- Two pixels each. -/
theorem runLines_loadPairs {a k : Nat} {sw : Bool} (n : Nat) {s : State} (alive : halted s = false)
    (free : s.busy = false) (within : 2 * n ≤ k) (valid : CellsValid s.cfg a (2 * n)) :
    runLines ((List.range n).map fun j => .loadPair j (a + 2 * j) sw) s
      = .go (regsLoaded a k sw n s) := by
  induction n with
  | zero => rw [regsLoaded, loadedRegs_zero]; rfl
  | succ n ih =>
    have before := ih (by omega) fun i inside => valid i (by omega)
    have pair := runLine_loadPair (s := regsLoaded a k sw n s) alive free (valid (2 * n) (by omega))
      (valid (2 * n + 1) (by omega)) n sw
    have word : batchWord s.cfg.nativeFirst s.pmem a k sw n = word565 s.cfg.nativeFirst
        (Memory.readCell s.pmem (a + 2 * n)) (Memory.readCell s.pmem (a + 2 * n + 1)) sw :=
      if_pos (by omega)
    rw [List.range_succ, List.map_append, runLines_append_go before]
    exact runLines_cons_go (pair.trans (congrArg Flow.go (setReg_regsLoaded word)))

/-- The last one alone when their number is odd. -/
theorem runLines_batchLoad {a k : Nat} (sw : Bool) {s : State} (alive : halted s = false)
    (free : s.busy = false) (valid : CellsValid s.cfg a k) (ops : List MicroOp) :
    runLines (batchLoadOps a k sw ++ ops) s = runLines ops (regsLoaded a k sw ((k + 1) / 2) s) := by
  have pairs := runLines_loadPairs (a := a) (k := k) (sw := sw) (k / 2) alive free (by omega)
    fun i inside => valid i (by omega)
  rw [batchLoadOps, List.append_assoc, runLines_append_go pairs]
  split
  · rw [List.nil_append, show (k + 1) / 2 = k / 2 by omega]
  · have half := runLine_loadHalf (s := regsLoaded a k sw (k / 2) s) alive free
      (valid (k - 1) (by omega)) (k / 2) sw
    have word : batchWord s.cfg.nativeFirst s.pmem a k sw (k / 2)
        = (half565 s.cfg.nativeFirst (Memory.readCell s.pmem (a + (k - 1))) sw).setWidth 32 := by
      rw [batchWord, if_neg (by omega), show 2 * (k / 2) = k - 1 by omega]
    rw [List.singleton_append, show (k + 1) / 2 = k / 2 + 1 by omega]
    exact runLines_cons_go (half.trans (congrArg Flow.go (setReg_regsLoaded word)))

theorem runLines_batch {a k : Nat} (sw : Bool) {s : State} (alive : halted s = false)
    (free : s.busy = false) (fmt : s.cfg.colorFmt = .rgb565) (pos : 0 < k) (fits : k ≤ 32)
    (valid : CellsValid s.cfg a k) :
    runLines (batchOps a k sw) s
      = .go (serSent (Memory.readCells s.pmem a k) sw (regsLoaded a k sw ((k + 1) / 2) s)) := by
  have length := Memory.readCells_length s.pmem a k
  have send := runLines_sendPixels (s := regsLoaded a k sw ((k + 1) / 2) s) (ps := Memory.readCells s.pmem a k)
    (sw := sw) alive free (by rw [← List.length_pos_iff, length]; exact pos)
    (by rw [length, show (regsLoaded a k sw ((k + 1) / 2) s).cfg.colorFmt = .rgb565 from fmt]; exact fits)
    (holds_batch s.pmem a sw s.w fmt fits) []
  rw [length, show (regsLoaded a k sw ((k + 1) / 2) s).cfg.colorFmt = .rgb565 from fmt, runLines_nil] at send
  rw [batchOps, List.append_assoc, List.singleton_append, runLines_cons_go (runLine_waitIdle alive free),
    runLines_batchLoad sw alive free valid]
  exact send

/-- One batch sent. -/
def batchSent (a k : Nat) (sw : Bool) (s : State) : State :=
  serSent (Memory.readCells s.pmem a k) sw (regsLoaded a k sw ((k + 1) / 2) s)

theorem Memory.readCells_add (m : List Host.Cell) (a n k : Nat) :
    Memory.readCells m a n ++ Memory.readCells m (a + n) k = Memory.readCells m a (n + k) := by
  simp [Memory.readCells, List.range_add, Nat.add_assoc]

/-- Sixteen registers loaded leave nothing of what was there. -/
theorem loadedRegs_all (f : Nat → Word) (w w' : Vector Word 16) :
    loadedRegs f 16 w = loadedRegs f 16 w' := by
  ext j below
  simp [loadedRegs]

/-- The registers after `q` full batches: those of the last one. -/
def fullRegs (nf : NativeFirst) (m : List Host.Cell) (a q : Nat) (sw : Bool) (w : Vector Word 16) :
    Vector Word 16 :=
  if q = 0 then w else loadedRegs (batchWord nf m (a + 32 * (q - 1)) 32 sw) 16 w

/-- `q` full batches sent. -/
def fullSent (a q : Nat) (sw : Bool) (s : State) : State :=
  { s with
    w := fullRegs s.cfg.nativeFirst s.pmem a q sw s.w
    bitlen := if q = 0 then s.bitlen else 511
    xlog := s.xlog ++ List.replicate q 511
    wire := s.wire ++ pixelWire s.cfg s.dc (Memory.readCells s.pmem a (32 * q)) sw }

theorem batchSent_fullSent (a q : Nat) (sw : Bool) {s : State} (fmt : s.cfg.colorFmt = .rgb565) :
    batchSent (seqAddr a (32 * q)) 32 sw (fullSent a q sw s) = fullSent a (q + 1) sw s := by
  have full : transferLen .rgb565 32 = 511 := rfl
  simp only [batchSent, serSent, regsLoaded, fullSent, fullRegs, seqAddr, Memory.readCells_length, fmt,
    full, Nat.add_one_ne_zero, if_false, Nat.add_sub_cancel, List.append_assoc, ← pixelWire_append,
    Memory.readCells_add, List.replicate_succ', Nat.mul_succ]
  rw [loadedRegs_all]

theorem runLines_fullBatches {a : Nat} (sw : Bool) (q : Nat) {s : State} (alive : halted s = false)
    (free : s.busy = false) (fmt : s.cfg.colorFmt = .rgb565) (valid : CellsValid s.cfg a (32 * q)) :
    runLines ((List.range q).flatMap fun i => batchOps (seqAddr a (32 * i)) 32 sw) s
      = .go (fullSent a q sw s) := by
  induction q with
  | zero => simp [fullSent, fullRegs, pixelWire, Memory.readCells]
  | succ q ih =>
    have before := ih fun i inside => valid i (by omega)
    have cells : CellsValid s.cfg (seqAddr a (32 * q)) 32 := fun i inside => by
      rw [seqAddr, Nat.add_assoc]
      exact valid _ (by omega)
    have batch := runLines_batch (s := fullSent a q sw s) sw alive free fmt (by decide) (by decide) cells
    rw [List.range_succ, List.flatMap_append, runLines_append_go before, List.flatMap_singleton,
      ← batchSent_fullSent a q sw fmt]
    exact batch

/-- The state an RGB565 sequence of `n` pixels leaves. -/
def seqSent565 (a n : Nat) (sw : Bool) (s : State) : State :=
  { s with
    w := Vector.ofFn fun j : Fin 16 => seqRegister s.cfg.nativeFirst s.pmem a n sw s.w[j] j.val
    bitlen := BitVec.ofNat 9 ((if n % 32 = 0 then 32 else n % 32) * 16 - 1)
    xlog := s.xlog ++ List.replicate (n / 32) 511
      ++ (if n % 32 = 0 then [] else [BitVec.ofNat 9 (n % 32 * 16 - 1)])
    wire := s.wire ++ pixelWire s.cfg s.dc (Memory.readCells s.pmem a n) sw }

section
variable (nf : NativeFirst) (m : List Host.Cell) (a : Nat) {n : Nat} (sw : Bool) (old : Word)

theorem seqRegister_whole (whole : n % 32 = 0) (pos : 0 < n) {j : Nat} (below : j < 16) :
    seqRegister nf m a n sw old j = batchWord nf m (a + 32 * (n / 32 - 1)) 32 sw j := by
  simp only [seqRegister, batchWord, if_pos whole]
  rw [if_pos (by omega), if_pos (by omega), show a + (n - 32 + 2 * j) = a + 32 * (n / 32 - 1) + 2 * j by
    omega, show a + (n - 32 + 2 * j + 1) = a + 32 * (n / 32 - 1) + 2 * j + 1 by omega]

/-- A register the rest loads. -/
theorem seqRegister_loaded (rest : n % 32 ≠ 0) {j : Nat} (below : j < (n % 32 + 1) / 2) :
    seqRegister nf m a n sw old j = batchWord nf m (a + 32 * (n / 32)) (n % 32) sw j := by
  simp only [seqRegister, batchWord, if_neg rest]
  rw [show a + (n - n % 32 + 2 * j) = a + 32 * (n / 32) + 2 * j by omega,
    show a + (n - n % 32 + 2 * j + 1) = a + 32 * (n / 32) + 2 * j + 1 by omega]
  by_cases pair : 2 * j + 1 < n % 32
  · rw [if_pos (by omega), if_pos pair]
  · rw [if_neg (by omega), if_pos (by omega), if_neg pair]

/-- A register the rest leaves as the last full batch did, if there was one. -/
theorem seqRegister_kept (rest : n % 32 ≠ 0) {j : Nat} (below : j < 16)
    (beyond : ¬ j < (n % 32 + 1) / 2) :
    seqRegister nf m a n sw old j
      = if n / 32 = 0 then old else batchWord nf m (a + 32 * (n / 32 - 1)) 32 sw j := by
  simp only [seqRegister, batchWord, if_neg rest]
  rw [if_neg (by omega), if_neg (by omega)]
  by_cases few : n / 32 = 0
  · rw [if_neg (by omega), if_pos few]
  · rw [if_pos (by omega), if_neg few, if_pos (by omega),
      show a + (n - n % 32 - 32 + 2 * j) = a + 32 * (n / 32 - 1) + 2 * j by omega,
      show a + (n - n % 32 - 32 + 2 * j + 1) = a + 32 * (n / 32 - 1) + 2 * j + 1 by omega]

end

/-- Full batches only. -/
theorem fullSent_eq (a : Nat) {n : Nat} (sw : Bool) (s : State) (pos : 0 < n) (whole : n % 32 = 0) :
    fullSent a (n / 32) sw s = seqSent565 a n sw s := by
  have some : n / 32 ≠ 0 := by omega
  have regs : fullRegs s.cfg.nativeFirst s.pmem a (n / 32) sw s.w = Vector.ofFn fun j : Fin 16 =>
      seqRegister s.cfg.nativeFirst s.pmem a n sw s.w[j] j.val := by
    refine Vector.ext fun j below => ?_
    rw [fullRegs, if_neg some, loadedRegs, Vector.getElem_ofFn, Vector.getElem_ofFn,
      seqRegister_whole _ _ _ _ _ whole pos below]
    exact if_pos below
  have count : 32 * (n / 32) = n := by omega
  simp only [fullSent, seqSent565, regs, count, whole, some, if_true, if_false, List.append_nil]
  rfl

/-- Full batches and a rest. -/
theorem batchSent_rest (a : Nat) {n : Nat} (sw : Bool) {s : State} (fmt : s.cfg.colorFmt = .rgb565)
    (rest : n % 32 ≠ 0) :
    batchSent (seqAddr a (32 * (n / 32))) (n % 32) sw (fullSent a (n / 32) sw s)
      = seqSent565 a n sw s := by
  have regs : loadedRegs (batchWord s.cfg.nativeFirst s.pmem (a + 32 * (n / 32)) (n % 32) sw)
      ((n % 32 + 1) / 2) (fullRegs s.cfg.nativeFirst s.pmem a (n / 32) sw s.w)
      = Vector.ofFn fun j : Fin 16 => seqRegister s.cfg.nativeFirst s.pmem a n sw s.w[j] j.val := by
    refine Vector.ext fun j below => ?_
    rw [loadedRegs, Vector.getElem_ofFn, Vector.getElem_ofFn]
    by_cases loaded : j < (n % 32 + 1) / 2
    · rw [seqRegister_loaded _ _ _ _ _ rest loaded]
      exact if_pos loaded
    · rw [seqRegister_kept _ _ _ _ _ rest below loaded, if_neg loaded]
      by_cases few : n / 32 = 0
      · simp only [fullRegs, if_pos few, Fin.getElem_fin]
      · simp only [fullRegs, if_neg few, loadedRegs, Fin.getElem_fin, Vector.getElem_ofFn]
        exact if_pos below
  have count : 32 * (n / 32) + n % 32 = n := Nat.div_add_mod n 32
  simp only [batchSent, serSent, regsLoaded, fullSent, seqSent565, seqAddr, regs, rest, if_false, fmt,
    Memory.readCells_length, List.append_assoc, ← pixelWire_append, Memory.readCells_add, count]
  rfl

theorem runLines_seqSerial565 {a n : Nat} (sw : Bool) {s : State} (alive : halted s = false)
    (free : s.busy = false) (fmt : s.cfg.colorFmt = .rgb565) (pos : 0 < n)
    (valid : CellsValid s.cfg a n) :
    runLines (seqSerial565Ops a n sw) s = .go (seqSent565 a n sw s) := by
  have full := runLines_fullBatches (a := a) sw (n / 32) alive free fmt
    fun i inside => valid i (by omega)
  rw [seqSerial565Ops, runLines_append_go full]
  split
  · rename_i whole
    rw [runLines_nil, fullSent_eq a sw s pos whole]
  · rename_i rest
    have cells : CellsValid s.cfg (seqAddr a (32 * (n / 32))) (n % 32) := fun i inside => by
      rw [seqAddr, Nat.add_assoc]
      exact valid _ (by omega)
    rw [← batchSent_rest a sw fmt rest]
    exact runLines_batch (s := fullSent a (n / 32) sw s) sw alive free fmt (by omega) (by omega) cells

/-- Settles O14: the plan is the full batches and the rest, each loaded and sent. -/
theorem sequenceSerial565Result : Obligations.SequenceSerial565Result := by
  unfold Obligations.SequenceSerial565Result
  intro s src len quiet mode fmt nonzero cells
  obtain ⟨n, length⟩ := exists_succ_of_ne_zero nonzero
  have pos : 0 < len.toNat := by rw [length]; exact Nat.succ_pos n
  have sent (i : Instr) (sw : Bool) (plan : planOf i s = planPushSeq src len sw s) :
      exec i s = .next { seqSent565 src.toNat len.toNat sw s with
        opr := latch i s.opr, eng := .idle, done := true } := by
    rw [planPushSeq_run quiet nonzero, pushSeqOps, mode, fmt] at plan
    exact exec_of_lines quiet.eng plan rfl
      (runLines_seqSerial565 sw (halted_beginOp i _ none s) quiet.busy fmt pos cells)
  exact ⟨sent (.pushPixels src len) s.swap rfl, sent (.pushSwapPixels src len) true rfl⟩

end Sys2Proof.Machine
end

section
/-! A sequence push that meets a cell that does not exist (spec/20_memory.md R61). -/

namespace Sys2Proof.Machine

/-! ## The element at which a list of lines is stuck -/

theorem range_split {j n : Nat} (below : j < n) :
    ∃ rest, List.range n = List.range j ++ j :: rest := by
  obtain ⟨k, rfl⟩ := Nat.exists_eq_add_of_lt below
  refine ⟨(List.range k).map fun i => j + (i + 1), ?_⟩
  rw [Nat.add_assoc, List.range_add, List.range_succ_eq_map, List.map_cons, List.map_map]
  rfl

/-- The lines of the elements before `j` are executed, those of element `j` are not. -/
theorem runLines_flatMap_stop {g : Nat → List MicroOp} {j n : Nat} {s t : State} {r : Result}
    (below : j < n) (before : runLines ((List.range j).flatMap g) s = .go t)
    (stop : ∀ ops, runLines (g j ++ ops) t = .stop r) (ops : List MicroOp) :
    runLines ((List.range n).flatMap g ++ ops) s = .stop r := by
  obtain ⟨rest, split⟩ := range_split below
  rw [split, List.flatMap_append, List.flatMap_cons, List.append_assoc, runLines_append_go before,
    List.append_assoc, stop]

/-! ## Pixel by pixel -/

/-- Over the parallel bus. -/
theorem runLines_seqParallel_stuck {a n j : Nat} (sw : Bool) {s : State} (alive : halted s = false)
    (below : j < n) (valid : CellsValid s.cfg a j) (invalid : s.cfg.pmemValid (a + j) = false) :
    runLines (seqParallelOps s.cfg a n sw) s = .stop (.fault (.engineStuckAt (a + j))) := by
  obtain ⟨t, before, cfg, aliveT⟩ : ∃ t, runLines (seqParallelOps s.cfg a j sw) s = .go t
      ∧ t.cfg = s.cfg ∧ halted t = false := by
    cases j with
    | zero => exact ⟨s, rfl, rfl, alive⟩
    | succ i => exact ⟨_, runLines_seqParallel i alive sw valid, rfl, alive⟩
  rw [← List.append_nil (seqParallelOps s.cfg a n sw)]
  refine runLines_flatMap_stop below before (fun ops => ?_) []
  exact runLines_cons_stop (runLine_fetchPixel_stuck aliveT (by rw [cfg]; exact invalid))

/-- Over the serial bus in RGB666. -/
theorem runLines_seqSerial666_stuck {a n j : Nat} (sw : Bool) {s : State} (alive : halted s = false)
    (free : s.busy = false) (fmt : s.cfg.colorFmt = .rgb666) (below : j < n)
    (valid : CellsValid s.cfg a j) (invalid : s.cfg.pmemValid (a + j) = false) :
    runLines (seqSerial666Ops a n sw) s = .stop (.fault (.engineStuckAt (a + j))) := by
  obtain ⟨t, before, cfg, aliveT⟩ : ∃ t, runLines (seqSerial666Ops a j sw) s = .go t
      ∧ t.cfg = s.cfg ∧ halted t = false := by
    cases j with
    | zero => exact ⟨s, rfl, rfl, alive⟩
    | succ i => exact ⟨_, runLines_seqSerial666 i alive free fmt sw valid, rfl, alive⟩
  rw [← List.append_nil (seqSerial666Ops a n sw)]
  refine runLines_flatMap_stop below before (fun ops => ?_) []
  exact runLines_cons_stop (runLine_fetchPixel_stuck aliveT (by rw [cfg]; exact invalid))

/-! ## Batch by batch -/

theorem runLine_loadPair_stuck {s : State} (alive : halted s = false) {a : Nat} {b : Nat}
    (before : b = a ∨ (s.cfg.pmemValid a = true ∧ b = a + 1)) (invalid : s.cfg.pmemValid b = false)
    (i : Nat) (sw : Bool) :
    runLine (.loadPair i a sw) s = .stop (.fault (.engineStuckAt b)) := by
  rw [runLine_plain (op := .loadPair i a sw) alive nofun nofun]
  obtain rfl | ⟨first, rfl⟩ := before
  · simp only [act, memRead_none.2 invalid]
  · simp only [act, memRead_none.2 invalid, memRead_of_valid first]

theorem runLine_loadHalf_stuck {s : State} (alive : halted s = false) {a : Nat}
    (invalid : s.cfg.pmemValid a = false) (i : Nat) (sw : Bool) :
    runLine (.loadHalf i a sw) s = .stop (.fault (.engineStuckAt a)) := by
  rw [runLine_plain (op := .loadHalf i a sw) alive nofun nofun]
  simp only [act, memRead_none.2 invalid]

/-- A batch is stuck while its registers are loaded. -/
theorem runLines_batch_stuck {a k r : Nat} (sw : Bool) {s : State} (alive : halted s = false)
    (free : s.busy = false) (inside : r < k) (valid : CellsValid s.cfg a r)
    (invalid : s.cfg.pmemValid (a + r) = false) (ops : List MicroOp) :
    runLines (batchOps a k sw ++ ops) s = .stop (.fault (.engineStuckAt (a + r))) := by
  have pairs := runLines_loadPairs (a := a) (k := k) (sw := sw) (r / 2) alive free (by omega)
    fun i inside => valid i (by omega)
  rw [batchOps, List.append_assoc, List.append_assoc, List.singleton_append,
    runLines_cons_go (runLine_waitIdle alive free), batchLoadOps, List.append_assoc]
  by_cases paired : r / 2 < k / 2
  · obtain ⟨rest, split⟩ := range_split paired
    have before : a + r = a + 2 * (r / 2)
        ∨ (s.cfg.pmemValid (a + 2 * (r / 2)) = true ∧ a + r = a + 2 * (r / 2) + 1) := by
      obtain even | odd := Nat.mod_two_eq_zero_or_one r
      · exact .inl (by omega)
      · exact .inr ⟨valid _ (by omega), by omega⟩
    rw [split, List.map_append, List.append_assoc, runLines_append_go pairs]
    exact runLines_cons_stop (runLine_loadPair_stuck (s := regsLoaded a k sw (r / 2) s) alive before
      invalid _ sw)
  · rw [show k / 2 = r / 2 by omega, runLines_append_go pairs, if_neg (by omega),
      show k - 1 = r by omega]
    exact runLines_cons_stop (runLine_loadHalf_stuck (s := regsLoaded a k sw (r / 2) s) alive
      invalid _ sw)

/-- Over the serial bus in RGB565. -/
theorem runLines_seqSerial565_stuck {a n j : Nat} (sw : Bool) {s : State} (alive : halted s = false)
    (free : s.busy = false) (fmt : s.cfg.colorFmt = .rgb565) (below : j < n)
    (valid : CellsValid s.cfg a j) (invalid : s.cfg.pmemValid (a + j) = false) :
    runLines (seqSerial565Ops a n sw) s = .stop (.fault (.engineStuckAt (a + j))) := by
  have before := runLines_fullBatches (a := a) sw (j / 32) alive free fmt
    fun i inside => valid i (by omega)
  have address : seqAddr a (32 * (j / 32)) + j % 32 = a + j := by rw [seqAddr]; omega
  have cells : CellsValid s.cfg (seqAddr a (32 * (j / 32))) (j % 32) := fun i inside => by
    rw [seqAddr, Nat.add_assoc]
    exact valid _ (by omega)
  have stuck {k : Nat} (inside : j % 32 < k) (ops : List MicroOp) :
      runLines (batchOps (seqAddr a (32 * (j / 32))) k sw ++ ops) (fullSent a (j / 32) sw s)
        = .stop (.fault (.engineStuckAt (a + j))) := by
    rw [← address]
    exact runLines_batch_stuck (s := fullSent a (j / 32) sw s) sw alive free inside cells
      (by rw [address]; exact invalid) ops
  by_cases full : j / 32 < n / 32
  · exact runLines_flatMap_stop full before (stuck (Nat.mod_lt j (by decide))) _
  · have last : j / 32 = n / 32 := by omega
    rw [last] at before stuck
    rw [seqSerial565Ops, runLines_append_go before, if_neg (by omega),
      ← List.append_nil (batchOps _ _ sw)]
    exact stuck (by omega) []

theorem runLines_pushSeq_stuck {a n j : Nat} (sw : Bool) {s : State} (alive : halted s = false)
    (free : s.busy = false) (below : j < n) (valid : CellsValid s.cfg a j)
    (invalid : s.cfg.pmemValid (a + j) = false) :
    runLines (pushSeqOps s.cfg a n sw) s = .stop (.fault (.engineStuckAt (a + j))) := by
  unfold pushSeqOps
  split
  case h_1 mode fmt => exact runLines_seqSerial565_stuck sw alive free fmt below valid invalid
  case h_2 mode fmt => exact runLines_seqSerial666_stuck sw alive free fmt below valid invalid
  case h_3 mode => exact runLines_seqParallel_stuck sw alive below valid invalid

/-- Settles O18: in every mode the elements before the cell are pushed, and its read is stuck. -/
theorem sequenceStuckAtInvalidCell : Obligations.SequenceStuckAtInvalidCell := by
  unfold Obligations.SequenceStuckAtInvalidCell
  intro s src len j quiet below valid invalid
  have nonzero : len ≠ 0 := by
    rintro rfl
    exact absurd below (Nat.not_lt_zero j)
  have stuck (i : Instr) (sw : Bool) (plan : planOf i s = planPushSeq src len sw s) :
      exec i s = .fault (.engineStuckAt (src.toNat + j)) := by
    rw [planPushSeq_run quiet nonzero] at plan
    rw [exec_eq_perform, plan, perform_run quiet.eng]
    exact runOps_stop (runLines_pushSeq_stuck (s := beginOp i _ none s) sw (halted_beginOp i _ none s)
      quiet.busy below valid invalid)
  exact ⟨stuck (.pushPixels src len) s.swap rfl, stuck (.pushSwapPixels src len) true rfl⟩

end Sys2Proof.Machine
end
